-- ==== Sys2Proof/Word.lean ====
section
/-! DEFINITION. The machine words of the decoder core: the byte every memory is made of (spec 20_memory R63) and the
16-bit accumulator word (spec 10_state R28, R29). -/

namespace Sys2Proof

/-- One byte: a cell of `WIN`, `INQ` or `OUT`, and the width of `BS_CURBYTE`, `BS_BITMASK` and `FAULT.CAUSE`. -/
abbrev Byte := BitVec 8

/-- The width of the two field accumulators `OUT_INDEX` and `OUT_COUNT` (R28, R29, decision D5). -/
abbrev Half := BitVec 16

end Sys2Proof
end

