-- ==== Sys2Proof/Config.lean ====
section
/-! DEFINITION. What is fixed for a model run and is not state: the parameters of the block that `State.reset` holds,
the byte an untouched memory cell reads as, and the one value the spec leaves free (`OUT_INIT_CAP`). -/

namespace Sys2Proof.Config

/-- `windowBits` of the block `State.reset` holds. DESIGN CHOICE (log 1): the spec gives no default construction; the
source's own end-to-end vector (95_test_vectors V2) uses (8, 4, 64). Unsafe only for a claim about `State.reset`. -/
def resetW : BitVec 4 := 8

/-- `lookaheadBits` of the block `State.reset` holds. DESIGN CHOICE (log 1). -/
def resetL : BitVec 4 := 4

/-- `inputCapacity` of the block `State.reset` holds. DESIGN CHOICE (log 1). -/
def resetQ : Nat := 64

/-- What a memory cell that nothing has written reads as: `WINDOW_INIT` = 0x00 for `WIN` (R7, R33, decision D3) and
0x00 for `INQ` (R32, decision D21); log 18. -/
def emptyByte : Byte := 0x00

/-- The free part of `OUT_INIT_CAP` (R7, R184, decision D10): the spec names the parameter and gives no value, so
nothing constrains it (log 2, safe). -/
opaque freeOutInitCap : Nat

/-- `OUT_INIT_CAP` ≥ 1 (R184): the capacity of the OutputSink at construction and reset. -/
def outInitCap : Nat := freeOutInitCap + 1

end Sys2Proof.Config
end

