-- ==== Sys2Proof/Syntax.lean ====
section
/-! DEFINITION. The instructions: one constructor per row of spec/opcode_table.json. Two are units of the compressed
stream (30_encoding), seven are host transactions (43_host_interface) and three are the internal operations that the
spec opens at unit level (40_bitstream_reader, 41_window, decision D18). -/

namespace Sys2Proof

inductive Instr where
  /-- LIT (R81, R155): a literal unit with its byte `lit`. -/
  | lit (v : Byte)
  /-- BREF (R82, R156): a backreference unit; `idx` is offset − 1 and `cnt` is count − 1, zero-extended to 16 bits (R84). -/
  | bref (idx cnt : Half)
  /-- NEW(w, l, q) (R170); the operands are integers, zero or negative allowed (decision D2). -/
  | new (w l q : Int)
  /-- SINK(bytes) (R171). -/
  | sink (bytes : List Byte)
  /-- POLL() (R172). -/
  | poll
  /-- PROCESS(bytes) (R173). -/
  | process (bytes : List Byte)
  /-- IS_FINISHED() (R174). -/
  | isFinished
  /-- GET_OUTPUT() (R175). -/
  | getOutput
  /-- RESET() (R176). -/
  | reset
  /-- GETBITS: `getBits(count)` on the block's own queue and cursor (R110); `count` is a natural. -/
  | getBits (count : Nat)
  /-- WIN_STORE: `store(b)` (R130). -/
  | winStore (b : Byte)
  /-- WIN_READ: `read(d)` (R131); `d` is a natural. -/
  | winRead (d : Nat)
  deriving DecidableEq, Repr

/-- Is it a unit of the compressed stream (30_encoding R86), which has bits, and not a call (43_host_interface, D1, D18)? -/
def Instr.isUnit : Instr → Bool
  | .lit _ => true
  | .bref _ _ => true
  | .new _ _ _ => false
  | .sink _ => false
  | .poll => false
  | .process _ => false
  | .isFinished => false
  | .getOutput => false
  | .reset => false
  | .getBits _ => false
  | .winStore _ => false
  | .winRead _ => false

end Sys2Proof
end

