-- ==== Sys2Proof/WellFormed.lean ====
section
/-! DEFINITION. Which instructions and which parameters are well formed. -/

namespace Sys2Proof

/-- The legal parameters of a block (R5): 4 ≤ W ≤ 15, 1 ≤ L ≤ W − 1, Q ≥ 1. -/
abbrev LegalConfig (W L Q : Nat) : Prop :=
  4 ≤ W ∧ W ≤ 15 ∧ 1 ≤ L ∧ L < W ∧ 1 ≤ Q

/-- A backreference's fields fit the configuration: `idx` is W bits and `cnt` is L bits wide (R82). Every other operand
value of every instruction is legal: all 256 literals (R155), every NEW argument (D2), every byte sequence, every
`getBits` count (a width outside 1..15 raises, R110) and every window distance (R131). -/
def Instr.wf (W L : Nat) : Instr → Bool
  | .lit _ => true
  | .bref idx cnt => idx.toNat < 2 ^ W && cnt.toNat < 2 ^ L
  | .new _ _ _ => true
  | .sink _ => true
  | .poll => true
  | .process _ => true
  | .isFinished => true
  | .getOutput => true
  | .reset => true
  | .getBits _ => true
  | .winStore _ => true
  | .winRead _ => true

end Sys2Proof
end

