-- ==== Sys2Proof/Decode.lean ====
section
/-! DEFINITION. The wire format (30_encoding): the decoder, total on any bits and rejecting by name, and the encoder
written from the same formats U-LIT (R81) and U-BREF (R82). A stream is a list of bits, first consumed bit first. -/

namespace Sys2Proof

/-- The low `n` bits of `v`, most significant first (R8, R61): the first bit of an `n`-bit field is bit `n − 1`. -/
def bitsOfNat : Nat → Nat → List Bool
  | 0, _ => []
  | n + 1, v => v.testBit n :: bitsOfNat n v

/-- The big-endian value of a run of bits (R61, R84). -/
def natOfBits : List Bool → Nat
  | [] => 0
  | b :: bs => b.toNat * 2 ^ bs.length + natOfBits bs

/-- A byte's bits in stream order, bit 7 first (R61). -/
def byteBits (v : Byte) : List Bool := bitsOfNat 8 v.toNat

/-- The bits of a byte sequence in stream order (R60). -/
def bytesBits (bytes : List Byte) : List Bool := bytes.flatMap byteBits

/-- Why bits decode to no unit. There is no illegal or reserved encoding (R86): the only reason is that the bits run out
inside a unit, and the name says in which field. -/
inductive DecodeError where
  | incompleteTag
  | incompleteLiteral
  | incompleteIndex
  | incompleteCount
  deriving DecidableEq, Repr

/-- Split an `n`-bit big-endian field off the front of a stream, if it is there whole. -/
def takeField (n : Nat) (bits : List Bool) : Option (Nat × List Bool) :=
  if bits.length < n then none else some (natOfBits (bits.take n), bits.drop n)

/-- Format U-LIT after its tag (R81): eight literal bits. -/
def decodeLit (bits : List Bool) : Except DecodeError (Instr × List Bool) :=
  match takeField 8 bits with
  | none => .error .incompleteLiteral
  | some (v, rest) => .ok (.lit (BitVec.ofNat 8 v), rest)

/-- Format U-BREF after its tag (R82): W index bits, then L count bits. -/
def decodeBref (W L : Nat) (bits : List Bool) : Except DecodeError (Instr × List Bool) :=
  match takeField W bits with
  | none => .error .incompleteIndex
  | some (i, rest) =>
    match takeField L rest with
    | none => .error .incompleteCount
    | some (c, rest') => .ok (.bref (BitVec.ofNat 16 i) (BitVec.ofNat 16 c), rest')

/-- The unit at the front of a stream and the bits after it (R80, R86): the tag bit 1 selects LIT, 0 selects BREF. -/
def decode (W L : Nat) : List Bool → Except DecodeError (Instr × List Bool)
  | [] => .error .incompleteTag
  | true :: rest => decodeLit rest
  | false :: rest => decodeBref W L rest

/-- The unit at the front of a byte sequence, whose first bit is bit 7 of its first byte (R61, R66). -/
def decodeBytes (W L : Nat) (bytes : List Byte) : Except DecodeError (Instr × List Bool) :=
  decode W L (bytesBits bytes)

/-- The bits of a unit in stream order: `1 llllllll` (R81) or `0 i{W} c{L}` (R82). A host transaction and an internal
operation have no bit encoding (43_host_interface, D1). -/
def encode (W L : Nat) : Instr → Option (List Bool)
  | .lit v => some (true :: bitsOfNat 8 v.toNat)
  | .bref idx cnt => some (false :: (bitsOfNat W idx.toNat ++ bitsOfNat L cnt.toNat))
  | .new _ _ _ => none
  | .sink _ => none
  | .poll => none
  | .process _ => none
  | .isFinished => none
  | .getOutput => none
  | .reset => none
  | .getBits _ => none
  | .winStore _ => none
  | .winRead _ => none

/-- The units of a program laid end to end with no gap (R80, R88); an instruction with no bits adds none. -/
def assemble (W L : Nat) (units : List Instr) : List Bool :=
  units.flatMap fun i => (encode W L i).getD []

/-- `BREF <offset>, <count>` of the spec's notation (R88): the 1-based numbers, stored less one. -/
def brefOf (offset count : Nat) : Instr :=
  .bref (BitVec.ofNat 16 (offset - 1)) (BitVec.ofNat 16 (count - 1))

/-- `.pad0` (R88): zero bits up to the next byte boundary. -/
def padZero (bits : List Bool) : List Bool :=
  bits ++ List.replicate ((8 - bits.length % 8) % 8) false

/-- Cut bits into `n` bytes, the first bit into bit 7 (R61, R88). -/
def packBytes : Nat → List Bool → List Byte
  | 0, _ => []
  | n + 1, bits => BitVec.ofNat 8 (natOfBits (bits.take 8)) :: packBytes n (bits.drop 8)

/-- How many bytes a table word is laid out in: all its own, and at least the 4 that the longest unit takes
(30 bits, R85). -/
def tableByteCount (nbits : Nat) : Nat := max 4 ((nbits + 7) / 8)

/-- The bytes of a word numbered as spec/opcode_table.json numbers it. The table's bit 0 is the tag u0, "the first bit
of the unit in stream order", so table bit i is stream bit u_i, which lies in byte i / 8 at bit 7 − i mod 8 (R61). Every
bit above `nbits` is 0. DEDUCED (log 3). -/
def tableBytes (nbits w : Nat) : List Byte :=
  packBytes (tableByteCount nbits)
    ((List.range (8 * tableByteCount nbits)).map fun i => decide (i < nbits) && w.testBit i)

/-- The unit this decoder reads from a table word, at the parameters of `State.reset`'s block. -/
def decodeTableWord (nbits w : Nat) : Option Instr :=
  match decodeBytes Config.resetW.toNat Config.resetL.toNat (tableBytes nbits w) with
  | .ok (i, _) => some i
  | .error _ => none

end Sys2Proof
end

