-- ==== Sys2Proof/Machine/State.lean ====
section
/-! DEFINITION. The state of the machine, as plain data: every register and memory of 10_state (R20), the one host
agent's script of calls still to come and the answer to its last call, and the reasons a step can stop. -/

namespace Sys2Proof.Machine

/-- `STATE`, 3 bits wide (R23). The constructors stand in the order of the codes 0 to 7; code 7 is "not a state; never
held" and a step in it raises INT_BAD_STATE (R140, R205). -/
inductive DecoderState where
  | tagBit
  | yieldLiteral
  | backrefIndexMsb
  | backrefIndexLsb
  | backrefCountMsb
  | backrefCountLsb
  | yieldBackref
  | code7
  deriving DecidableEq, Repr

/-- The three error kinds (R200). -/
inductive ErrorKind where
  | configurationError
  | corruptDataError
  | internalError
  deriving DecidableEq, Repr

/-- The causes of R200's table, one constructor a row. -/
inductive Cause where
  | cfgLookaheadNotSmaller
  | cfgNotPositive
  | cfgWindowRange
  | corruptOffset
  | corruptCount
  | intGetbitsWidth
  | intIndexMsbState
  | intCountMsbState
  | intBadState
  deriving DecidableEq, Repr

/-- The bitstream registers, the source's `BitstreamState` (R24 to R26). `BS_SIZE` and `BS_READINDEX` are counts that
range over 0..Q, whose width grows with Q (D5); the two byte registers are 8 bits. -/
structure BitstreamState where
  /-- `BS_SIZE` (R24). -/
  size : Nat
  /-- `BS_READINDEX` (R24). -/
  readIndex : Nat
  /-- `BS_CURBYTE` (R25). -/
  currentByte : Byte
  /-- `BS_BITMASK` (R26). -/
  bitMask : Byte
  deriving DecidableEq, Repr

/-- `FAULT` (R34): `VALID`, `KIND` and the 8-bit `CAUSE`. -/
structure FaultRegister where
  valid : Bool
  kind : ErrorKind
  cause : Byte
  deriving DecidableEq, Repr

/-- A byte memory: address and byte pairs, addresses strictly rising, no entry equal to `Config.emptyByte`, which is what
an unlisted address reads as (D3, D21). -/
abbrev Memory := List Host.Cell

/-- One decoder block (R20): exactly the registers and memories of 10_state. -/
structure Block where
  /-- `CFG_W`, 4 bits (R21). -/
  cfgW : BitVec 4
  /-- `CFG_L`, 4 bits (R21). -/
  cfgL : BitVec 4
  /-- `CFG_Q`, an unbounded positive integer (R21, N18). -/
  cfgQ : Nat
  /-- `STATE` (R23). -/
  state : DecoderState
  /-- `BS_SIZE`, `BS_READINDEX`, `BS_CURBYTE`, `BS_BITMASK` (R24 to R26). -/
  bs : BitstreamState
  /-- `INQ`, the input queue memory, addresses 0..Q − 1 (R32). -/
  inq : Memory
  /-- `OUT_INDEX`, 16 bits (R28). -/
  outIndex : Half
  /-- `OUT_COUNT`, 16 bits (R29). -/
  outCount : Half
  /-- The bits of `HEAD`; the register is W bits wide (R30), so `HEAD` is the low W bits of these 15 (log 4). -/
  headReg : BitVec 15
  /-- `WIN`, the window memory, addresses 0..N − 1 (R33). -/
  win : Memory
  /-- `OUT[0 .. OUT_SIZE − 1]`, the content of the OutputSink; `OUT_SIZE` is its length (R31, log 13). -/
  out : List Byte
  /-- `OUT_CAP`, the OutputSink's storage capacity (R31, R184). -/
  outCap : Nat
  /-- `FAULT` (R34). -/
  fault : FaultRegister
  deriving DecidableEq, Repr

/-- The result of a call that ends in `ok` (R177, and the Result line of each rule of 43). -/
inductive CallResult where
  /-- POLL, PROCESS and RESET return nothing (D19). -/
  | nothing
  /-- NEW returns the block (R170). -/
  | newBlock
  /-- SINK returns the count of bytes not accepted (R171). -/
  | notAccepted (n : Nat)
  /-- IS_FINISHED returns a boolean (R174). -/
  | finished (b : Bool)
  /-- GET_OUTPUT returns a byte sequence (R175). -/
  | bytes (bs : List Byte)
  /-- `getBits` returned this value (R110). -/
  | value (v : Nat)
  /-- `getBits` returned the sentinel NOBITS (R113). -/
  | nobits
  /-- `read` returned this byte (R131). -/
  | byte (v : Byte)
  deriving DecidableEq, Repr

/-- The three outcomes of a transaction (R177). They are what the host is told: the machine goes on after each. -/
inductive CallOutcome where
  | ok (r : CallResult)
  | error (kind : ErrorKind) (cause : Byte)
  | refusedFaulted
  deriving DecidableEq, Repr

/-- What the one host agent (R74) does next. -/
inductive HostAction where
  /-- It issues a transaction of 43, or calls an internal operation at unit level (D18). -/
  | call (i : Instr)
  /-- It lets the drive loop (R149) run through one unit of the stream: a POLL cut at a unit boundary (log 5). -/
  | drive
  deriving DecidableEq, Repr

structure State where
  /-- The block, none before a NEW has succeeded (R231, D24). -/
  block : Option Block
  /-- The host's actions still to come, next first: the machine's input (R74). The model's own field (log 5). -/
  script : List HostAction
  /-- The outcome of the host's last call (R177), none before the first. The model's own field (log 6). -/
  reply : Option CallOutcome
  deriving DecidableEq, Repr

/-- The registers and memories after construction and after RESET (R39). `FAULT.KIND` and `FAULT.CAUSE` have no value
there ("unspecified and not read while VALID = 0", R34): DESIGN CHOICE (log 7). -/
def Block.init (w l : BitVec 4) (q : Nat) : Block where
  cfgW := w
  cfgL := l
  cfgQ := q
  state := .tagBit
  bs := { size := 0, readIndex := 0, currentByte := 0x00, bitMask := 0x00 }
  inq := []
  outIndex := 0
  outCount := 0
  headReg := 0
  win := []
  out := []
  outCap := Config.outInitCap
  fault := { valid := false, kind := .corruptDataError, cause := 0x00 }

/-- The machine right after reset: a constructed block (R230), whose parameters are a DESIGN CHOICE (log 1), no action of
the host to come and no call answered. -/
def State.reset : State where
  block := some (Block.init Config.resetW Config.resetL Config.resetQ)
  script := []
  reply := none

/-- Why the machine stops. Neither is reached from a state that meets the invariant of Safety.lean. -/
inductive Fault where
  /-- Raised by a `getBits` that would load a queue byte at an address ≥ Q, which `INQ` does not have (R9, R32): only in a
  state with `BS_SIZE` > Q, which no run reaches. Safe: the machine stops. -/
  | inqAddress (a : Nat)
  /-- Raised by PROCESS when its loop (R173) never ends: the queue accepts no byte in any later round, as with Q = 0 or
  `BS_READINDEX` > `BS_SIZE`, which no run reaches. Safe: the machine stops. -/
  | processNeverEnds
  deriving DecidableEq, Repr

/-- Why a step has no meaning. -/
inductive Refusal where
  /-- Raised by exec's arm of an instruction that has no meaning yet; no arm raises it now. Safe. -/
  | notModelled (mnemonic : String)
  /-- Raised by everything but NEW when no block exists: "No transaction exists before a NEW has succeeded" (R231,
  log 10). Safe. -/
  | noBlock
  /-- Raised by LIT and BREF when `STATE` is not TagBit: a unit starts in TagBit (R155, R156), and the bits at the cursor
  belong to the unit in progress (log 11). Safe. -/
  | unitInProgress
  /-- Raised by step when the host calls LIT or BREF: these are units of the stream and no transaction (R86, D1,
  log 11). Safe. -/
  | unitIsNoCall
  deriving DecidableEq, Repr

/-- What a step or a meaning answers. -/
abbrev StepOutcome := Host.Outcome State Fault Refusal

end Sys2Proof.Machine
end

