-- ==== Sys2Proof/Machine/Ops.lean ====
section
/-! DEFINITION. The named operations over memories and registers: byte memory, the BitstreamReader (40), the
SlidingWindowBuffer (41), the OutputSink, error entry and the return from it (60), and answering the host. -/

namespace Sys2Proof.Machine

/-! ### Byte memory -/

/-- Read one byte: the last byte written there, or the untouched value (R68). -/
def Memory.read : Memory → Nat → Byte
  | [], _ => Config.emptyByte
  | (k, v) :: m, a => if k = a then v else Memory.read m a

/-- Write one byte, keeping the canonical form: writing the untouched value removes the entry. -/
def Memory.write : Memory → Nat → Byte → Memory
  | [], a, v => if v = Config.emptyByte then [] else [(a, v)]
  | (k, w) :: m, a, v =>
    if a < k then
      if v = Config.emptyByte then (k, w) :: m else (a, v) :: (k, w) :: m
    else if a = k then
      if v = Config.emptyByte then m else (a, v) :: m
    else (k, w) :: Memory.write m a v

/-- Write consecutive bytes from address `a` up. -/
def Memory.writeBytes : Memory → Nat → List Byte → Memory
  | m, _, [] => m
  | m, a, v :: vs => Memory.writeBytes (m.write a v) (a + 1) vs

/-- The canonical form: addresses strictly rising, no entry equal to the untouched value. -/
abbrev Memory.wf (m : Memory) : Prop :=
  m.Pairwise (fun p q => p.1 < q.1) ∧ ∀ p ∈ m, p.2 ≠ Config.emptyByte

/-- Every listed address lies in a memory of `n` bytes. -/
abbrev Memory.inRange (m : Memory) (n : Nat) : Prop := ∀ p ∈ m, p.1 < n

/-! ### Codes -/

/-- The 3-bit code of a decoder state (R23, decision D6). -/
def DecoderState.code : DecoderState → BitVec 3
  | .tagBit => 0
  | .yieldLiteral => 1
  | .backrefIndexMsb => 2
  | .backrefIndexLsb => 3
  | .backrefCountMsb => 4
  | .backrefCountLsb => 5
  | .yieldBackref => 6
  | .code7 => 7

/-- The cause codes of R200 (decision D8). -/
def Cause.code : Cause → Byte
  | .cfgLookaheadNotSmaller => 0x01
  | .cfgNotPositive => 0x02
  | .cfgWindowRange => 0x03
  | .corruptOffset => 0x10
  | .corruptCount => 0x11
  | .intGetbitsWidth => 0x20
  | .intIndexMsbState => 0x21
  | .intCountMsbState => 0x22
  | .intBadState => 0x23

/-- The kind of each cause (R200). -/
def Cause.kind : Cause → ErrorKind
  | .cfgLookaheadNotSmaller => .configurationError
  | .cfgNotPositive => .configurationError
  | .cfgWindowRange => .configurationError
  | .corruptOffset => .corruptDataError
  | .corruptCount => .corruptDataError
  | .intGetbitsWidth => .internalError
  | .intIndexMsbState => .internalError
  | .intCountMsbState => .internalError
  | .intBadState => .internalError

/-- `error(kind, cause)` as the host is told it (R177). -/
def Cause.outcome (c : Cause) : CallOutcome := .error c.kind c.code

/-! ### The parameters of a block (R5, R6) -/

/-- `W`. -/
def Block.W (b : Block) : Nat := b.cfgW.toNat

/-- `L`. -/
def Block.L (b : Block) : Nat := b.cfgL.toNat

/-- `N = 2^W`, the window capacity in bytes. -/
def Block.N (b : Block) : Nat := 2 ^ b.W

/-- `HEAD`, W bits wide (R30). -/
def Block.head (b : Block) : Nat := b.headReg.toNat % b.N

/-- `OUT_SIZE` (R31). -/
def Block.outSize (b : Block) : Nat := b.out.length

/-! ### The BitstreamReader (40) -/

/-- `bitsLeft(m)` (R27): 0 for 0 and k + 1 for 2^k, counted as the powers of two that do not exceed `m`. For a mask that
is no power of two, which no run holds (R26, log 16), this is the number of bits the loop of R110 takes before it loads. -/
def bitsLeft (m : Byte) : Nat := ((List.range 8).filter fun k => 2 ^ k ≤ m.toNat).length

/-- `BS_SIZE − BS_READINDEX`, the number of unread queue bytes (R24). -/
def BitstreamState.unreadCount (bs : BitstreamState) : Int := (bs.size : Int) - bs.readIndex

/-- `AVAIL` (R27). -/
def BitstreamState.avail (bs : BitstreamState) : Int := bitsLeft bs.bitMask + 8 * bs.unreadCount

/-- Load one queue byte into `BS_CURBYTE`, compacting the queue when it was the last (R110, R114, R115). -/
def BitstreamState.loadByte (bs : BitstreamState) (v : Byte) : BitstreamState :=
  if bs.readIndex + 1 = bs.size then
    { size := 0, readIndex := 0, currentByte := v, bitMask := 0x80 }
  else
    { size := bs.size, readIndex := bs.readIndex + 1, currentByte := v, bitMask := 0x80 }

/-- Load a byte if none is loaded, from the memory `rd` reads; an address that memory does not have stops (R114). -/
def BitstreamState.ensureLoaded (rd : Nat → Option Byte) (bs : BitstreamState) : Except Nat BitstreamState :=
  if bs.bitMask = 0x00 then
    match rd bs.readIndex with
    | some v => .ok (bs.loadByte v)
    | none => .error bs.readIndex
  else .ok bs

/-- The bit the mask names (R110). -/
def BitstreamState.currentBit (bs : BitstreamState) : Nat :=
  if bs.currentByte &&& bs.bitMask ≠ 0 then 1 else 0

/-- `BS_BITMASK <- BS_BITMASK >> 1` (R110). -/
def BitstreamState.advance (bs : BitstreamState) : BitstreamState := { bs with bitMask := bs.bitMask >>> 1 }

/-- The loop of R110: `n` more bits into the accumulator. -/
def getBitsLoop (rd : Nat → Option Byte) : Nat → Nat → BitstreamState → Except Nat (Nat × BitstreamState)
  | 0, acc, bs => .ok (acc, bs)
  | n + 1, acc, bs =>
    match bs.ensureLoaded rd with
    | .error a => .error a
    | .ok bs' => getBitsLoop rd n ((acc <<< 1) ||| bs'.currentBit) bs'.advance

/-- What `getBits` answers. -/
inductive GetBitsResult where
  /-- A value, and the cursor after its bits. -/
  | value (v : Nat) (bs : BitstreamState)
  /-- The sentinel NOBITS; nothing changes (R113). -/
  | nobits
  /-- InternalError(INT_GETBITS_WIDTH); nothing changes (R204). -/
  | widthError
  /-- A load at an address the queue memory does not have (log 8). -/
  | noAddress (a : Nat)
  deriving DecidableEq, Repr

/-- `getBits(count)` (R110) over a cursor and the queue memory `rd` reads. The width is checked before the availability
(decision D23). -/
def BitstreamState.getBits (bs : BitstreamState) (rd : Nat → Option Byte) (count : Nat) : GetBitsResult :=
  if count < 1 ∨ 15 < count then .widthError
  else if bs.avail < count then .nobits
  else
    match getBitsLoop rd count 0 bs with
    | .ok (v, bs') => .value v bs'
    | .error a => .noAddress a

/-- `GETBITS_UNIT(count, queue, st)` (R178): `getBits` as a pure function over an explicit byte sequence. -/
def getBitsUnit (count : Nat) (queue : List Byte) (st : BitstreamState) : GetBitsResult :=
  st.getBits (fun a => queue[a]?) count

/-- `MemRead(INQ, a, 1)`, for 0 ≤ a < Q (R9). -/
def Block.inqByte (b : Block) (a : Nat) : Option Byte :=
  if a < b.cfgQ then some (b.inq.read a) else none

/-- `getBits(count)` on the block's own queue and cursor (R110). -/
def Block.getBits (b : Block) (count : Nat) : GetBitsResult := b.bs.getBits b.inqByte count

/-- The bitstream registers take new values, as `getBits` leaves them (R112). -/
def Block.setCursor (b : Block) (bs : BitstreamState) : Block := { b with bs := bs }

/-- The unread bytes of the queue, `INQ[BS_READINDEX .. BS_SIZE − 1]` (R24). -/
def Block.unread (b : Block) : List Byte :=
  (List.range (b.bs.size - b.bs.readIndex)).map fun i => b.inq.read (b.bs.readIndex + i)

/-- The bits not yet consumed, next first: what is left of `BS_CURBYTE`, then the unread bytes (R22, R60, R61). -/
def Block.stream (b : Block) : List Bool :=
  bitsOfNat (bitsLeft b.bs.bitMask) b.bs.currentByte.toNat ++ bytesBits b.unread

/-- The queue memory's part of SINK (R171): write at `BS_SIZE` and count the bytes in. -/
def Block.enqueue (b : Block) (bytes : List Byte) : Block :=
  { b with inq := b.inq.writeBytes b.bs.size bytes,
           bs := { b.bs with size := b.bs.size + bytes.length } }

/-! ### The SlidingWindowBuffer (41) -/

/-- `store(b)` over an explicit window and head of capacity `n` (R130, R178): the new window and the new head. -/
def storeUnit (n : Nat) (win : Memory) (head : Nat) (v : Byte) : Memory × Nat :=
  (win.write head v, (head + 1) % n)

/-- `read(d)` over an explicit window and head of capacity `n` (R131, R178); the remainder is never negative (R8). -/
def readUnit (n : Nat) (win : Memory) (head : Nat) (d : Nat) : Byte :=
  win.read (((head : Int) - d) % n).toNat

/-- `store(b)` on the block (R130). -/
def Block.store (b : Block) (v : Byte) : Block :=
  let r := storeUnit b.N b.win b.head v
  { b with win := r.1, headReg := BitVec.ofNat 15 r.2 }

/-- `read(d)` on the block (R131). -/
def Block.winRead (b : Block) (d : Nat) : Byte := readUnit b.N b.win b.head d

/-! ### The OutputSink (R31, R184) -/

/-- `Emit(v)`: append to `OUT`; a full sink first doubles its capacity (R184). -/
def Block.emit (b : Block) (v : Byte) : Block :=
  { b with out := b.out ++ [v],
           outCap := if b.out.length = b.outCap then 2 * b.outCap else b.outCap }

/-- `Emit(v); store(v)`, which always go together (R142, R147). -/
def Block.emitStore (b : Block) (v : Byte) : Block := (b.emit v).store v

/-- The loop of YieldBackref (R147): each iteration reads, emits and stores before the next reads (R69, R240). -/
def Block.copyRun : Nat → Block → Block
  | 0, b => b
  | n + 1, b => Block.copyRun n (b.emitStore (b.winRead b.outIndex.toNat))

/-! ### Error entry, and the return (60) -/

/-- Error entry (R207): the sticky `FAULT` register records the kind and the cause; nothing else changes. -/
def Block.raise (b : Block) (c : Cause) : Block :=
  { b with fault := { valid := true, kind := c.kind, cause := c.code } }

/-- The return (R210): RESET, the only way out of the faulted state. The configuration registers stay, everything else
takes its value of R39 (R176, R230). -/
def Block.reinit (b : Block) : Block := Block.init b.cfgW b.cfgL b.cfgQ

/-! ### Answering the host -/

/-- A call needs a block (R231). -/
def State.withBlock (s : State) (f : Block → StepOutcome) : StepOutcome :=
  match s.block with
  | none => .refused .noBlock
  | some b => f b

/-- A call that the faulted state refuses: `refused(Faulted)`, and nothing is performed (R207, R209). -/
def State.withLiveBlock (s : State) (f : Block → StepOutcome) : StepOutcome :=
  s.withBlock fun b => if b.fault.valid then .next { s with reply := some .refusedFaulted } else f b

/-- A call ends: the block it leaves and the outcome it tells the host (R177). -/
def State.answer (s : State) (b : Block) (r : CallOutcome) : StepOutcome :=
  .next { s with block := some b, reply := some r }

end Sys2Proof.Machine
end

