-- ==== Sys2Proof/Machine/Flags.lean ====
section
/-! DEFINITION. The block has no condition codes (R36). It has three status signals, computed here: progress, finished and
faulted. -/

namespace Sys2Proof.Machine

/-- progress (R36, R148): the step changed `STATE`. -/
def progress (before after : Block) : Bool := decide (before.state ≠ after.state)

/-- finished (R36, R174): `BS_SIZE − BS_READINDEX = 0`; bits left in `BS_CURBYTE` do not count (D12). -/
def Block.finished (b : Block) : Bool := decide (b.bs.unreadCount = 0)

/-- faulted (R36): the bit `FAULT.VALID`. -/
def Block.faulted (b : Block) : Bool := b.fault.valid

end Sys2Proof.Machine
end

