-- ==== Sys2Proof/Machine/Operands.lean ====
section
/-! DEFINITION. The operand forms: the chunks a unit is read in (R83), how the index and the count are assembled (R84), and
the checks NEW makes on its operands (R170). -/

namespace Sys2Proof.Machine

/-- `W_LSB` or `L_LSB` (R6): the width of a field's LSB chunk, which is the whole field when it has at most 8 bits. -/
def lsbWidth (n : Nat) : Nat := min n 8

/-- `W_MSB` or `L_MSB` (R6): the width of a field's MSB chunk, 0 where the field has none. -/
def msbWidth (n : Nat) : Nat := n - 8

/-- A chunk of a unit: its width and its value (R10, R83). -/
structure Chunk where
  width : Nat
  value : Nat
  deriving DecidableEq, Repr

/-- The MSB/LSB split of an `n`-bit field (R83): one chunk, or the MSB chunk and then the LSB chunk. -/
def fieldChunks (n v : Nat) : List Chunk :=
  if n > 8 then [⟨msbWidth n, v >>> 8⟩, ⟨8, v % 2 ^ 8⟩] else [⟨n, v⟩]

/-- LIT is read as tag 1 then eight bits (R83). -/
def litChunks (v : Byte) : List Chunk := [⟨1, 1⟩, ⟨8, v.toNat⟩]

/-- BREF is read as tag 0, the index chunks and the count chunks (R83). -/
def brefChunks (W L : Nat) (idx cnt : Half) : List Chunk :=
  ⟨1, 0⟩ :: (fieldChunks W idx.toNat ++ fieldChunks L cnt.toNat)

/-- An accumulator after an MSB chunk: `msb << 8` (R84). -/
def accumulateMsb (m : Nat) : Half := BitVec.ofNat 16 m <<< 8

/-- An accumulator after an LSB chunk: `|= lsb`, then `+= 1`, which makes the number 1-based (R84). -/
def accumulateLsb (acc : Half) (l : Nat) : Half := (acc ||| BitVec.ofNat 16 l) + 1

/-- The checks of NEW in their order; the first that fails is the cause (R170, R209). -/
def newCause (w l q : Int) : Option Cause :=
  if l ≥ w then some .cfgLookaheadNotSmaller
  else if l ≤ 0 ∨ w ≤ 0 ∨ q ≤ 0 then some .cfgNotPositive
  else if w < 4 ∨ w > 15 then some .cfgWindowRange
  else none

/-- The block NEW builds from checked operands (R170, R39). -/
def newBlock (w l q : Int) : Block := Block.init (BitVec.ofInt 4 w) (BitVec.ofInt 4 l) q.toNat

end Sys2Proof.Machine
end

