-- ==== Sys2Proof/Machine/Fsm.lean ====
section
/-! DEFINITION. The DecoderStateMachine (42): one definition per state, in two parts (what the step reads, and what it does
with what it read), the step, and the drive loop `poll`. -/

namespace Sys2Proof.Machine

/-- What one step of the state machine answers. -/
inductive FsmResult where
  /-- The step ran; the drive loop compares `STATE` before and after (R149). -/
  | ran (b : Block)
  /-- The step raised; no register or memory changed (R207). -/
  | raised (c : Cause)
  /-- A queue load at an address `INQ` does not have (log 8). -/
  | noAddress (a : Nat)
  deriving DecidableEq, Repr

/-- What a run of steps answers. -/
inductive DriveResult where
  /-- It stopped without an error. -/
  | ok (b : Block)
  /-- A step raised; `FAULT` is set in the block (R207). -/
  | raised (b : Block) (c : Cause)
  | noAddress (a : Nat)
  deriving DecidableEq, Repr

/-- Read a chunk of `count` bits and go on with its value; on NOBITS the step returns and nothing has changed (R141 to
R146, R113). -/
def Block.readChunk (b : Block) (count : Nat) (k : Nat → Block → Block) : FsmResult :=
  match b.getBits count with
  | .value v bs => .ran (k v (b.setCursor bs))
  | .nobits => .ran b
  | .widthError => .raised .intGetbitsWidth
  | .noAddress a => .noAddress a

/-! ### What each state does with the chunk it read -/

/-- TagBit, the tag read (R141). -/
def Block.afterTag (t : Nat) (b : Block) : Block :=
  if t = 1 then { b with state := .yieldLiteral }
  else if b.W > 8 then { b with state := .backrefIndexMsb }
  else { b with outIndex := 0, state := .backrefIndexLsb }

/-- YieldLiteral, the byte read (R142). -/
def Block.afterLiteral (v : Nat) (b : Block) : Block :=
  { b.emitStore (BitVec.ofNat 8 v) with state := .tagBit }

/-- BackrefIndexMSB, the chunk read (R143). -/
def Block.afterIndexMsb (m : Nat) (b : Block) : Block :=
  { b with outIndex := accumulateMsb m, state := .backrefIndexLsb }

/-- BackrefIndexLSB, the chunk read (R144). -/
def Block.afterIndexLsb (l : Nat) (b : Block) : Block :=
  { b with outIndex := accumulateLsb b.outIndex l, outCount := 0,
           state := if b.L > 8 then .backrefCountMsb else .backrefCountLsb }

/-- BackrefCountMSB, the chunk read (R145). -/
def Block.afterCountMsb (m : Nat) (b : Block) : Block :=
  { b with outCount := accumulateMsb m, state := .backrefCountLsb }

/-- BackrefCountLSB, the chunk read (R146). -/
def Block.afterCountLsb (l : Nat) (b : Block) : Block :=
  { b with outCount := accumulateLsb b.outCount l, state := .yieldBackref }

/-! ### The seven transitions, and code 7 -/

/-- TagBit (R141). -/
def Block.stepTagBit (b : Block) : FsmResult := b.readChunk 1 Block.afterTag

/-- YieldLiteral (R142). -/
def Block.stepYieldLiteral (b : Block) : FsmResult := b.readChunk 8 Block.afterLiteral

/-- BackrefIndexMSB (R143); the internal check precedes the read (D26). -/
def Block.stepBackrefIndexMsb (b : Block) : FsmResult :=
  if b.W ≤ 8 then .raised .intIndexMsbState else b.readChunk (msbWidth b.W) Block.afterIndexMsb

/-- BackrefIndexLSB (R144). -/
def Block.stepBackrefIndexLsb (b : Block) : FsmResult := b.readChunk (lsbWidth b.W) Block.afterIndexLsb

/-- BackrefCountMSB (R145); the internal check precedes the read (D26). -/
def Block.stepBackrefCountMsb (b : Block) : FsmResult :=
  if b.L ≤ 8 then .raised .intCountMsbState else b.readChunk (msbWidth b.L) Block.afterCountMsb

/-- BackrefCountLSB (R146). -/
def Block.stepBackrefCountLsb (b : Block) : FsmResult := b.readChunk (lsbWidth b.L) Block.afterCountLsb

/-- YieldBackref (R147): the offset is checked before the count (D9), both before anything is emitted. -/
def Block.stepYieldBackref (b : Block) : FsmResult :=
  if b.outIndex.toNat > b.N then .raised .corruptOffset
  else if b.outCount.toNat > b.N then .raised .corruptCount
  else .ran { b.copyRun b.outCount.toNat with state := .tagBit }

/-- One step: the transition of the current `STATE` (R140). -/
def Block.fsmStep (b : Block) : FsmResult :=
  match b.state with
  | .tagBit => b.stepTagBit
  | .yieldLiteral => b.stepYieldLiteral
  | .backrefIndexMsb => b.stepBackrefIndexMsb
  | .backrefIndexLsb => b.stepBackrefIndexLsb
  | .backrefCountMsb => b.stepBackrefCountMsb
  | .backrefCountLsb => b.stepBackrefCountLsb
  | .yieldBackref => b.stepYieldBackref
  | .code7 => .raised .intBadState

/-- How many bits the step in this state asks for (R23, R150). -/
def Block.chunkWidth (b : Block) : Nat :=
  match b.state with
  | .tagBit => 1
  | .yieldLiteral => 8
  | .backrefIndexMsb => msbWidth b.W
  | .backrefIndexLsb => lsbWidth b.W
  | .backrefCountMsb => msbWidth b.L
  | .backrefCountLsb => lsbWidth b.L
  | .yieldBackref => 0
  | .code7 => 0

/-! ### The drive loop -/

/-- The loop of R149, at most `fuel` steps: it ends at the first step that leaves `STATE` as it was. -/
def Block.driveLoop : Nat → Block → DriveResult
  | 0, b => .ok b
  | fuel + 1, b =>
    match b.fsmStep with
    | .ran b' => if progress b b' then Block.driveLoop fuel b' else .ok b'
    | .raised c => .raised (b.raise c) c
    | .noAddress a => .noAddress a

/-- `poll()` (R149). A poll makes at most 2A + 1 progressing steps and one more, where A is AVAIL at its start (R151), so
this fuel never runs out. -/
def Block.poll (b : Block) : DriveResult := b.driveLoop (2 * b.bs.avail.toNat + 2)

/-- Run the state machine to the end of the unit in progress, or until it parks (R149): at most `fuel` steps. A unit takes at most
six (R83). -/
def Block.finishUnit : Nat → Block → DriveResult
  | 0, b => .ok b
  | fuel + 1, b =>
    match b.fsmStep with
    | .ran b' => if progress b b' && b'.state != .tagBit then Block.finishUnit fuel b' else .ok b'
    | .raised c => .raised (b.raise c) c
    | .noAddress a => .noAddress a

/-- What the host is told of a run of steps that ends its call with `r` (R172, R207). -/
def State.conclude (s : State) (d : DriveResult) (r : CallResult) : StepOutcome :=
  match d with
  | .ok b => s.answer b (.ok r)
  | .raised b c => s.answer b c.outcome
  | .noAddress a => .fault (.inqAddress a)

/-- A unit ran: it is no call, so the host's last outcome stays unless the unit raised (R177, R207). -/
def State.concludeUnit (s : State) (d : DriveResult) : StepOutcome :=
  match d with
  | .ok b => .next { s with block := some b }
  | .raised b c => s.answer b c.outcome
  | .noAddress a => .fault (.inqAddress a)

end Sys2Proof.Machine
end

