-- ==== Sys2Proof/Machine/Transactions.lean ====
section
/-! DEFINITION. The seven host transactions (43). -/

namespace Sys2Proof.Machine

/-- SINK on the block (R171, D22): the longest front part of `bytes` that fits in `Q − BS_SIZE` is appended; the number of
bytes not accepted comes back. With `BS_SIZE` > Q, which no run reaches, nothing is accepted (log 17). -/
def Block.sink (b : Block) (bytes : List Byte) : Block × Nat :=
  let k := min (b.cfgQ - b.bs.size) bytes.length
  (b.enqueue (bytes.take k), bytes.length - k)

/-- What the loop of PROCESS answers. -/
inductive ProcessResult where
  | drive (d : DriveResult)
  /-- The rounds run out, which happens only if the loop never ends (log 9). -/
  | neverEnds
  deriving DecidableEq, Repr

/-- The loop of PROCESS (R173, D11), at most `fuel` rounds: SINK the rest, POLL, stop after the POLL that follows the SINK
accepting all of it. An error of POLL ends it and drops the rest (D25). -/
def Block.processLoop : Nat → List Byte → Block → ProcessResult
  | 0, _, _ => .neverEnds
  | fuel + 1, rest, b =>
    match (b.sink rest).1.poll with
    | .ok b' =>
      if (b.sink rest).2 = 0 then .drive (.ok b')
      else Block.processLoop fuel (rest.drop (rest.length - (b.sink rest).2)) b'
    | .raised b' c => .drive (.raised b' c)
    | .noAddress a => .drive (.noAddress a)

/-- PROCESS on the block. Every round but the first accepts a byte, or the loop never ends; so `|bytes| + 1` rounds are
enough (R173). -/
def Block.process (b : Block) (bytes : List Byte) : ProcessResult := b.processLoop (bytes.length + 1) bytes

/-- NEW (R170). A failed NEW creates no block, and the block the machine already has, another object, is not touched
(D24, R41, log 14). -/
def execNew (w l q : Int) (s : State) : StepOutcome :=
  match newCause w l q with
  | some c => .next { s with reply := some c.outcome }
  | none => s.answer (newBlock w l q) (.ok .newBlock)

/-- SINK (R171). -/
def execSink (bytes : List Byte) (s : State) : StepOutcome :=
  s.withLiveBlock fun b => s.answer (b.sink bytes).1 (.ok (.notAccepted (b.sink bytes).2))

/-- POLL (R172). -/
def execPoll (s : State) : StepOutcome := s.withLiveBlock fun b => s.conclude b.poll .nothing

/-- PROCESS (R173). -/
def execProcess (bytes : List Byte) (s : State) : StepOutcome :=
  s.withLiveBlock fun b =>
    match b.process bytes with
    | .drive d => s.conclude d .nothing
    | .neverEnds => .fault .processNeverEnds

/-- IS_FINISHED (R174). -/
def execIsFinished (s : State) : StepOutcome := s.withLiveBlock fun b => s.answer b (.ok (.finished b.finished))

/-- GET_OUTPUT (R175): a copy of the output, and `OUT_SIZE <- 0`. -/
def execGetOutput (s : State) : StepOutcome :=
  s.withLiveBlock fun b => s.answer { b with out := [] } (.ok (.bytes b.out))

/-- RESET (R176), accepted in the faulted state too. -/
def execReset (s : State) : StepOutcome := s.withBlock fun b => s.answer b.reinit (.ok .nothing)

end Sys2Proof.Machine
end

