-- ==== Sys2Proof/Machine/UnitLevel.lean ====
section
/-! DEFINITION. The three internal operations, opened at unit level (D18, R178). They are no host transactions, so the
faulted state does not refuse them (R207, log 15). -/

namespace Sys2Proof.Machine

/-- GETBITS (R110). At unit level the width error is the call's outcome and changes no state (R204). -/
def execGetBits (count : Nat) (s : State) : StepOutcome :=
  s.withBlock fun b =>
    match b.getBits count with
    | .value v bs => s.answer (b.setCursor bs) (.ok (.value v))
    | .nobits => s.answer b (.ok .nobits)
    | .widthError => s.answer b Cause.intGetbitsWidth.outcome
    | .noAddress a => .fault (.inqAddress a)

/-- WIN_STORE (R130). -/
def execWinStore (v : Byte) (s : State) : StepOutcome := s.withBlock fun b => s.answer (b.store v) (.ok .nothing)

/-- WIN_READ (R131). -/
def execWinRead (d : Nat) (s : State) : StepOutcome := s.withBlock fun b => s.answer b (.ok (.byte (b.winRead d)))

end Sys2Proof.Machine
end

