-- ==== Sys2Proof/Machine/Units.lean ====
section
/-! DEFINITION. The two units of the stream, LIT (R155) and BREF (R156): the unit's chunks are consumed one by one and each is
handed to the state it belongs to, as the state machine does with the same bits. -/

namespace Sys2Proof.Machine

/-- What the current state does with the chunk it asked for (R141 to R146). -/
def Block.afterChunk (b : Block) (v : Nat) : Block :=
  match b.state with
  | .tagBit => b.afterTag v
  | .yieldLiteral => b.afterLiteral v
  | .backrefIndexMsb => b.afterIndexMsb v
  | .backrefIndexLsb => b.afterIndexLsb v
  | .backrefCountMsb => b.afterCountMsb v
  | .backrefCountLsb => b.afterCountLsb v
  | .yieldBackref => b
  | .code7 => b

/-- The chunks a unit is read in (R83); an instruction that is no unit has none. -/
def unitChunks (W L : Nat) : Instr → List Chunk
  | .lit v => litChunks v
  | .bref idx cnt => brefChunks W L idx cnt
  | .new _ _ _ => []
  | .sink _ => []
  | .poll => []
  | .process _ => []
  | .isFinished => []
  | .getOutput => []
  | .reset => []
  | .getBits _ => []
  | .winStore _ => []
  | .winRead _ => []

/-- The bits of a chunk sequence, in stream order (R83). -/
def chunkBits (cs : List Chunk) : List Bool := cs.flatMap fun c => bitsOfNat c.width c.value

/-- How many bits a chunk sequence takes. -/
def chunkSum (cs : List Chunk) : Nat := (cs.map Chunk.width).sum

/-- The block after each chunk of a sequence has been handed to the state it belongs to; the cursor is not moved. -/
def Block.afterChunks (b : Block) (cs : List Chunk) : Block := cs.foldl (fun b c => b.afterChunk c.value) b

/-- The copy step that ends a BREF (R156); a LIT has ended in TagBit and needs none. -/
def Block.endUnit (b : Block) : DriveResult :=
  if b.state = .yieldBackref then
    match b.stepYieldBackref with
    | .ran b' => .ok b'
    | .raised c => .raised (b.raise c) c
    | .noAddress a => .noAddress a
  else .ok b

/-- Run a unit given by its chunks: each chunk's bits are consumed from the stream (R112) and its value is taken from the
decoded unit (log 12). Where the bits run out the block parks in the state it has reached (R153). -/
def Block.runChunks : List Chunk → Block → DriveResult
  | [], b => b.endUnit
  | c :: cs, b =>
    match b.getBits c.width with
    | .value _ bs => Block.runChunks cs ((b.setCursor bs).afterChunk c.value)
    | .nobits => .ok b
    | .widthError => .raised (b.raise .intGetbitsWidth) .intGetbitsWidth
    | .noAddress a => .noAddress a

/-- A unit runs on a block that is not faulted (R140) and stands in TagBit (R155, R156). -/
def State.runUnit (s : State) (chunks : Block → List Chunk) : StepOutcome :=
  s.withLiveBlock fun b =>
    if b.state = .tagBit then s.concludeUnit (b.runChunks (chunks b)) else .refused .unitInProgress

/-- LIT (R155). -/
def execLit (v : Byte) (s : State) : StepOutcome := s.runUnit fun _ => litChunks v

/-- BREF (R156). -/
def execBref (idx cnt : Half) (s : State) : StepOutcome := s.runUnit fun b => brefChunks b.W b.L idx cnt

end Sys2Proof.Machine
end

