-- ==== Sys2Proof/Machine/Dispatch.lean ====
section
/-! DEFINITION. The meaning of every instruction: one arm per row of spec/opcode_table.json. -/

namespace Sys2Proof.Machine

def exec (i : Instr) (s : State) : Host.Outcome State Fault Refusal :=
  match i with
  | .lit v => Sys2Proof.Machine.execLit v s
  | .bref idx cnt => Sys2Proof.Machine.execBref idx cnt s
  | .new w l q => Sys2Proof.Machine.execNew w l q s
  | .sink bytes => Sys2Proof.Machine.execSink bytes s
  | .poll => Sys2Proof.Machine.execPoll s
  | .process bytes => Sys2Proof.Machine.execProcess bytes s
  | .isFinished => Sys2Proof.Machine.execIsFinished s
  | .getOutput => Sys2Proof.Machine.execGetOutput s
  | .reset => Sys2Proof.Machine.execReset s
  | .getBits count => Sys2Proof.Machine.execGetBits count s
  | .winStore v => Sys2Proof.Machine.execWinStore v s
  | .winRead d => Sys2Proof.Machine.execWinRead d s

end Sys2Proof.Machine
end

