-- ==== Sys2Proof/Machine/Fetch.lean ====
section
/-! DEFINITION. Fetching a unit from the bitstream. The block has no program counter (R22): the next unit starts at the bit
cursor, when `STATE` is TagBit. -/

namespace Sys2Proof.Machine

/-- The whole unit at the cursor, if the block stands in TagBit and the unit is all there (R22, R86). -/
def Block.fetch (b : Block) : Option Instr :=
  if b.state = .tagBit then
    match decode b.W b.L b.stream with
    | .ok (i, _) => some i
    | .error _ => none
  else none

/-- No whole unit is at the cursor: the state machine goes on with the unit in progress, to its end or until it parks (R149,
R153). On a faulted block no step runs (R140, R207). -/
def State.driveRest (s : State) : StepOutcome :=
  s.withLiveBlock fun b => s.concludeUnit (b.finishUnit 6)

/-- The block that a program is placed in: the machine's own, or a new one where none exists. -/
def State.blockOrNew (s : State) : Block :=
  s.block.getD (Block.init Config.resetW Config.resetL Config.resetQ)

/-- The block with these bytes as its queue and the cursor before the first bit of the first, ready for a step. -/
def Block.placeBytes (b : Block) (bytes : List Byte) : Block :=
  { b with
    state := .tagBit
    cfgQ := max b.cfgQ bytes.length
    inq := b.inq.writeBytes 0 bytes
    bs := { b.bs with size := bytes.length, readIndex := 0, bitMask := 0x00 }
    fault := { b.fault with valid := false } }

end Sys2Proof.Machine
end

