-- ==== Sys2Proof/Machine/Step.lean ====
section
/-! DEFINITION. One step of the machine: the host's next action is performed. -/

namespace Sys2Proof.Machine

/-- The drive loop goes through one unit (log 5): the unit at the cursor is fetched, decoded and run; where no whole unit
is there, the state machine goes on as far as the bits allow. -/
def State.driveUnit (s : State) : Host.Outcome State Fault Refusal :=
  match s.block.bind Block.fetch with
  | some i => exec i s
  | none => s.driveRest

/-- The host's next action. With none to come the block waits, all its state kept (R211, R219). -/
def step (s : State) : Host.Outcome State Fault Refusal :=
  match s.script with
  | [] => .next s
  | .call i :: rest => if i.isUnit then .refused .unitIsNoCall else exec i { s with script := rest }
  | .drive :: rest => State.driveUnit { s with script := rest }

/-- `s` with the unit of a table word placed where the next step fetches it: its bytes are the queue, the cursor stands
before their first bit in TagBit, the block is not faulted, and the host's next action drives one unit (log 5). -/
def State.withFetchWord (s : State) (nbits w : Nat) : State :=
  { s with block := some (s.blockOrNew.placeBytes (tableBytes nbits w)),
           script := .drive :: s.script }

end Sys2Proof.Machine
end

