-- ==== Sys2Proof/Safety.lean ====
section
/-! DEFINITION. What counts as a good state: the invariants of R40 with the ranges of R5 and R35, and the facts about the
accumulators inside a unit that they rest on. -/

namespace Sys2Proof.Machine

/-- The legal masks (R26, R40 I3). -/
def legalMasks : List Byte := [0x00, 0x01, 0x02, 0x04, 0x08, 0x10, 0x20, 0x40, 0x80]

/-- What an accumulator holds between its MSB chunk and its LSB chunk, for an `n`-bit field (R144, R146): zero when the
field has one chunk, else `msb << 8`. -/
abbrev awaitsLsb (n : Nat) (acc : Half) : Prop :=
  if n > 8 then acc.toNat % 256 = 0 ∧ acc.toNat < 2 ^ n else acc = 0

/-- The invariants of a block between transactions (R40), every one but I10, which holds only right after POLL. -/
structure Block.Inv (b : Block) : Prop where
  /-- The parameters are legal (R5). -/
  config : LegalConfig b.W b.L b.cfgQ
  /-- I1. -/
  readIndex_le : b.bs.readIndex ≤ b.bs.size
  /-- I1. -/
  size_le : b.bs.size ≤ b.cfgQ
  /-- I2. -/
  drained : b.bs.readIndex = b.bs.size → b.bs.size = 0
  /-- I3. -/
  mask : b.bs.bitMask ∈ legalMasks
  /-- I4. -/
  state : b.state ≠ .code7
  /-- I5. -/
  indexMsb : b.state = .backrefIndexMsb → 8 < b.W
  /-- I6. -/
  countMsb : b.state = .backrefCountMsb → 8 < b.L
  /-- I7. -/
  head : b.headReg.toNat < b.N
  /-- R144: `OUT_INDEX` on entry to BackrefIndexLSB. -/
  indexLsb : b.state = .backrefIndexLsb → awaitsLsb b.W b.outIndex
  /-- I8. -/
  index : b.state = .backrefCountMsb ∨ b.state = .backrefCountLsb ∨ b.state = .yieldBackref →
    1 ≤ b.outIndex.toNat ∧ b.outIndex.toNat ≤ b.N
  /-- R146: `OUT_COUNT` on entry to BackrefCountLSB. -/
  countLsb : b.state = .backrefCountLsb → awaitsLsb b.L b.outCount
  /-- I9. -/
  count : b.state = .yieldBackref → 1 ≤ b.outCount.toNat ∧ b.outCount.toNat ≤ 2 ^ b.L
  /-- `WIN` is canonical and holds N bytes (R33). -/
  win : b.win.wf ∧ b.win.inRange b.N
  /-- `INQ` is canonical and holds Q bytes (R32). -/
  inq : b.inq.wf ∧ b.inq.inRange b.cfgQ
  /-- The OutputSink's storage holds its content (R184). -/
  sink : 1 ≤ b.outCap ∧ b.out.length ≤ b.outCap

/-- A good block: the invariants hold and no error has been raised (R206). -/
structure Block.Good (b : Block) : Prop where
  inv : b.Inv
  live : b.fault.valid = false

/-- A good state: its block, if it has one, is good. -/
def State.Good (s : State) : Prop := ∀ b, s.block = some b → b.Good

/-- Two blocks that agree in everything but the bytes of the queue memory (R154): the bytes at `BS_SIZE` and above are
stale and are never read (R32). -/
structure Block.SameButQueueBytes (a b : Block) : Prop where
  cfgW : a.cfgW = b.cfgW
  cfgL : a.cfgL = b.cfgL
  cfgQ : a.cfgQ = b.cfgQ
  state : a.state = b.state
  bs : a.bs = b.bs
  outIndex : a.outIndex = b.outIndex
  outCount : a.outCount = b.outCount
  head : a.headReg = b.headReg
  win : a.win = b.win
  out : a.out = b.out
  outCap : a.outCap = b.outCap
  fault : a.fault = b.fault

/-- One progressing step of the state machine (R10, R148). -/
def Block.Progresses (b c : Block) : Prop := b.fsmStep = .ran c ∧ progress b c = true

/-- The facts of a parked block (R152 a, b, c). -/
structure Block.Parked (c : Block) : Prop where
  reads : c.state ≠ .yieldBackref
  short : c.bs.avail < c.chunkWidth
  few : c.bs.avail ≤ 7
  size : c.bs.size = 0
  readIndex : c.bs.readIndex = 0
  finished : c.finished = true

/-- `OUT_CAP` after `n` emissions, from `OUT_SIZE` and `OUT_CAP` before them: it doubles whenever the sink is full (R184). -/
def capAfter : Nat → Nat → Nat → Nat
  | 0, _, cap => cap
  | n + 1, size, cap => capAfter n (size + 1) (if size = cap then 2 * cap else cap)

/-- Between `b` and `c` the bytes `o` were emitted, and every one was stored, in the same order (R69, R132, R142): the j-th
at address `(HEAD + j) mod N`, and nowhere else. -/
structure Block.Emitted (b c : Block) (o : List Byte) : Prop where
  out : c.out = b.out ++ o
  cap : c.outCap = capAfter o.length b.outSize b.outCap
  head : c.head = (b.head + o.length) % b.N
  recent : ∀ d, 1 ≤ d → d ≤ b.N →
    c.winRead d = if d ≤ o.length then o.getD (o.length - d) 0 else b.winRead (d - o.length)
  frame : ∀ a, (∀ j, j < o.length → a ≠ (b.head + j) % b.N) → c.win.read a = b.win.read a

/-- The run of a backreference with distance `d` over the history of `b` (R157): the d-th most recent byte first, then
the run's own bytes again with period `d`. -/
def Block.IsRun (b : Block) (d : Nat) (o : List Byte) : Prop :=
  ∀ j, 1 ≤ j → j ≤ o.length →
    o.getD (j - 1) 0 = if j ≤ d then b.winRead (d - j + 1) else o.getD (j - d - 1) 0

end Sys2Proof.Machine
end

