-- ==== Sys2Proof/Certificates/Slice0/Obligations.lean ====
section
/-! DEFINITION. The statements for the provers, one definition each. Each says which rule of spec/ it formalises. A
statement about the block `b` of a state says what happens to every register and memory of the block: the record update
names the fields that change, and every other field is the old one. -/

open Sys2Proof Sys2Proof.Machine

namespace Sys2Proof.Certificates

/-- The bytes a run of stores leaves behind: `vs` stored one after another (R132). -/
def storeAll (b : Block) (vs : List Byte) : Block := vs.foldl Block.store b

/-- The values of R39 after construction or RESET, the configuration aside. -/
structure Fresh (c : Block) : Prop where
  state : c.state = .tagBit ∧ DecoderState.code c.state = 0
  size : c.bs.size = 0
  readIndex : c.bs.readIndex = 0
  curByte : c.bs.currentByte = 0x00
  bitMask : c.bs.bitMask = 0x00
  outIndex : c.outIndex = 0
  outCount : c.outCount = 0
  head : c.head = 0
  win : ∀ a, c.win.read a = 0x00
  inq : ∀ a, c.inq.read a = 0x00
  outSize : c.outSize = 0 ∧ c.out = []
  outCap : c.outCap = Config.outInitCap ∧ 1 ≤ c.outCap
  fault : c.fault.valid = false

/-- What a host feeds a block with (R154): SINK, POLL and PROCESS calls. -/
inductive Feed where
  | sink (bytes : List Byte)
  | poll
  | process (bytes : List Byte)
  deriving DecidableEq, Repr

/-- The call of a feed. -/
def Feed.call : Feed → Instr
  | .sink bytes => .sink bytes
  | .poll => .poll
  | .process bytes => .process bytes

/-- How many bytes the answer to a feed says were accepted: all of a PROCESS, and what SINK does not return. -/
def Feed.accepted (f : Feed) (r : Option CallOutcome) : List Byte :=
  match f, r with
  | .sink bytes, some (.ok (.notAccepted n)) => bytes.take (bytes.length - n)
  | .process bytes, some (.ok .nothing) => bytes
  | _, _ => []

/-- Run the feeds in order: the state they leave and the bytes accepted on the way; none if a call is not answered. -/
def runFeeds : List Feed → State → Option (State × List Byte)
  | [], s => some (s, [])
  | f :: fs, s =>
    match exec f.call s with
    | .next t => (runFeeds fs t).map fun p => (p.1, f.accepted t.reply ++ p.2)
    | .fault _ => none
    | .refused _ => none

/-- `k` rounds of SINK of what is left, then POLL (R179): what is left then, and the state. -/
def sinkRounds : Nat → List Byte → State → Option (List Byte × State)
  | 0, rest, s => some (rest, s)
  | k + 1, rest, s =>
    match exec (.sink rest) s with
    | .next t =>
      match t.reply, exec .poll t with
      | some (.ok (.notAccepted n)), .next u => sinkRounds k (rest.drop (rest.length - n)) u
      | _, _ => none
    | .fault _ => none
    | .refused _ => none

end Sys2Proof.Certificates

open Sys2Proof.Certificates

/-! ### The wire format (30) -/

/-- R89, R81, R82: the example encodings of the spec, written out bit by bit, decode to the units they stand for. -/
def Obligations.SpecExampleBitsDecode : Prop :=
  decode 8 4 [true, false, true, true, true, false, true, false, false] = .ok (.lit 0x74, []) ∧
  decode 15 14 [true, false, false, false, false, false, false, false, false] = .ok (.lit 0x00, []) ∧
  decode 8 4 [false, false, false, false, false, false, false, true, false, false, false, true, false]
    = .ok (brefOf 3 3, []) ∧
  decode 8 4 (false :: List.replicate 12 true) = .ok (brefOf 256 16, []) ∧
  decode 12 10 (false :: (List.replicate 12 false ++ [false, true, false, false, true, false, true, false, true, true]))
    = .ok (brefOf 1 300, []) ∧
  decode 4 1 (List.replicate 6 false) = .ok (brefOf 1 1, []) ∧
  decode 15 14 (false :: List.replicate 29 true) = .ok (brefOf 32768 16384, [])

/-- R80, R81, R82, R84: decoding the bits of a well-formed unit, whatever follows them, gives the unit back and leaves
what follows. -/
def Obligations.DecodeOfEncodeIsTheUnit : Prop :=
  ∀ (W L : Nat) (i : Instr), i.isUnit = true → i.wf W L = true →
    ∃ bits, encode W L i = some bits ∧ ∀ rest, decode W L (bits ++ rest) = .ok (i, rest)

/-- R80 to R84: what decodes is a well-formed unit, and the bits it was read from are its encoding. -/
def Obligations.EncodeOfDecodeIsTheBits : Prop :=
  ∀ (W L : Nat) (bits rest : List Bool) (i : Instr), W ≤ 16 → L ≤ 16 → decode W L bits = .ok (i, rest) →
    i.isUnit = true ∧ i.wf W L = true ∧ ∃ e, encode W L i = some e ∧ bits = e ++ rest

/-- R85: the unit length follows from the tag and the configuration alone, and a unit decodes exactly when its bits are
there; a BREF has 6 to 30 bits. -/
def Obligations.UnitLengthFollowsFromTag : Prop :=
  ∀ (W L Q : Nat) (tag : Bool) (more : List Bool), LegalConfig W L Q →
    (∀ i rest, decode W L (tag :: more) = .ok (i, rest) →
      (tag :: more).length = (if tag then 9 else 1 + W + L) + rest.length) ∧
    ((∃ i rest, decode W L (tag :: more) = .ok (i, rest)) ↔ (if tag then 9 else 1 + W + L) ≤ (tag :: more).length) ∧
    6 ≤ 1 + W + L ∧ 1 + W + L ≤ 30

/-- R86: tag 1 selects LIT and tag 0 selects BREF, every value of every field is legal, and every finite bit string is a
sequence of complete units followed by at most one incomplete unit. -/
def Obligations.EveryBitStringIsUnitsAndATail : Prop :=
  ∀ (W L Q : Nat), LegalConfig W L Q →
    (∀ more i rest, decode W L (true :: more) = .ok (i, rest) → ∃ v, i = .lit v) ∧
    (∀ more i rest, decode W L (false :: more) = .ok (i, rest) → ∃ idx cnt, i = .bref idx cnt) ∧
    (∀ v : Byte, ∃ more, decode W L (true :: more) = .ok (.lit v, [])) ∧
    (∀ idx cnt : Half, idx.toNat < 2 ^ W → cnt.toNat < 2 ^ L →
      ∃ more, decode W L (false :: more) = .ok (.bref idx cnt, [])) ∧
    (∀ bits : List Bool, ∃ units tail, (∀ i ∈ units, i.isUnit = true ∧ i.wf W L = true) ∧
      bits = assemble W L units ++ tail ∧ ∃ e, decode W L tail = .error e)

/-- R244 b: p trailing zero bits decode as a BREF of offset 1 and count 1 exactly when 1 + W + L ≤ p, and with p ≤ 7 only
three configurations do. -/
def Obligations.ZeroPaddingDecodesAsBref : Prop :=
  ∀ (W L Q p : Nat), LegalConfig W L Q →
    ((∃ i rest, decode W L (List.replicate p false) = .ok (i, rest)) ↔ 1 + W + L ≤ p) ∧
    (∀ i rest, decode W L (List.replicate p false) = .ok (i, rest) → i = brefOf 1 1) ∧
    (p ≤ 7 → 1 + W + L ≤ p → (W, L) = (4, 1) ∨ (W, L) = (4, 2) ∨ (W, L) = (5, 1))

/-! ### The BitstreamReader (40) -/

/-- R111, R112: `getBits` gives the next `n` bits of the stream, the first as bit n − 1, consumes exactly them and changes
nothing but the four bitstream registers; a drained queue is compacted. -/
def Obligations.GetBitsTakesTheNextBits : Prop :=
  ∀ (s : State) (b : Block) (n : Nat), s.block = some b → b.Inv → 1 ≤ n → n ≤ 15 → n ≤ b.stream.length →
    ∃ bs : BitstreamState,
      exec (.getBits n) s = .next { s with block := some { b with bs := bs },
                                           reply := some (.ok (.value (natOfBits (b.stream.take n)))) } ∧
      (b.setCursor bs).stream = b.stream.drop n ∧
      (bs.readIndex = bs.size → bs.size = 0 ∧ bs.readIndex = 0)

/-- R113: with too few bits `getBits` returns NOBITS and leaves every register and memory unchanged, and so does the same
call again. -/
def Obligations.GetBitsFailsAtomically : Prop :=
  ∀ (s : State) (b : Block) (n : Nat), s.block = some b → 1 ≤ n → n ≤ 15 → b.bs.avail < n →
    exec (.getBits n) s = .next { s with reply := some (.ok .nobits) } ∧
    exec (.getBits n) { s with reply := some (.ok .nobits) } = .next { s with reply := some (.ok .nobits) }

/-- R204: a width outside 1..15 raises INT_GETBITS_WIDTH, whatever is available, and changes no state. -/
def Obligations.GetBitsWidthIsChecked : Prop :=
  ∀ (s : State) (b : Block) (n : Nat), s.block = some b → n < 1 ∨ n > 15 →
    exec (.getBits n) s = .next { s with reply := some (.error .internalError 0x20) }

/-- R116: the closed form of a successful call, in both cases, register by register; AVAIL decreases by exactly the
count. -/
def Obligations.GetBitsClosedForm : Prop :=
  ∀ (b : Block) (count a r k m u : Nat), b.Inv → a = bitsLeft b.bs.bitMask → r = b.bs.size - b.bs.readIndex →
    1 ≤ count → count ≤ 15 → count ≤ a + 8 * r → k = count - a → m = (k + 7) / 8 → u = k - 8 * (m - 1) →
    (count ≤ a →
      b.getBits count = .value (b.bs.currentByte.toNat % 2 ^ a / 2 ^ (a - count))
        { b.bs with bitMask := b.bs.bitMask >>> count }) ∧
    (count > a →
      b.getBits count = .value
        ((b.bs.currentByte.toNat % 2 ^ a) <<< k ||| natOfBits (bytesBits (b.unread.take m)) >>> (8 - u))
        { size := if b.bs.readIndex + m = b.bs.size then 0 else b.bs.size,
          readIndex := if b.bs.readIndex + m = b.bs.size then 0 else b.bs.readIndex + m,
          currentByte := b.inq.read (b.bs.readIndex + m - 1),
          bitMask := 0x80 >>> u }) ∧
    (∀ v bs, b.getBits count = .value v bs → bs.avail = b.bs.avail - count)

/-- R117: with an empty queue NOBITS is exactly `BS_BITMASK < 1 << (count − 1)`; with an unread byte every count from 1 to
8 succeeds; so the state machine sees NOBITS only when the queue is empty. -/
def Obligations.NoBitsInTermsOfTheQueue : Prop :=
  ∀ (b : Block), b.Inv →
    (b.bs.size = 0 → ∀ n, 1 ≤ n → n ≤ 15 → (b.getBits n = .nobits ↔ b.bs.bitMask.toNat < 1 <<< (n - 1))) ∧
    (b.bs.size ≠ 0 → ∀ n, 1 ≤ n → n ≤ 8 → ∃ v bs, b.getBits n = .value v bs) ∧
    (b.bs.size ≠ 0 → ∀ n, b.getBits n = .nobits → 9 ≤ n ∧ n ≤ 15) ∧
    (b.bs.size ≠ 0 → ∀ c, b.fsmStep = .ran c → progress b c = true)

/-- R178: `GETBITS_UNIT` over a byte sequence that holds the unread bytes computes what `getBits` computes on the block. -/
def Obligations.UnitGetBitsAgreesWithTheBlock : Prop :=
  ∀ (b : Block) (queue : List Byte) (n : Nat), b.Inv →
    (∀ a, b.bs.readIndex ≤ a → a < b.bs.size → queue[a]? = some (b.inq.read a)) →
    getBitsUnit n queue b.bs = b.getBits n

/-! ### The SlidingWindowBuffer (41) -/

/-- R130: `store` writes the byte at `HEAD` and advances `HEAD` modulo N; every other cell, register and memory stays. -/
def Obligations.StoreWritesAtHead : Prop :=
  ∀ (s : State) (b : Block) (v : Byte), s.block = some b → b.Inv →
    ∃ (w : Memory) (h : BitVec 15),
      exec (.winStore v) s = .next { s with block := some { b with win := w, headReg := h },
                                            reply := some (.ok .nothing) } ∧
      h.toNat = (b.head + 1) % b.N ∧
      ∀ a, w.read a = if a = b.head then v else b.win.read a

/-- R131: `read(d)` gives `WIN[(HEAD − d) mod N]` and changes nothing; distance N (and 0) names `WIN[HEAD]`, distance 1
the byte stored last, and d > N aliases to d mod N. -/
def Obligations.ReadIsRelativeToHead : Prop :=
  ∀ (s : State) (b : Block) (d : Nat), s.block = some b → b.Inv →
    exec (.winRead d) s = .next { s with reply := some (.ok (.byte (b.win.read (((b.head : Int) - d) % b.N).toNat))) } ∧
    b.winRead b.N = b.win.read b.head ∧ b.winRead 0 = b.win.read b.head ∧
    b.winRead d = b.winRead (d % b.N) ∧ ∀ v, (b.store v).winRead 1 = v

/-- R132 (its first part): after T ≥ 1 stores since reset, `HEAD` = T mod N, distance d names the d-th last byte stored,
and a distance beyond the stores reads 0x00. -/
def Obligations.WindowHoldsTheLastStores : Prop :=
  ∀ (w l : BitVec 4) (q : Nat) (vs : List Byte), LegalConfig w.toNat l.toNat q → vs ≠ [] →
    (storeAll (Block.init w l q) vs).head = vs.length % 2 ^ w.toNat ∧
    ∀ d, 1 ≤ d → d ≤ 2 ^ w.toNat →
      (storeAll (Block.init w l q) vs).winRead d = if d ≤ vs.length then vs.getD (vs.length - d) 0 else 0x00

/-- R69, R132, R142, R147: whatever a unit, POLL or PROCESS emits is stored in the window in the same order, so `read(d)`
stays the d-th most recent output byte. -/
def Obligations.WindowMirrorsOutput : Prop :=
  ∀ (s t : State) (b c : Block) (i : Instr), s.block = some b → b.Good → i.wf b.W b.L = true →
    (i.isUnit = true ∨ i = .poll ∨ ∃ bytes, i = .process bytes) →
    exec i s = .next t → t.block = some c → ∃ o, Block.Emitted b c o

/-! ### The state machine's steps (42) -/

/-- R141: TagBit reads one bit: 1 goes to YieldLiteral, 0 to BackrefIndexMSB when W > 8 and else to BackrefIndexLSB with
`OUT_INDEX` cleared; with no bit nothing changes. -/
def Obligations.TagBitStep : Prop :=
  ∀ (b : Block), b.Inv → b.state = .tagBit →
    (b.stream = [] → b.fsmStep = .ran b) ∧
    (∀ t rest, b.stream = t :: rest → ∃ bs : BitstreamState, (b.setCursor bs).stream = rest ∧
      b.fsmStep = .ran { b with
        bs := bs
        state := if t then .yieldLiteral else if b.W > 8 then .backrefIndexMsb else .backrefIndexLsb
        outIndex := if t = false ∧ b.W ≤ 8 then 0 else b.outIndex })

/-- R142: YieldLiteral reads eight bits, emits the byte, stores it and goes to TagBit; with fewer bits nothing changes. -/
def Obligations.YieldLiteralStep : Prop :=
  ∀ (b : Block), b.Inv → b.state = .yieldLiteral →
    (b.stream.length < 8 → b.fsmStep = .ran b) ∧
    (8 ≤ b.stream.length → ∃ c, b.fsmStep = .ran c ∧ c.state = .tagBit ∧ c.stream = b.stream.drop 8 ∧
      Block.Emitted b c [BitVec.ofNat 8 (natOfBits (b.stream.take 8))] ∧
      c.win.read b.head = BitVec.ofNat 8 (natOfBits (b.stream.take 8)) ∧
      (∀ a, a ≠ b.head → c.win.read a = b.win.read a) ∧
      c.outIndex = b.outIndex ∧ c.outCount = b.outCount ∧ c.inq = b.inq ∧ c.fault = b.fault ∧
      c.cfgW = b.cfgW ∧ c.cfgL = b.cfgL ∧ c.cfgQ = b.cfgQ)

/-- R143, R144: the index chunks. The MSB chunk sets `OUT_INDEX` to `m << 8`; the LSB chunk ors its value in, adds one and
clears `OUT_COUNT`; with too few bits nothing changes. -/
def Obligations.IndexChunkSteps : Prop :=
  ∀ (b : Block), b.Inv →
    (b.state = .backrefIndexMsb →
      (b.stream.length < b.W - 8 → b.fsmStep = .ran b) ∧
      (b.W - 8 ≤ b.stream.length → ∃ bs : BitstreamState,
        (b.setCursor bs).stream = b.stream.drop (b.W - 8) ∧
        b.fsmStep = .ran { b with
          bs := bs, state := .backrefIndexLsb,
          outIndex := BitVec.ofNat 16 (natOfBits (b.stream.take (b.W - 8)) * 256) })) ∧
    (b.state = .backrefIndexLsb →
      (b.stream.length < min b.W 8 → b.fsmStep = .ran b) ∧
      (min b.W 8 ≤ b.stream.length → ∃ bs : BitstreamState,
        (b.setCursor bs).stream = b.stream.drop (min b.W 8) ∧
        b.fsmStep = .ran { b with
          bs := bs, state := if b.L > 8 then .backrefCountMsb else .backrefCountLsb, outCount := 0,
          outIndex := BitVec.ofNat 16 (b.outIndex.toNat + natOfBits (b.stream.take (min b.W 8)) + 1) }))

/-- R145, R146: the count chunks, assembled in `OUT_COUNT` as the index is in `OUT_INDEX`. -/
def Obligations.CountChunkSteps : Prop :=
  ∀ (b : Block), b.Inv →
    (b.state = .backrefCountMsb →
      (b.stream.length < b.L - 8 → b.fsmStep = .ran b) ∧
      (b.L - 8 ≤ b.stream.length → ∃ bs : BitstreamState,
        (b.setCursor bs).stream = b.stream.drop (b.L - 8) ∧
        b.fsmStep = .ran { b with
          bs := bs, state := .backrefCountLsb,
          outCount := BitVec.ofNat 16 (natOfBits (b.stream.take (b.L - 8)) * 256) })) ∧
    (b.state = .backrefCountLsb →
      (b.stream.length < min b.L 8 → b.fsmStep = .ran b) ∧
      (min b.L 8 ≤ b.stream.length → ∃ bs : BitstreamState,
        (b.setCursor bs).stream = b.stream.drop (min b.L 8) ∧
        b.fsmStep = .ran { b with
          bs := bs, state := .yieldBackref,
          outCount := BitVec.ofNat 16 (b.outCount.toNat + natOfBits (b.stream.take (min b.L 8)) + 1) }))

/-- R147, R157: YieldBackref copies `OUT_COUNT` bytes from distance `OUT_INDEX`, each emitted and stored before the next is
read, reads no bit and goes to TagBit. -/
def Obligations.YieldBackrefStep : Prop :=
  ∀ (b : Block), b.Inv → b.state = .yieldBackref →
    ∃ c o, b.fsmStep = .ran c ∧ c.state = .tagBit ∧ o.length = b.outCount.toNat ∧ Block.Emitted b c o ∧
      Block.IsRun b b.outIndex.toNat o ∧ c.bs = b.bs ∧ c.inq = b.inq ∧ c.outIndex = b.outIndex ∧ c.outCount = b.outCount ∧
      c.fault = b.fault ∧ c.cfgW = b.cfgW ∧ c.cfgL = b.cfgL ∧ c.cfgQ = b.cfgQ

/-- R148: a step makes no progress exactly when its `getBits` returned NOBITS, and then it changed nothing. -/
def Obligations.NoProgressIsNoBits : Prop :=
  ∀ (b c : Block), b.fsmStep = .ran c →
    (progress b c = false ↔ b.state ≠ .yieldBackref ∧ b.getBits b.chunkWidth = .nobits) ∧
    (progress b c = false → c = b)

/-- R150: the width each state asks of `getBits`, its range, and that the step of the state asks for exactly that width;
none of the steps raises INT_GETBITS_WIDTH. -/
def Obligations.WidthsAskedOfGetBits : Prop :=
  ∀ (b : Block), b.Inv →
    (b.state = .tagBit → b.chunkWidth = 1 ∧ b.fsmStep = b.readChunk b.chunkWidth Block.afterTag) ∧
    (b.state = .yieldLiteral → b.chunkWidth = 8 ∧ b.fsmStep = b.readChunk b.chunkWidth Block.afterLiteral) ∧
    (b.state = .backrefIndexMsb → b.W > 8 ∧ b.chunkWidth = b.W - 8 ∧ 1 ≤ b.chunkWidth ∧ b.chunkWidth ≤ 7 ∧
      b.fsmStep = b.readChunk b.chunkWidth Block.afterIndexMsb) ∧
    (b.state = .backrefIndexLsb → b.chunkWidth = min b.W 8 ∧ 4 ≤ b.chunkWidth ∧ b.chunkWidth ≤ 8 ∧
      b.fsmStep = b.readChunk b.chunkWidth Block.afterIndexLsb) ∧
    (b.state = .backrefCountMsb → b.L > 8 ∧ b.chunkWidth = b.L - 8 ∧ 1 ≤ b.chunkWidth ∧ b.chunkWidth ≤ 6 ∧
      b.fsmStep = b.readChunk b.chunkWidth Block.afterCountMsb) ∧
    (b.state = .backrefCountLsb → b.chunkWidth = min b.L 8 ∧ 1 ≤ b.chunkWidth ∧ b.chunkWidth ≤ 8 ∧
      b.fsmStep = b.readChunk b.chunkWidth Block.afterCountLsb) ∧
    b.fsmStep ≠ .raised .intGetbitsWidth

/-- R151: every progressing step but YieldBackref consumes at least one bit, YieldBackref is followed by TagBit, and a poll
makes at most 2A + 1 progressing steps. -/
def Obligations.PollTerminates : Prop :=
  (∀ (b c : Block), b.Good → Block.Progresses b c → b.state ≠ .yieldBackref → c.bs.avail ≤ b.bs.avail - 1) ∧
  (∀ (b c : Block), b.Good → Block.Progresses b c → b.state = .yieldBackref → c.state = .tagBit) ∧
  (∀ (trace : Nat → Block) (n : Nat), (trace 0).Good → (∀ k, k < n → Block.Progresses (trace k) (trace (k + 1))) →
    n ≤ 2 * (trace 0).bs.avail.toNat + 1)

/-! ### The units (42 section 3) -/

/-- R155: LIT consumes 9 bits, emits and stores its byte and ends in TagBit; `OUT_INDEX`, `OUT_COUNT` and everything else
stay. A full OutputSink doubles its capacity first (R184). The host's last outcome stays (log 6). -/
def Obligations.LitEffect : Prop :=
  ∀ (s : State) (b : Block) (v : Byte), s.block = some b → b.Good → b.state = .tagBit → 9 ≤ b.stream.length →
    ∃ (bs : BitstreamState) (w : Memory) (h : BitVec 15),
      exec (.lit v) s = .next { s with block := some { b with
        bs := bs, win := w, headReg := h, out := b.out ++ [v],
        outCap := if b.out.length = b.outCap then 2 * b.outCap else b.outCap } } ∧
      (b.setCursor bs).stream = b.stream.drop 9 ∧
      h.toNat = (b.head + 1) % b.N ∧ ∀ a, w.read a = if a = b.head then v else b.win.read a

/-- R156, R157: BREF consumes 1 + W + L bits, leaves the 1-based offset and count in the accumulators, emits and stores
the run (its j-th byte at `(HEAD + j) mod N`, every other window cell stays) and ends in TagBit; everything else stays, the
host's last outcome too (log 6). -/
def Obligations.BrefEffect : Prop :=
  ∀ (s : State) (b : Block) (idx cnt : Half), s.block = some b → b.Good → b.state = .tagBit →
    (Instr.bref idx cnt).wf b.W b.L = true → 1 + b.W + b.L ≤ b.stream.length →
    ∃ (c : Block) (o : List Byte),
      exec (.bref idx cnt) s = .next { s with block := some c } ∧
      c.stream = b.stream.drop (1 + b.W + b.L) ∧ c.outIndex.toNat = idx.toNat + 1 ∧ c.outCount.toNat = cnt.toNat + 1 ∧
      o.length = cnt.toNat + 1 ∧ Block.Emitted b c o ∧ Block.IsRun b (idx.toNat + 1) o ∧ c.state = .tagBit ∧
      c.inq = b.inq ∧ c.fault = b.fault ∧ c.cfgW = b.cfgW ∧ c.cfgL = b.cfgL ∧ c.cfgQ = b.cfgQ

/-- R153, R152 d, R155, R156: a unit whose bits are not all there parks inside itself. The chunks `front` of the unit are
consumed, each handed to the state it belongs to; the next one, `short`, is not all there and has lost none of its bits, so
the step that asks for it changes nothing (R113). Nothing is emitted or stored. Where the bits that are there are the
unit's own, the state machine parks in the very same block. That a unit leaves the host's last outcome is the model's
choice, log 6. -/
def Obligations.ShortUnitParks : Prop :=
  ∀ (s : State) (b : Block) (i : Instr), s.block = some b → b.Good → b.state = .tagBit → i.isUnit = true →
    i.wf b.W b.L = true → (∀ bits, encode b.W b.L i = some bits → b.stream.length < bits.length) →
    ∃ (front : List Chunk) (short : Chunk) (rest : List Chunk) (c : Block),
      unitChunks b.W b.L i = front ++ short :: rest ∧
      exec i s = .next { s with block := some c } ∧
      c = (b.afterChunks front).setCursor c.bs ∧
      c.stream = b.stream.drop (chunkSum front) ∧ chunkSum front ≤ b.stream.length ∧
      c.chunkWidth = short.width ∧ c.bs.avail < short.width ∧ c.fsmStep = .ran c ∧
      (∀ bits, encode b.W b.L i = some bits → b.stream <+: bits → b.finishUnit 6 = .ok c) ∧
      c.out = b.out ∧ c.outCap = b.outCap ∧ c.win = b.win ∧ c.headReg = b.headReg ∧ c.inq = b.inq ∧
      c.fault = b.fault ∧ c.cfgW = b.cfgW ∧ c.cfgL = b.cfgL ∧ c.cfgQ = b.cfgQ

/-- R155, R156 with R141 to R147: when the stream holds a whole unit, the state machine's run through it ends in the very
block that the unit's meaning gives, with the rest of the stream before it. The host's last outcome stays (log 6). -/
def Obligations.StateMachineRefinesUnits : Prop :=
  ∀ (s : State) (b : Block) (i : Instr) (rest : List Bool), s.block = some b → b.Good → b.state = .tagBit →
    decode b.W b.L b.stream = .ok (i, rest) →
    ∃ c, exec i s = .next { s with block := some c } ∧ b.finishUnit 6 = .ok c ∧ c.stream = rest ∧ c.Good ∧
      c.state = .tagBit

/-- R149, R155, R156: POLL on a stream that starts with a whole unit does what POLL does after that unit's meaning. -/
def Obligations.PollRunsTheUnitsOfTheStream : Prop :=
  ∀ (s : State) (b c : Block) (i : Instr) (rest : List Bool), s.block = some b → b.Good → b.state = .tagBit →
    decode b.W b.L b.stream = .ok (i, rest) → exec i s = .next { s with block := some c } →
    exec .poll s = exec .poll { s with block := some c }

/-! ### The host transactions (43) -/

/-- R170, R209 a: NEW tries its three checks in order, the first that applies is the error, and a failed NEW creates no
block; else the block is built with the arguments and the values of R39. The model's choices in it: that a failed NEW leaves
a block the machine has and a successful one replaces it, log 14, and the values of `FAULT.KIND` and `FAULT.CAUSE` in
`Block.init`, which R34 leaves unspecified, log 7. -/
def Obligations.NewChecksThenBuilds : Prop :=
  ∀ (s : State) (w l q : Int),
    (l ≥ w → exec (.new w l q) s = .next { s with reply := some (.error .configurationError 0x01) }) ∧
    (l < w → l ≤ 0 ∨ w ≤ 0 ∨ q ≤ 0 →
      exec (.new w l q) s = .next { s with reply := some (.error .configurationError 0x02) }) ∧
    (l < w → 0 < l → 0 < w → 0 < q → w < 4 ∨ w > 15 →
      exec (.new w l q) s = .next { s with reply := some (.error .configurationError 0x03) }) ∧
    (l < w → 0 < l → 0 < q → 4 ≤ w → w ≤ 15 →
      ∃ (cw cl : BitVec 4) (cq : Nat), (cw.toNat : Int) = w ∧ (cl.toNat : Int) = l ∧ (cq : Int) = q ∧
        exec (.new w l q) s = .next { s with block := some (Block.init cw cl cq), reply := some (.ok .newBlock) })

/-- R39, R230: NEW with legal arguments and RESET leave every register and memory at its value in R39's table; NEW stores the
arguments, RESET keeps the configuration. `FAULT.KIND` and `FAULT.CAUSE` have no value there. -/
def Obligations.ValuesAfterReset : Prop :=
  (∀ (s : State) (w l q : Int), 4 ≤ w → w ≤ 15 → 0 < l → l < w → 0 < q →
    ∃ t c, exec (.new w l q) s = .next t ∧ t.block = some c ∧ (c.cfgW.toNat : Int) = w ∧ (c.cfgL.toNat : Int) = l ∧
      (c.cfgQ : Int) = q ∧ Fresh c) ∧
  (∀ (s : State) (b : Block), s.block = some b →
    ∃ t c, exec .reset s = .next t ∧ t.block = some c ∧ c.cfgW = b.cfgW ∧ c.cfgL = b.cfgL ∧ c.cfgQ = b.cfgQ ∧ Fresh c)

/-- R176, R230: RESET is accepted in every state, the faulted one too, keeps the configuration and gives everything else
its value of R39. `FAULT.KIND` and `FAULT.CAUSE`, which R34 and R39 leave unspecified, take the values of `Block.init`: the
model's choice, log 7. -/
def Obligations.ResetRestoresConstruction : Prop :=
  ∀ (s : State) (b : Block), s.block = some b →
    exec .reset s = .next { s with block := some (Block.init b.cfgW b.cfgL b.cfgQ), reply := some (.ok .nothing) }

/-- R171: SINK appends the longest front part that fits in `Q − BS_SIZE`, returns the number not accepted, decodes
nothing and touches no unread byte. -/
def Obligations.SinkAppendsWhatFits : Prop :=
  ∀ (s : State) (b : Block) (bytes : List Byte) (k : Nat), s.block = some b → b.Good →
    k = min (b.cfgQ - b.bs.size) bytes.length →
    ∃ inq : Memory,
      exec (.sink bytes) s = .next { s with
        block := some { b with inq := inq, bs := { b.bs with size := b.bs.size + k } },
        reply := some (.ok (.notAccepted (bytes.length - k))) } ∧
      (∀ a, inq.read a = if b.bs.size ≤ a ∧ a < b.bs.size + k then bytes.getD (a - b.bs.size) 0 else b.inq.read a) ∧
      Block.stream { b with inq := inq, bs := { b.bs with size := b.bs.size + k } } =
        b.stream ++ bytesBits (bytes.take k)

/-- R152, R172: POLL of a good block ends ok and parks: it ran progressing steps, each of which took exactly its chunk
off the stream, until a step whose chunk is not all there, which took nothing. -/
def Obligations.PollParksMidField : Prop :=
  ∀ (s : State) (b : Block), s.block = some b → b.Good →
    (∃ c, exec .poll s = .next { s with block := some c, reply := some (.ok .nothing) } ∧ Block.Parked c ∧ c.Good ∧
      c.fsmStep = .ran c ∧ Relation.ReflTransGen Block.Progresses b c) ∧
    (∀ x y, x.Good → Block.Progresses x y → y.stream = x.stream.drop x.chunkWidth)

/-- R72, R38: POLL writes neither the configuration nor the queue memory; on a good block it leaves `FAULT` too, and what
it does to the window it does by emitting. -/
def Obligations.PollFrame : Prop :=
  ∀ (s : State) (b : Block), s.block = some b → b.Good →
    ∃ c o, exec .poll s = .next { s with block := some c, reply := some (.ok .nothing) } ∧ Block.Emitted b c o ∧
      c.inq = b.inq ∧ c.cfgW = b.cfgW ∧ c.cfgL = b.cfgL ∧ c.cfgQ = b.cfgQ ∧ c.fault = b.fault

/-- R172: POLL on a parked block with no new input changes nothing. -/
def Obligations.PollOfParkedChangesNothing : Prop :=
  ∀ (s : State) (b : Block), s.block = some b → b.Good → Block.Parked b →
    exec .poll s = .next { s with reply := some (.ok .nothing) }

/-- R173: PROCESS of a good block always ends ok, with every byte accepted: its next state is that of the rounds of SINK
and POLL that leave nothing of `bytes`. At least one round is made, each round before the last leaves something, and
ceil(n / Q) + 1 rounds are enough. The block left is parked. -/
def Obligations.ProcessAcceptsAll : Prop :=
  ∀ (s : State) (b : Block) (bytes : List Byte), s.block = some b → b.Good →
    ∃ (c : Block) (o : List Byte) (k : Nat),
      exec (.process bytes) s = .next { s with block := some c, reply := some (.ok .nothing) } ∧
      1 ≤ k ∧ k ≤ (bytes.length + b.cfgQ - 1) / b.cfgQ + 1 ∧
      sinkRounds k bytes s = some ([], { s with block := some c, reply := some (.ok .nothing) }) ∧
      (∀ j, 1 ≤ j → j < k → ∃ rest u, sinkRounds j bytes s = some (rest, u) ∧ rest ≠ []) ∧
      Block.Parked c ∧ c.Good ∧ Block.Emitted b c o ∧
      c.cfgW = b.cfgW ∧ c.cfgL = b.cfgL ∧ c.cfgQ = b.cfgQ ∧ c.fault = b.fault

/-- R154: chunk-size independence. Two ways of feeding a good block with SINK, POLL and PROCESS whose accepted bytes are
the same end, after a final POLL, in blocks that agree in everything but stale queue bytes. -/
def Obligations.ChunkingDoesNotMatter : Prop :=
  ∀ (s : State) (b : Block) (fs gs : List Feed) (t u : State) (bytes : List Byte), s.block = some b → b.Good →
    runFeeds fs s = some (t, bytes) → runFeeds gs s = some (u, bytes) →
    ∃ t' u' c d, exec .poll t = .next t' ∧ exec .poll u = .next u' ∧ t'.block = some c ∧ u'.block = some d ∧
      c.SameButQueueBytes d ∧ c.bs.size = 0 ∧ c.bs.readIndex = 0

/-- R154 with R175: taking the output between two PROCESS calls changes nothing of what is decoded: the two outputs laid
end to end are the output of one PROCESS. -/
def Obligations.OutputTakenInPiecesIsTheSame : Prop :=
  ∀ (s : State) (b : Block) (xs ys : List Byte), s.block = some b → b.Good →
    ∃ s1 s2 s3 t c d o1, exec (.process xs) s = .next s1 ∧ exec .getOutput s1 = .next s2 ∧
      s2.reply = some (.ok (.bytes o1)) ∧ exec (.process ys) s2 = .next s3 ∧ exec (.process (xs ++ ys)) s = .next t ∧
      s3.block = some c ∧ t.block = some d ∧ o1 ++ c.out = d.out ∧ c.state = d.state ∧ c.bs = d.bs ∧
      c.outIndex = d.outIndex ∧ c.outCount = d.outCount ∧ c.headReg = d.headReg ∧ c.win = d.win ∧ c.fault = d.fault

/-- R173 ("The decoded result does not depend on Q"): two blocks that differ only in their capacity decode the same bytes
to the same output and the same registers. -/
def Obligations.ResultDoesNotDependOnQ : Prop :=
  ∀ (s t : State) (b : Block) (q : Nat) (bytes : List Byte), s.block = some b → b.Good → b.bs.size ≤ q → 1 ≤ q →
    b.inq.inRange q → t.block = some { b with cfgQ := q } →
    ∃ s' t' c d, exec (.process bytes) s = .next s' ∧ exec (.process bytes) t = .next t' ∧ s'.block = some c ∧
      t'.block = some d ∧ Block.SameButQueueBytes { c with cfgQ := q } d

/-- R174: IS_FINISHED is true exactly when no queue byte is unread, whatever `BS_CURBYTE` and `STATE` hold, and changes
nothing. -/
def Obligations.IsFinishedCountsUnreadBytes : Prop :=
  ∀ (s : State) (b : Block), s.block = some b → b.Good →
    exec .isFinished s = .next { s with reply := some (.ok (.finished (decide (b.bs.size = 0)))) } ∧
    (b.finished = true ↔ b.unread = [])

/-- R175, R248: GET_OUTPUT returns the output and empties it; the window, `HEAD` and everything else stay; a second one
right after returns the empty sequence. -/
def Obligations.GetOutputTakesTheOutput : Prop :=
  ∀ (s : State) (b : Block), s.block = some b → b.fault.valid = false →
    exec .getOutput s = .next { s with block := some { b with out := [] }, reply := some (.ok (.bytes b.out)) } ∧
    exec .getOutput { s with block := some { b with out := [] } } =
      .next { s with block := some { b with out := [] }, reply := some (.ok (.bytes [])) }

/-- R179: after a POLL that ends ok, SINK of n bytes accepts min(Q, n), and ceil(n / Q) rounds of SINK and POLL accept
everything. -/
def Obligations.BackpressureDrains : Prop :=
  ∀ (s t : State) (b c : Block) (left : List Byte), s.block = some b → b.Good → exec .poll s = .next t →
    t.block = some c →
    (∃ u, exec (.sink left) t = .next u ∧ u.reply = some (.ok (.notAccepted (left.length - min c.cfgQ left.length)))) ∧
    ∃ u, sinkRounds ((left.length + c.cfgQ - 1) / c.cfgQ) left t = some ([], u)

/-- R231: before a NEW has succeeded no other transaction exists. That every instruction but NEW, the units and the
unit-level operations among them, is refused then, and by the name noBlock, is the model's reading, log 10 (DEDUCED). -/
def Obligations.NoBlockNoTransaction : Prop :=
  ∀ (s : State) (i : Instr), s.block = none → (∀ w l q, i ≠ .new w l q) → exec i s = .refused .noBlock

/-! ### Errors (60) -/

/-- R207 (5), R209 e, R242: while faulted, SINK, POLL, PROCESS, IS_FINISHED and GET_OUTPUT return refused(Faulted) and change
nothing; RESET is accepted and leaves the faulted state. That a unit, which does not run then (R140), answers
refused(Faulted) too is the model's reading, log 11 (DEDUCED). That NEW is accepted, since it is no call of the faulted
block, is the model's choice, log 14. -/
def Obligations.FaultedRefusesTransactionsButResetAndNew : Prop :=
  ∀ (s : State) (b : Block), s.block = some b → b.fault.valid = true →
    (∀ i, (i.isUnit = true ∨ (∃ bytes, i = .sink bytes) ∨ i = .poll ∨ (∃ bytes, i = .process bytes) ∨ i = .isFinished ∨
        i = .getOutput) →
      exec i s = .next { s with reply := some .refusedFaulted }) ∧
    (∃ t c, exec .reset s = .next t ∧ t.reply = some (.ok .nothing) ∧ t.block = some c ∧ c.fault.valid = false) ∧
    (∀ w l q, ∃ t, exec (.new w l q) s = .next t ∧ t.reply ≠ some .refusedFaulted)

/-- R147, R200, R207, R209 b: in YieldBackref an offset above N, and then a count above N, raises CorruptDataError: POLL
sets `FAULT` and changes nothing else. No run reaches such a state (R202). -/
def Obligations.CorruptDataEntersTheFault : Prop :=
  ∀ (s : State) (b : Block), s.block = some b → b.fault.valid = false → b.state = .yieldBackref →
    (b.outIndex.toNat > b.N →
      exec .poll s = .next { s with
        block := some { b with fault := { valid := true, kind := .corruptDataError, cause := 0x10 } },
        reply := some (.error .corruptDataError 0x10) }) ∧
    (b.outIndex.toNat ≤ b.N → b.outCount.toNat > b.N →
      exec .poll s = .next { s with
        block := some { b with fault := { valid := true, kind := .corruptDataError, cause := 0x11 } },
        reply := some (.error .corruptDataError 0x11) })

/-- R205, R209 c: a step in BackrefIndexMSB with W ≤ 8, in BackrefCountMSB with L ≤ 8 or with `STATE` = 7 raises its
InternalError before any bit is read and changes nothing but `FAULT`; a good block is in none of these states. -/
def Obligations.InternalStateErrors : Prop :=
  (∀ (s : State) (b : Block) (cause : Byte), s.block = some b → b.fault.valid = false →
    (b.state = .backrefIndexMsb ∧ b.W ≤ 8 ∧ cause = 0x21) ∨ (b.state = .backrefCountMsb ∧ b.L ≤ 8 ∧ cause = 0x22) ∨
      (b.state = .code7 ∧ cause = 0x23) →
    exec .poll s = .next { s with
      block := some { b with fault := { valid := true, kind := .internalError, cause := cause } },
      reply := some (.error .internalError cause) }) ∧
  (∀ b : Block, b.Good → ¬(b.state = .backrefIndexMsb ∧ b.W ≤ 8) ∧ ¬(b.state = .backrefCountMsb ∧ b.L ≤ 8) ∧
    b.state ≠ .code7)

/-- R207 (1 to 4): an error of POLL, from whatever block: the steps before it keep their effects, the raising step changes
nothing but `FAULT`, which records the kind and the cause the host is told. -/
def Obligations.ErrorsArePrecise : Prop :=
  ∀ (s t : State) (b : Block) (kind : ErrorKind) (cause : Byte), s.block = some b → b.fault.valid = false →
    exec .poll s = .next t → t.reply = some (.error kind cause) →
    ∃ x : Block, Relation.ReflTransGen Block.Progresses b x ∧
      (∃ e : Cause, x.fsmStep = .raised e ∧ kind = e.kind ∧ cause = e.code) ∧
      t.block = some { x with fault := { valid := true, kind := kind, cause := cause } }

/-- R173, R207 (4), D25: if the first POLL inside PROCESS raises, PROCESS ends with that error, in the state that SINK and
then POLL would have left: the bytes not yet sunk are dropped. -/
def Obligations.ProcessEndsWithTheErrorOfItsPoll : Prop :=
  ∀ (s t u : State) (bytes : List Byte) (kind : ErrorKind) (cause : Byte), exec (.sink bytes) s = .next t →
    exec .poll t = .next u → u.reply = some (.error kind cause) → exec (.process bytes) s = .next u

/-- R206: from a good state no step stops with a fault, and the only errors a host is told are a ConfigurationError from
NEW and, at unit level, INT_GETBITS_WIDTH from `getBits`. -/
def Obligations.OnlyNewAndUnitGetBitsCanFail : Prop :=
  ∀ (s : State), s.Good →
    (∀ f, step s ≠ .fault f) ∧
    (∀ (i : Instr) (t : State) (kind : ErrorKind) (cause : Byte), s.script.head? = some (.call i) → step s = .next t →
      t.reply = some (.error kind cause) →
      (kind = .configurationError ∧ ∃ w l q, i = .new w l q) ∨
      (kind = .internalError ∧ cause = 0x20 ∧ ∃ n, i = .getBits n)) ∧
    (∀ t, s.script.head? = some .drive → step s = .next t → t.reply = s.reply)

/-! ### The machine -/

/-- R40, R5: the state after reset is good (its parameters are the model's choice, log 1). -/
def Obligations.ResetStateIsGood : Prop := State.reset.Good

/-- R40: every step from a good state leads to a good state: the invariants I1 to I9 of the block, the canonical form and
range of its memories, and no error raised. -/
def Obligations.StepKeepsGood : Prop :=
  ∀ (s t : State), s.Good → step s = .next t → t.Good

/-- R21, R249: no instruction but NEW writes the configuration registers, whatever the block. -/
def Obligations.ConfigurationIsImmutable : Prop :=
  ∀ (s t : State) (b : Block) (i : Instr), s.block = some b → (∀ w l q, i ≠ .new w l q) → exec i s = .next t →
    ∃ c, t.block = some c ∧ c.cfgW = b.cfgW ∧ c.cfgL = b.cfgL ∧ c.cfgQ = b.cfgQ

/-- U12, U13 (R25, R32): what POLL does depends on the registers, the window, the output and the bits still to come
alone, not on the stale byte of `BS_CURBYTE` nor on queue bytes outside `BS_READINDEX .. BS_SIZE − 1`. -/
def Obligations.StaleBytesDoNotMatter : Prop :=
  ∀ (s t : State) (a b : Block), s.block = some a → t.block = some b → a.Good → b.Good → a.stream = b.stream →
    a.cfgW = b.cfgW → a.cfgL = b.cfgL → a.state = b.state → a.outIndex = b.outIndex → a.outCount = b.outCount →
    a.headReg = b.headReg → a.win = b.win → a.out = b.out →
    ∃ s' t' c d, exec .poll s = .next s' ∧ exec .poll t = .next t' ∧ s'.reply = t'.reply ∧ s'.block = some c ∧
      t'.block = some d ∧ c.stream = d.stream ∧ c.state = d.state ∧ c.outIndex = d.outIndex ∧ c.outCount = d.outCount ∧
      c.headReg = d.headReg ∧ c.win = d.win ∧ c.out = d.out

/-- R22, R149: with the host driving one unit, and a whole unit at the cursor of a block in TagBit, the step is that
unit's meaning, with the action taken off the host's script; with no whole unit there the state machine goes on instead,
as far as the bits allow (log 5: the cut of POLL at unit boundaries is the model's own). -/
def Obligations.StepRunsTheFetchedUnit : Prop :=
  ∀ (s : State) (b : Block) (rest : List HostAction), s.script = .drive :: rest → s.block = some b →
    (∀ i bits, b.state = .tagBit → decode b.W b.L b.stream = .ok (i, bits) →
      step s = exec i { s with script := rest }) ∧
    (b.state ≠ .tagBit ∨ (∃ e, decode b.W b.L b.stream = .error e) →
      step s = State.driveRest { s with script := rest })

/-- R74, R211: the step of a call is that instruction's meaning, with the call taken off the host's script; with no
action to come nothing changes. The script is the model's own, log 5 (DESIGN CHOICE); that a unit called by the host, being
no transaction, is refused as unitIsNoCall is the model's reading, log 11 (DEDUCED). -/
def Obligations.StepPerformsTheNextCall : Prop :=
  ∀ (s : State),
    (∀ i rest, s.script = .call i :: rest → i.isUnit = false → step s = exec i { s with script := rest }) ∧
    (∀ i rest, s.script = .call i :: rest → i.isUnit = true → step s = .refused .unitIsNoCall) ∧
    (s.script = [] → step s = .next s)

/-- A unit placed at the cursor is what the next step runs (log 3, log 5): from any state whose block has the reset
parameters, or from a state with no block. -/
def Obligations.PlacedUnitIsRunNext : Prop :=
  ∀ (s : State) (nbits w : Nat) (i : Instr),
    (∀ b, s.block = some b → b.cfgW = Config.resetW ∧ b.cfgL = Config.resetL ∧ b.inq.wf) →
    decodeTableWord nbits w = some i →
    step (s.withFetchWord nbits w) = exec i { s.withFetchWord nbits w with script := s.script }
end

