-- ==== Sys2Proof/Laws/Bits.lean ====
section
/-! SUPPORT. Bits and numbers: a field's bits and its big-endian value determine each other (R61, R84). -/

namespace Sys2Proof

@[simp] theorem bitsOfNat_length (n v : Nat) : (bitsOfNat n v).length = n := by
  induction n with
  | zero => rfl
  | succ n ih => simp [bitsOfNat, ih]

@[simp] theorem byteBits_length (v : Byte) : (byteBits v).length = 8 := bitsOfNat_length 8 _

@[simp] theorem bytesBits_nil : bytesBits [] = [] := rfl

@[simp] theorem bytesBits_cons (v : Byte) (vs : List Byte) : bytesBits (v :: vs) = byteBits v ++ bytesBits vs := rfl

@[simp] theorem bytesBits_append (xs ys : List Byte) : bytesBits (xs ++ ys) = bytesBits xs ++ bytesBits ys := by
  simp [bytesBits]

@[simp] theorem bytesBits_length (vs : List Byte) : (bytesBits vs).length = 8 * vs.length := by
  induction vs with
  | nil => rfl
  | cons v vs ih => simp [ih]; omega

theorem natOfBits_lt (bs : List Bool) : natOfBits bs < 2 ^ bs.length := by
  induction bs with
  | nil => simp [natOfBits]
  | cons b bs ih => cases b <;> simp [natOfBits, pow_succ] <;> omega

theorem natOfBits_append (xs ys : List Bool) :
    natOfBits (xs ++ ys) = natOfBits xs * 2 ^ ys.length + natOfBits ys := by
  induction xs with
  | nil => simp [natOfBits]
  | cons x xs ih => simp [natOfBits, ih, pow_add]; ring

/-- The value of the low `n` bits of `v`. -/
theorem natOfBits_bitsOfNat (n v : Nat) : natOfBits (bitsOfNat n v) = v % 2 ^ n := by
  induction n with
  | zero => simp [bitsOfNat, natOfBits, Nat.mod_one]
  | succ n ih =>
    have h := Nat.mod_mul (x := v) (a := 2 ^ n) (b := 2)
    rw [bitsOfNat, natOfBits, bitsOfNat_length, ih, Nat.toNat_testBit, pow_succ, h]
    ring

/-- A number whose bits are `bs` gives them back. -/
theorem bitsOfNat_natOfBits (bs : List Bool) : bitsOfNat bs.length (natOfBits bs) = bs := by
  have key : ∀ (bs : List Bool) (k : Nat), bitsOfNat bs.length (k * 2 ^ bs.length + natOfBits bs) = bs := by
    intro bs
    induction bs with
    | nil => intro k; rfl
    | cons b bs ih =>
      intro k
      have hlt := natOfBits_lt bs
      have e : k * 2 ^ (b :: bs).length + natOfBits (b :: bs)
          = (k * 2 + b.toNat) * 2 ^ bs.length + natOfBits bs := by
        simp [natOfBits, pow_succ]; ring
      have hbit : ((k * 2 + b.toNat) * 2 ^ bs.length + natOfBits bs).testBit bs.length = b := by
        rw [Nat.testBit_eq_decide_div_mod_eq, Nat.mul_comm, Nat.mul_add_div (Nat.two_pow_pos _),
          Nat.div_eq_of_lt hlt]
        cases b <;> simp
      rw [e, List.length_cons, bitsOfNat, hbit, ih]
  simpa using key bs 0

theorem bitsOfNat_mod (n v : Nat) : bitsOfNat n (v % 2 ^ n) = bitsOfNat n v := by
  have h := bitsOfNat_natOfBits (bitsOfNat n v)
  rwa [bitsOfNat_length, natOfBits_bitsOfNat] at h

/-- A field's bits are its upper bits and then its lower bits: the MSB/LSB split changes nothing on the wire (R61, R83). -/
theorem bitsOfNat_add (m n v : Nat) : bitsOfNat (m + n) v = bitsOfNat m (v >>> n) ++ bitsOfNat n v := by
  induction m with
  | zero => simp [bitsOfNat]
  | succ m ih => rw [Nat.succ_add, bitsOfNat, ih, bitsOfNat, Nat.testBit_shiftRight, Nat.add_comm n m, List.cons_append]

/-! ### Fields of a stream -/

theorem takeField_eq_some {n v : Nat} {bits rest : List Bool} :
    takeField n bits = some (v, rest) ↔ n ≤ bits.length ∧ v = natOfBits (bits.take n) ∧ rest = bits.drop n := by
  unfold takeField
  split
  · simp; omega
  · simp only [Option.some.injEq, Prod.mk.injEq]
    constructor
    · rintro ⟨rfl, rfl⟩; exact ⟨by omega, rfl, rfl⟩
    · rintro ⟨-, rfl, rfl⟩; exact ⟨rfl, rfl⟩

/-- The bits a field was taken from are the bits of its value. -/
theorem bitsOfNat_take {n : Nat} {bits : List Bool} (h : n ≤ bits.length) :
    bitsOfNat n (natOfBits (bits.take n)) = bits.take n := by
  have := bitsOfNat_natOfBits (bits.take n)
  rwa [List.length_take, min_eq_left h] at this

/-- A field's value, read back from its bits with anything behind them. -/
theorem natOfBits_take_append (n v : Nat) (rest : List Bool) :
    natOfBits ((bitsOfNat n v ++ rest).take n) = v % 2 ^ n := by
  rw [List.take_append_of_le_length (by simp), List.take_of_length_le (by simp), natOfBits_bitsOfNat]

theorem drop_bitsOfNat_append (n v : Nat) (rest : List Bool) : (bitsOfNat n v ++ rest).drop n = rest := by
  rw [List.drop_append_of_le_length (by simp), List.drop_of_length_le (by simp), List.nil_append]

end Sys2Proof
end

