-- ==== Sys2Proof/Laws/Memory.lean ====
section
/-! SUPPORT. The laws of byte memory: read after write, and that every operation keeps the canonical form. -/

namespace Sys2Proof.Machine

@[simp] theorem Memory.read_nil (a : Nat) : Memory.read [] a = Config.emptyByte := rfl

theorem Memory.read_cons (p : Host.Cell) (m : Memory) (a : Nat) :
    Memory.read (p :: m) a = if p.1 = a then p.2 else Memory.read m a := rfl

theorem Memory.wf_nil : Memory.wf [] := ⟨List.Pairwise.nil, by simp⟩

theorem Memory.wf_cons (k : Nat) (v : Byte) (m : Memory) :
    Memory.wf ((k, v) :: m) ↔ (∀ p ∈ m, k < p.1) ∧ v ≠ Config.emptyByte ∧ Memory.wf m := by
  simp [Memory.wf, List.pairwise_cons]
  tauto

/-- An address below every listed one is unlisted. -/
theorem Memory.read_of_lt {m : Memory} {a : Nat} (h : ∀ p ∈ m, a < p.1) : m.read a = Config.emptyByte := by
  induction m with
  | nil => rfl
  | cons p m ih =>
    have hp : a < p.1 := h p (by simp)
    simp only [Memory.read_cons, if_neg (show p.1 ≠ a by omega)]
    exact ih fun q hq => h q (by simp [hq])

/-- Every address a write lists is the one written or was listed before. -/
theorem Memory.mem_write {m : Memory} {a : Nat} {v : Byte} {p : Host.Cell} (h : p ∈ m.write a v) :
    p = (a, v) ∨ p ∈ m := by
  induction m with
  | nil => unfold Memory.write at h; split at h <;> simp_all
  | cons q m ih =>
    obtain ⟨k, w⟩ := q
    unfold Memory.write at h
    split_ifs at h
    · exact .inr h
    · exact (List.mem_cons.1 h).imp id id
    · exact .inr (List.mem_cons_of_mem _ h)
    · exact (List.mem_cons.1 h).imp id (List.mem_cons_of_mem _)
    · rcases List.mem_cons.1 h with h | h
      · exact .inr (h ▸ List.mem_cons_self)
      · exact (ih h).imp id (List.mem_cons_of_mem _)

theorem Memory.write_inRange {m : Memory} {n a : Nat} {v : Byte} (hm : m.inRange n) (ha : a < n) :
    (m.write a v).inRange n := by
  intro p hp
  rcases Memory.mem_write hp with h | h
  · simp [h, ha]
  · exact hm p h

theorem Memory.write_wf {m : Memory} (hm : m.wf) (a : Nat) (v : Byte) : (m.write a v).wf := by
  induction m with
  | nil =>
    unfold Memory.write
    split
    · exact Memory.wf_nil
    · rename_i h; simp [Memory.wf, h]
  | cons q m ih =>
    obtain ⟨k, w⟩ := q
    rw [Memory.wf_cons] at hm
    obtain ⟨hk, hw, hm⟩ := hm
    unfold Memory.write
    split_ifs with h1 h2 h3 h4
    · exact (Memory.wf_cons _ _ _).2 ⟨hk, hw, hm⟩
    · refine (Memory.wf_cons _ _ _).2 ⟨?_, h2, (Memory.wf_cons _ _ _).2 ⟨hk, hw, hm⟩⟩
      intro p hp
      rcases List.mem_cons.1 hp with rfl | hp
      · exact h1
      · exact lt_trans h1 (hk p hp)
    · exact hm
    · exact (Memory.wf_cons _ _ _).2 ⟨fun p hp => h3 ▸ hk p hp, h4, hm⟩
    · refine (Memory.wf_cons _ _ _).2 ⟨?_, hw, ih hm⟩
      intro p hp
      rcases Memory.mem_write hp with rfl | hp
      · show k < a; omega
      · exact hk p hp

/-- Read after write (R68). -/
theorem Memory.read_write {m : Memory} (hm : m.wf) (a a' : Nat) (v : Byte) :
    (m.write a v).read a' = if a' = a then v else m.read a' := by
  induction m with
  | nil =>
    unfold Memory.write
    by_cases h : a' = a
    · subst h
      rw [if_pos rfl]
      split_ifs with hv
      · simp [hv]
      · rw [Memory.read_cons, if_pos rfl]
    · split_ifs
      · simp
      · simp [Memory.read_cons, Ne.symm h]
  | cons q m ih =>
    obtain ⟨k, w⟩ := q
    rw [Memory.wf_cons] at hm
    obtain ⟨hk, hw, hm⟩ := hm
    have hlt {x : Nat} (hx : x < k) : Memory.read ((k, w) :: m) x = Config.emptyByte :=
      Memory.read_of_lt (by
        intro p hp
        rcases List.mem_cons.1 hp with rfl | hp
        · exact hx
        · exact lt_trans hx (hk p hp))
    have hk' : Memory.read m k = Config.emptyByte := Memory.read_of_lt hk
    unfold Memory.write
    by_cases h : a' = a
    · subst h
      rw [if_pos rfl]
      split_ifs with h1 h2 h3 h4
      · rw [hlt h1, h2]
      · simp [Memory.read_cons]
      · rw [h3, hk', h4]
      · simp [Memory.read_cons]
      · rw [Memory.read_cons, if_neg (by show k ≠ a'; omega), ih hm, if_pos rfl]
    · rw [if_neg h]
      split_ifs with h1 h2 h3 h4
      · rfl
      · rw [Memory.read_cons, if_neg (by show a ≠ a'; omega)]
      · rw [Memory.read_cons, if_neg (by show k ≠ a'; omega)]
      · rw [Memory.read_cons, Memory.read_cons, if_neg (by show a ≠ a'; omega), if_neg (by show k ≠ a'; omega)]
      · rw [Memory.read_cons, Memory.read_cons, ih hm, if_neg h]

theorem Memory.writeBytes_wf {m : Memory} (hm : m.wf) (a : Nat) (vs : List Byte) : (m.writeBytes a vs).wf := by
  induction vs generalizing m a with
  | nil => exact hm
  | cons v vs ih => exact ih (Memory.write_wf hm a v) (a + 1)

theorem Memory.writeBytes_inRange {m : Memory} {n a : Nat} {vs : List Byte} (hm : m.inRange n)
    (ha : a + vs.length ≤ n) : (m.writeBytes a vs).inRange n := by
  induction vs generalizing m a with
  | nil => exact hm
  | cons v vs ih =>
    simp only [List.length_cons] at ha
    exact ih (Memory.write_inRange hm (by omega)) (by omega)

/-- What consecutive writes leave: the bytes in their range, everything else as before. -/
theorem Memory.read_writeBytes {m : Memory} (hm : m.wf) (a a' : Nat) (vs : List Byte) :
    (m.writeBytes a vs).read a' =
      if a ≤ a' ∧ a' < a + vs.length then vs.getD (a' - a) 0 else m.read a' := by
  induction vs generalizing m a with
  | nil => simp [Memory.writeBytes]
  | cons v vs ih =>
    rw [Memory.writeBytes, ih (Memory.write_wf hm a v), Memory.read_write hm]
    simp only [List.length_cons]
    by_cases h1 : a' = a
    · subst h1
      simp
    · by_cases h2 : a ≤ a' ∧ a' < a + (vs.length + 1)
      · have e : a' - a = (a' - (a + 1)) + 1 := by omega
        rw [if_pos h2, if_pos (by omega), e, List.getD_cons_succ]
      · rw [if_neg h2, if_neg (by omega), if_neg h1]

end Sys2Proof.Machine
end

