-- ==== Sys2Proof/Laws/Reader.lean ====
section
/-! SUPPORT. The BitstreamReader: `getBits` takes the next bits off the stream, all or nothing (R110 to R117). -/

namespace Sys2Proof.Machine

/-- A cursor inside a queue of capacity `q` (R40 I1 to I3). -/
structure BitstreamState.Ok (bs : BitstreamState) (q : Nat) : Prop where
  readIndex_le : bs.readIndex ≤ bs.size
  size_le : bs.size ≤ q
  drained : bs.readIndex = bs.size → bs.size = 0
  mask : bs.bitMask ∈ legalMasks

/-- The unread bytes of a queue memory. -/
def BitstreamState.unreadOf (mem : Nat → Byte) (bs : BitstreamState) : List Byte :=
  (List.range (bs.size - bs.readIndex)).map fun i => mem (bs.readIndex + i)

/-- The bits a cursor still has, over a queue memory. -/
def BitstreamState.streamOf (mem : Nat → Byte) (bs : BitstreamState) : List Bool :=
  bitsOfNat (bitsLeft bs.bitMask) bs.currentByte.toNat ++ bytesBits (bs.unreadOf mem)

/-- The byte that is in `BS_CURBYTE` once every unread byte has been loaded. -/
def BitstreamState.lastOf (mem : Nat → Byte) (bs : BitstreamState) : Byte :=
  (bs.unreadOf mem).getLastD bs.currentByte

/-- The memory `rd` holds the unread bytes that `mem` gives. -/
def BitstreamState.Sees (rd : Nat → Option Byte) (mem : Nat → Byte) (bs : BitstreamState) : Prop :=
  ∀ a, bs.readIndex ≤ a → a < bs.size → rd a = some (mem a)

/-! ### The mask -/

theorem legalMasks_cases {P : Byte → Prop} {m : Byte} (hm : m ∈ legalMasks) (h0 : P 0x00) (h1 : P 0x01) (h2 : P 0x02)
    (h3 : P 0x04) (h4 : P 0x08) (h5 : P 0x10) (h6 : P 0x20) (h7 : P 0x40) (h8 : P 0x80) : P m := by
  simp only [legalMasks, List.mem_cons, List.not_mem_nil, or_false] at hm
  rcases hm with rfl | rfl | rfl | rfl | rfl | rfl | rfl | rfl | rfl <;> assumption

theorem bitsLeft_le (m : Byte) : bitsLeft m ≤ 8 :=
  le_trans (List.length_filter_le _ _) (by simp)

theorem bitsLeft_eq_zero {m : Byte} (hm : m ∈ legalMasks) : bitsLeft m = 0 ↔ m = 0x00 := by
  apply legalMasks_cases (P := fun m => bitsLeft m = 0 ↔ m = 0x00) hm <;> decide

/-- A mask of the reader is the power of two its count names. -/
theorem mask_of_bitsLeft {m : Byte} (hm : m ∈ legalMasks) :
    m = if bitsLeft m = 0 then 0x00 else BitVec.ofNat 8 (2 ^ (bitsLeft m - 1)) := by
  apply legalMasks_cases (P := fun m => m = if bitsLeft m = 0 then 0x00 else BitVec.ofNat 8 (2 ^ (bitsLeft m - 1))) hm <;>
    decide

theorem loaded_mem_legalMasks : (0x80 : Byte) ∈ legalMasks := by decide

theorem shift_mem_legalMasks {m : Byte} (hm : m ∈ legalMasks) : m >>> 1 ∈ legalMasks := by
  apply legalMasks_cases (P := fun m => m >>> 1 ∈ legalMasks) hm <;> decide

theorem bitsLeft_shift {m : Byte} (hm : m ∈ legalMasks) (h : m ≠ 0x00) : bitsLeft m = bitsLeft (m >>> 1) + 1 := by
  revert h
  apply legalMasks_cases (P := fun m => m ≠ 0x00 → bitsLeft m = bitsLeft (m >>> 1) + 1) hm <;> decide

/-- The bit the mask names is the next of the bits left. -/
theorem testBit_of_mask {m : Byte} (hm : m ∈ legalMasks) (h : m ≠ 0x00) (c : Byte) :
    c.toNat.testBit (bitsLeft (m >>> 1)) = decide (c &&& m ≠ 0) := by
  have key : ∀ k < 8, c.toNat.testBit k = decide (c &&& BitVec.twoPow 8 k ≠ 0) := by
    intro k hk
    rw [BitVec.and_twoPow, BitVec.testBit_toNat]
    by_cases hb : c.getLsbD k
    · have : BitVec.twoPow 8 k ≠ 0#8 := by
        intro e
        have := congrArg (fun v => v.getLsbD k) e
        simp [hk] at this
      simp [hb, this]
    · simp [hb]
  have e : m = BitVec.twoPow 8 (bitsLeft (m >>> 1)) ∧ bitsLeft (m >>> 1) < 8 := by
    revert h
    apply legalMasks_cases
      (P := fun m => m ≠ 0x00 → m = BitVec.twoPow 8 (bitsLeft (m >>> 1)) ∧ bitsLeft (m >>> 1) < 8) hm <;> decide
  rw [key _ e.2, ← e.1]

/-! ### One bit -/

theorem BitstreamState.unreadOf_of_lt {mem : Nat → Byte} {bs : BitstreamState} (h : bs.readIndex < bs.size) :
    bs.unreadOf mem = mem bs.readIndex :: (List.range (bs.size - (bs.readIndex + 1))).map
      fun i => mem (bs.readIndex + 1 + i) := by
  have e : bs.size - bs.readIndex = (bs.size - (bs.readIndex + 1)) + 1 := by omega
  simp [BitstreamState.unreadOf, e, List.range_succ_eq_map, Function.comp_def, Nat.add_assoc, Nat.add_comm 1]

/-- A load takes the first unread byte (R114, R115). -/
theorem BitstreamState.loadByte_spec {mem : Nat → Byte} {bs : BitstreamState} {q : Nat} (hok : bs.Ok q)
    (h : bs.readIndex < bs.size) :
    (bs.loadByte (mem bs.readIndex)).Ok q ∧
      bs.unreadOf mem = mem bs.readIndex :: (bs.loadByte (mem bs.readIndex)).unreadOf mem ∧
      (bs.loadByte (mem bs.readIndex)).currentByte = mem bs.readIndex ∧
      (bs.loadByte (mem bs.readIndex)).bitMask = 0x80 ∧
      (∀ rd, bs.Sees rd mem → (bs.loadByte (mem bs.readIndex)).Sees rd mem) := by
  obtain ⟨h1, h2, h3, h4⟩ := hok
  rw [BitstreamState.unreadOf_of_lt h]
  unfold BitstreamState.loadByte
  split
  · rename_i e
    refine ⟨⟨le_refl _, Nat.zero_le _, fun _ => rfl, loaded_mem_legalMasks⟩, ?_, rfl, rfl, ?_⟩
    · simp [BitstreamState.unreadOf, ← e]
    · intro rd _ a ha hb; simp at hb
  · rename_i e
    refine ⟨⟨by simp only; omega, h2, fun h => absurd h e, loaded_mem_legalMasks⟩, rfl, rfl, rfl, ?_⟩
    intro rd hs a ha hb
    exact hs a (by simp only at ha; omega) hb

/-- With a byte left in the stream, a byte can be loaded, and the stream stays what it was. -/
theorem BitstreamState.ensureLoaded_spec {rd : Nat → Option Byte} {mem : Nat → Byte} {bs : BitstreamState} {q : Nat}
    (hok : bs.Ok q) (hs : bs.Sees rd mem) (h : bs.streamOf mem ≠ []) :
    ∃ bs', bs.ensureLoaded rd = .ok bs' ∧ bs'.Ok q ∧ bs'.Sees rd mem ∧ bs'.bitMask ≠ 0x00 ∧
      bs'.streamOf mem = bs.streamOf mem ∧ bs'.lastOf mem = bs.lastOf mem := by
  by_cases hm : bs.bitMask = 0x00
  · have hlt : bs.readIndex < bs.size := by
      by_contra hc
      apply h
      have e : bs.size - bs.readIndex = 0 := by omega
      have e0 : bitsLeft 0x00#8 = 0 := by decide
      simp [BitstreamState.streamOf, BitstreamState.unreadOf, e, hm, e0, bitsOfNat]
    obtain ⟨h1, h2, h3, h4, h5⟩ := BitstreamState.loadByte_spec (mem := mem) hok hlt
    refine ⟨bs.loadByte (mem bs.readIndex), ?_, h1, h5 rd hs, by rw [h4]; decide, ?_, ?_⟩
    · rw [BitstreamState.ensureLoaded, if_pos hm, hs _ (le_refl _) hlt]
    · simp only [BitstreamState.streamOf, h2, h3, h4, hm, bytesBits_cons, byteBits]
      rfl
    · rw [BitstreamState.lastOf, BitstreamState.lastOf, h2, h3, List.getLastD_cons]
  · exact ⟨bs, by rw [BitstreamState.ensureLoaded, if_neg hm], hok, hs, hm, rfl, rfl⟩

/-- Taking one bit takes the head of the stream (R111). -/
theorem BitstreamState.advance_spec {mem : Nat → Byte} {bs : BitstreamState} {q : Nat} (hok : bs.Ok q)
    (hm : bs.bitMask ≠ 0x00) :
    bs.streamOf mem = decide (bs.currentBit = 1) :: bs.advance.streamOf mem ∧ bs.advance.Ok q ∧
      bs.advance.lastOf mem = bs.lastOf mem := by
  refine ⟨?_, ⟨hok.1, hok.2, hok.3, shift_mem_legalMasks hok.4⟩, rfl⟩
  have hb : decide (bs.currentBit = 1) = decide (bs.currentByte &&& bs.bitMask ≠ 0) := by
    unfold BitstreamState.currentBit
    split <;> simp_all
  rw [hb, ← testBit_of_mask hok.4 hm]
  simp only [BitstreamState.streamOf, bitsLeft_shift hok.4 hm, bitsOfNat]
  rfl

/-! ### The loop -/

theorem currentBit_eq (bs : BitstreamState) : bs.currentBit = (decide (bs.currentBit = 1)).toNat := by
  unfold BitstreamState.currentBit
  split <;> simp

theorem shiftLeft_or_bit (acc : Nat) (b : Bool) : (acc <<< 1) ||| b.toNat = 2 * acc + b.toNat := by
  have h : acc <<< 1 = 2 ^ 1 * acc := by rw [Nat.shiftLeft_eq]; ring
  have hb : b.toNat < 2 ^ 1 := by cases b <;> decide
  rw [h, ← Nat.two_pow_add_eq_or_of_lt hb acc]

/-- The loop of R110 takes `n` bits off the stream, most significant first (R111). -/
theorem getBitsLoop_spec {rd : Nat → Option Byte} {mem : Nat → Byte} {q : Nat} (n acc : Nat) (bs : BitstreamState)
    (hok : bs.Ok q) (hs : bs.Sees rd mem) (h : n ≤ (bs.streamOf mem).length) :
    ∃ bs', getBitsLoop rd n acc bs = .ok (acc * 2 ^ n + natOfBits ((bs.streamOf mem).take n), bs') ∧
      bs'.Ok q ∧ bs'.Sees rd mem ∧ bs'.streamOf mem = (bs.streamOf mem).drop n ∧ bs'.lastOf mem = bs.lastOf mem := by
  induction n generalizing acc bs with
  | zero => exact ⟨bs, by simp [getBitsLoop, natOfBits], hok, hs, by simp, rfl⟩
  | succ n ih =>
    have hne : bs.streamOf mem ≠ [] := by
      intro e; simp [e] at h
    obtain ⟨b1, e1, ok1, s1, m1, st1, l1⟩ := BitstreamState.ensureLoaded_spec hok hs hne
    obtain ⟨hst, ok2, l2⟩ := BitstreamState.advance_spec (mem := mem) ok1 m1
    have s2 : b1.advance.Sees rd mem := s1
    have hlen : n ≤ (b1.advance.streamOf mem).length := by
      have := congrArg List.length hst
      rw [st1] at this
      simp only [List.length_cons] at this
      omega
    obtain ⟨b3, e3, ok3, s3, st3, l3⟩ := ih ((acc <<< 1) ||| b1.currentBit) b1.advance ok2 s2 hlen
    refine ⟨b3, ?_, ok3, s3, ?_, by rw [l3, l2, l1]⟩
    · simp only [getBitsLoop, e1, e3]
      have htake : ((b1.advance.streamOf mem).take n).length = n := by simp [hlen]
      rw [← st1, hst, List.take_succ_cons, natOfBits, htake]
      congr 2
      conv_lhs => rw [currentBit_eq b1]
      rw [shiftLeft_or_bit, pow_succ]
      ring
    · rw [st3, ← st1, hst, List.drop_succ_cons]

/-- AVAIL is the length of the stream (R27). -/
theorem BitstreamState.avail_eq {mem : Nat → Byte} {bs : BitstreamState} {q : Nat} (hok : bs.Ok q) :
    bs.avail = (bs.streamOf mem).length := by
  have := hok.1
  simp [BitstreamState.avail, BitstreamState.unreadCount, BitstreamState.streamOf, BitstreamState.unreadOf]
  omega

/-- `getBits` with a legal width: NOBITS when the stream is too short, else exactly the next bits, in order. -/
theorem BitstreamState.getBits_spec {rd : Nat → Option Byte} {mem : Nat → Byte} {q : Nat} {bs : BitstreamState}
    (hok : bs.Ok q) (hs : bs.Sees rd mem) {n : Nat} (h1 : 1 ≤ n) (h15 : n ≤ 15) :
    ((bs.streamOf mem).length < n ∧ bs.getBits rd n = .nobits) ∨
    (n ≤ (bs.streamOf mem).length ∧ ∃ bs', bs.getBits rd n = .value (natOfBits ((bs.streamOf mem).take n)) bs' ∧
      bs'.Ok q ∧ bs'.streamOf mem = (bs.streamOf mem).drop n ∧ bs'.lastOf mem = bs.lastOf mem) := by
  have hw : ¬(n < 1 ∨ 15 < n) := by omega
  rw [BitstreamState.getBits, if_neg hw, BitstreamState.avail_eq (mem := mem) hok]
  by_cases h : (bs.streamOf mem).length < n
  · exact .inl ⟨h, by rw [if_pos (by exact_mod_cast h)]⟩
  · obtain ⟨bs', e, ok', -, st', l'⟩ := getBitsLoop_spec n 0 bs hok hs (by omega)
    refine .inr ⟨by omega, bs', ?_, ok', st', l'⟩
    rw [if_neg (by exact_mod_cast h), e]
    simp

/-- A width outside 1..15 is an error, whatever is available (R204, D23). -/
theorem BitstreamState.getBits_width {rd : Nat → Option Byte} {bs : BitstreamState} {n : Nat} (h : n < 1 ∨ 15 < n) :
    bs.getBits rd n = .widthError := by
  rw [BitstreamState.getBits, if_pos h]

/-! ### On the block -/

theorem Block.Inv.bsOk {b : Block} (h : b.Inv) : b.bs.Ok b.cfgQ := ⟨h.readIndex_le, h.size_le, h.drained, h.mask⟩

theorem Block.stream_eq (b : Block) : b.stream = b.bs.streamOf b.inq.read := rfl

theorem Block.sees {b : Block} (h : b.bs.size ≤ b.cfgQ) : b.bs.Sees b.inqByte b.inq.read := by
  intro a _ ha
  rw [Block.inqByte, if_pos (by omega)]

/-- The byte `BS_CURBYTE` holds once the queue is drained. -/
def Block.lastByte (b : Block) : Byte := b.bs.lastOf b.inq.read

/-- `getBits` on a block: all or nothing, and then exactly the next bits of the stream. -/
theorem Block.getBits_spec {b : Block} (hok : b.bs.Ok b.cfgQ) {n : Nat} (h1 : 1 ≤ n) (h15 : n ≤ 15) :
    (b.stream.length < n ∧ b.getBits n = .nobits) ∨
    (n ≤ b.stream.length ∧ ∃ bs', b.getBits n = .value (natOfBits (b.stream.take n)) bs' ∧ bs'.Ok b.cfgQ ∧
      (b.setCursor bs').stream = b.stream.drop n ∧ (b.setCursor bs').lastByte = b.lastByte) :=
  BitstreamState.getBits_spec hok (Block.sees hok.size_le) h1 h15

/-- AVAIL is the number of bits the stream still has (R27). -/
theorem Block.avail_eq {b : Block} (hok : b.bs.Ok b.cfgQ) : b.bs.avail = b.stream.length :=
  BitstreamState.avail_eq hok

end Sys2Proof.Machine
end

