-- ==== Sys2Proof/Laws/State.lean ====
section
/-! SUPPORT. One lemma per field and update of the block, and what the updates leave of the parameters: no later proof unfolds
a record update. -/

namespace Sys2Proof.Machine

/-! ### setCursor -/

@[simp] theorem Block.setCursor_cfgW (b : Block) (bs : BitstreamState) :
    (b.setCursor bs).cfgW = b.cfgW := rfl

@[simp] theorem Block.setCursor_cfgL (b : Block) (bs : BitstreamState) :
    (b.setCursor bs).cfgL = b.cfgL := rfl

@[simp] theorem Block.setCursor_cfgQ (b : Block) (bs : BitstreamState) :
    (b.setCursor bs).cfgQ = b.cfgQ := rfl

@[simp] theorem Block.setCursor_state (b : Block) (bs : BitstreamState) :
    (b.setCursor bs).state = b.state := rfl

@[simp] theorem Block.setCursor_bs (b : Block) (bs : BitstreamState) :
    (b.setCursor bs).bs = bs := rfl

@[simp] theorem Block.setCursor_inq (b : Block) (bs : BitstreamState) :
    (b.setCursor bs).inq = b.inq := rfl

@[simp] theorem Block.setCursor_outIndex (b : Block) (bs : BitstreamState) :
    (b.setCursor bs).outIndex = b.outIndex := rfl

@[simp] theorem Block.setCursor_outCount (b : Block) (bs : BitstreamState) :
    (b.setCursor bs).outCount = b.outCount := rfl

@[simp] theorem Block.setCursor_headReg (b : Block) (bs : BitstreamState) :
    (b.setCursor bs).headReg = b.headReg := rfl

@[simp] theorem Block.setCursor_win (b : Block) (bs : BitstreamState) :
    (b.setCursor bs).win = b.win := rfl

@[simp] theorem Block.setCursor_out (b : Block) (bs : BitstreamState) :
    (b.setCursor bs).out = b.out := rfl

@[simp] theorem Block.setCursor_outCap (b : Block) (bs : BitstreamState) :
    (b.setCursor bs).outCap = b.outCap := rfl

@[simp] theorem Block.setCursor_fault (b : Block) (bs : BitstreamState) :
    (b.setCursor bs).fault = b.fault := rfl

@[simp] theorem Block.setCursor_W (b : Block) (bs : BitstreamState) : (b.setCursor bs).W = b.W := rfl

@[simp] theorem Block.setCursor_L (b : Block) (bs : BitstreamState) : (b.setCursor bs).L = b.L := rfl

@[simp] theorem Block.setCursor_N (b : Block) (bs : BitstreamState) : (b.setCursor bs).N = b.N := rfl

/-! ### store -/

@[simp] theorem Block.store_cfgW (b : Block) (v : Byte) :
    (b.store v).cfgW = b.cfgW := rfl

@[simp] theorem Block.store_cfgL (b : Block) (v : Byte) :
    (b.store v).cfgL = b.cfgL := rfl

@[simp] theorem Block.store_cfgQ (b : Block) (v : Byte) :
    (b.store v).cfgQ = b.cfgQ := rfl

@[simp] theorem Block.store_state (b : Block) (v : Byte) :
    (b.store v).state = b.state := rfl

@[simp] theorem Block.store_bs (b : Block) (v : Byte) :
    (b.store v).bs = b.bs := rfl

@[simp] theorem Block.store_inq (b : Block) (v : Byte) :
    (b.store v).inq = b.inq := rfl

@[simp] theorem Block.store_outIndex (b : Block) (v : Byte) :
    (b.store v).outIndex = b.outIndex := rfl

@[simp] theorem Block.store_outCount (b : Block) (v : Byte) :
    (b.store v).outCount = b.outCount := rfl

@[simp] theorem Block.store_headReg (b : Block) (v : Byte) :
    (b.store v).headReg = BitVec.ofNat 15 ((b.head + 1) % b.N) := rfl

@[simp] theorem Block.store_win (b : Block) (v : Byte) :
    (b.store v).win = b.win.write b.head v := rfl

@[simp] theorem Block.store_out (b : Block) (v : Byte) :
    (b.store v).out = b.out := rfl

@[simp] theorem Block.store_outCap (b : Block) (v : Byte) :
    (b.store v).outCap = b.outCap := rfl

@[simp] theorem Block.store_fault (b : Block) (v : Byte) :
    (b.store v).fault = b.fault := rfl

@[simp] theorem Block.store_W (b : Block) (v : Byte) : (b.store v).W = b.W := rfl

@[simp] theorem Block.store_L (b : Block) (v : Byte) : (b.store v).L = b.L := rfl

@[simp] theorem Block.store_N (b : Block) (v : Byte) : (b.store v).N = b.N := rfl

/-! ### emit -/

@[simp] theorem Block.emit_cfgW (b : Block) (v : Byte) :
    (b.emit v).cfgW = b.cfgW := rfl

@[simp] theorem Block.emit_cfgL (b : Block) (v : Byte) :
    (b.emit v).cfgL = b.cfgL := rfl

@[simp] theorem Block.emit_cfgQ (b : Block) (v : Byte) :
    (b.emit v).cfgQ = b.cfgQ := rfl

@[simp] theorem Block.emit_state (b : Block) (v : Byte) :
    (b.emit v).state = b.state := rfl

@[simp] theorem Block.emit_bs (b : Block) (v : Byte) :
    (b.emit v).bs = b.bs := rfl

@[simp] theorem Block.emit_inq (b : Block) (v : Byte) :
    (b.emit v).inq = b.inq := rfl

@[simp] theorem Block.emit_outIndex (b : Block) (v : Byte) :
    (b.emit v).outIndex = b.outIndex := rfl

@[simp] theorem Block.emit_outCount (b : Block) (v : Byte) :
    (b.emit v).outCount = b.outCount := rfl

@[simp] theorem Block.emit_headReg (b : Block) (v : Byte) :
    (b.emit v).headReg = b.headReg := rfl

@[simp] theorem Block.emit_win (b : Block) (v : Byte) :
    (b.emit v).win = b.win := rfl

@[simp] theorem Block.emit_out (b : Block) (v : Byte) :
    (b.emit v).out = b.out ++ [v] := rfl

@[simp] theorem Block.emit_outCap (b : Block) (v : Byte) :
    (b.emit v).outCap = if b.out.length = b.outCap then 2 * b.outCap else b.outCap := rfl

@[simp] theorem Block.emit_fault (b : Block) (v : Byte) :
    (b.emit v).fault = b.fault := rfl

@[simp] theorem Block.emit_W (b : Block) (v : Byte) : (b.emit v).W = b.W := rfl

@[simp] theorem Block.emit_L (b : Block) (v : Byte) : (b.emit v).L = b.L := rfl

@[simp] theorem Block.emit_N (b : Block) (v : Byte) : (b.emit v).N = b.N := rfl

/-! ### emitStore -/

@[simp] theorem Block.emitStore_cfgW (b : Block) (v : Byte) :
    (b.emitStore v).cfgW = b.cfgW := rfl

@[simp] theorem Block.emitStore_cfgL (b : Block) (v : Byte) :
    (b.emitStore v).cfgL = b.cfgL := rfl

@[simp] theorem Block.emitStore_cfgQ (b : Block) (v : Byte) :
    (b.emitStore v).cfgQ = b.cfgQ := rfl

@[simp] theorem Block.emitStore_state (b : Block) (v : Byte) :
    (b.emitStore v).state = b.state := rfl

@[simp] theorem Block.emitStore_bs (b : Block) (v : Byte) :
    (b.emitStore v).bs = b.bs := rfl

@[simp] theorem Block.emitStore_inq (b : Block) (v : Byte) :
    (b.emitStore v).inq = b.inq := rfl

@[simp] theorem Block.emitStore_outIndex (b : Block) (v : Byte) :
    (b.emitStore v).outIndex = b.outIndex := rfl

@[simp] theorem Block.emitStore_outCount (b : Block) (v : Byte) :
    (b.emitStore v).outCount = b.outCount := rfl

@[simp] theorem Block.emitStore_headReg (b : Block) (v : Byte) :
    (b.emitStore v).headReg = BitVec.ofNat 15 ((b.head + 1) % b.N) := rfl

@[simp] theorem Block.emitStore_win (b : Block) (v : Byte) :
    (b.emitStore v).win = b.win.write b.head v := rfl

@[simp] theorem Block.emitStore_out (b : Block) (v : Byte) :
    (b.emitStore v).out = b.out ++ [v] := rfl

@[simp] theorem Block.emitStore_outCap (b : Block) (v : Byte) :
    (b.emitStore v).outCap = if b.out.length = b.outCap then 2 * b.outCap else b.outCap := rfl

@[simp] theorem Block.emitStore_fault (b : Block) (v : Byte) :
    (b.emitStore v).fault = b.fault := rfl

@[simp] theorem Block.emitStore_W (b : Block) (v : Byte) : (b.emitStore v).W = b.W := rfl

@[simp] theorem Block.emitStore_L (b : Block) (v : Byte) : (b.emitStore v).L = b.L := rfl

@[simp] theorem Block.emitStore_N (b : Block) (v : Byte) : (b.emitStore v).N = b.N := rfl

/-! ### raise -/

@[simp] theorem Block.raise_cfgW (b : Block) (c : Cause) :
    (b.raise c).cfgW = b.cfgW := rfl

@[simp] theorem Block.raise_cfgL (b : Block) (c : Cause) :
    (b.raise c).cfgL = b.cfgL := rfl

@[simp] theorem Block.raise_cfgQ (b : Block) (c : Cause) :
    (b.raise c).cfgQ = b.cfgQ := rfl

@[simp] theorem Block.raise_state (b : Block) (c : Cause) :
    (b.raise c).state = b.state := rfl

@[simp] theorem Block.raise_bs (b : Block) (c : Cause) :
    (b.raise c).bs = b.bs := rfl

@[simp] theorem Block.raise_inq (b : Block) (c : Cause) :
    (b.raise c).inq = b.inq := rfl

@[simp] theorem Block.raise_outIndex (b : Block) (c : Cause) :
    (b.raise c).outIndex = b.outIndex := rfl

@[simp] theorem Block.raise_outCount (b : Block) (c : Cause) :
    (b.raise c).outCount = b.outCount := rfl

@[simp] theorem Block.raise_headReg (b : Block) (c : Cause) :
    (b.raise c).headReg = b.headReg := rfl

@[simp] theorem Block.raise_win (b : Block) (c : Cause) :
    (b.raise c).win = b.win := rfl

@[simp] theorem Block.raise_out (b : Block) (c : Cause) :
    (b.raise c).out = b.out := rfl

@[simp] theorem Block.raise_outCap (b : Block) (c : Cause) :
    (b.raise c).outCap = b.outCap := rfl

@[simp] theorem Block.raise_fault (b : Block) (c : Cause) :
    (b.raise c).fault = { valid := true, kind := c.kind, cause := c.code } := rfl

@[simp] theorem Block.raise_W (b : Block) (c : Cause) : (b.raise c).W = b.W := rfl

@[simp] theorem Block.raise_L (b : Block) (c : Cause) : (b.raise c).L = b.L := rfl

@[simp] theorem Block.raise_N (b : Block) (c : Cause) : (b.raise c).N = b.N := rfl

/-! ### enqueue -/

@[simp] theorem Block.enqueue_cfgW (b : Block) (vs : List Byte) :
    (b.enqueue vs).cfgW = b.cfgW := rfl

@[simp] theorem Block.enqueue_cfgL (b : Block) (vs : List Byte) :
    (b.enqueue vs).cfgL = b.cfgL := rfl

@[simp] theorem Block.enqueue_cfgQ (b : Block) (vs : List Byte) :
    (b.enqueue vs).cfgQ = b.cfgQ := rfl

@[simp] theorem Block.enqueue_state (b : Block) (vs : List Byte) :
    (b.enqueue vs).state = b.state := rfl

@[simp] theorem Block.enqueue_bs (b : Block) (vs : List Byte) :
    (b.enqueue vs).bs = { b.bs with size := b.bs.size + vs.length } := rfl

@[simp] theorem Block.enqueue_inq (b : Block) (vs : List Byte) :
    (b.enqueue vs).inq = b.inq.writeBytes b.bs.size vs := rfl

@[simp] theorem Block.enqueue_outIndex (b : Block) (vs : List Byte) :
    (b.enqueue vs).outIndex = b.outIndex := rfl

@[simp] theorem Block.enqueue_outCount (b : Block) (vs : List Byte) :
    (b.enqueue vs).outCount = b.outCount := rfl

@[simp] theorem Block.enqueue_headReg (b : Block) (vs : List Byte) :
    (b.enqueue vs).headReg = b.headReg := rfl

@[simp] theorem Block.enqueue_win (b : Block) (vs : List Byte) :
    (b.enqueue vs).win = b.win := rfl

@[simp] theorem Block.enqueue_out (b : Block) (vs : List Byte) :
    (b.enqueue vs).out = b.out := rfl

@[simp] theorem Block.enqueue_outCap (b : Block) (vs : List Byte) :
    (b.enqueue vs).outCap = b.outCap := rfl

@[simp] theorem Block.enqueue_fault (b : Block) (vs : List Byte) :
    (b.enqueue vs).fault = b.fault := rfl

@[simp] theorem Block.enqueue_W (b : Block) (vs : List Byte) : (b.enqueue vs).W = b.W := rfl

@[simp] theorem Block.enqueue_L (b : Block) (vs : List Byte) : (b.enqueue vs).L = b.L := rfl

@[simp] theorem Block.enqueue_N (b : Block) (vs : List Byte) : (b.enqueue vs).N = b.N := rfl

/-! ### A cursor over a cursor -/

@[simp] theorem Block.setCursor_setCursor (b : Block) (x y : BitstreamState) :
    (b.setCursor x).setCursor y = b.setCursor y := rfl

@[simp] theorem Block.setCursor_self (b : Block) : b.setCursor b.bs = b := rfl

/-! ### The machine's state -/

@[simp] theorem State.answer_eq (s : State) (b : Block) (r : CallOutcome) :
    s.answer b r = .next { s with block := some b, reply := some r } := rfl

theorem State.withBlock_some {s : State} {b : Block} (h : s.block = some b) (f : Block → StepOutcome) :
    s.withBlock f = f b := by rw [State.withBlock, h]

theorem State.withBlock_none {s : State} (h : s.block = none) (f : Block → StepOutcome) :
    s.withBlock f = .refused .noBlock := by rw [State.withBlock, h]

theorem State.withLiveBlock_live {s : State} {b : Block} (h : s.block = some b) (hl : b.fault.valid = false)
    (f : Block → StepOutcome) : s.withLiveBlock f = f b := by
  rw [State.withLiveBlock, State.withBlock_some h, hl]; rfl

theorem State.withLiveBlock_faulted {s : State} {b : Block} (h : s.block = some b) (hf : b.fault.valid = true)
    (f : Block → StepOutcome) : s.withLiveBlock f = .next { s with reply := some .refusedFaulted } := by
  rw [State.withLiveBlock, State.withBlock_some h, hf]; rfl

end Sys2Proof.Machine
end

