-- ==== Sys2Proof/Laws/Window.lean ====
section
/-! SUPPORT. The window and the OutputSink: what `store`, `Emit` and the copy loop do (R130 to R132, R147, R157, R184). -/

namespace Sys2Proof.Machine

/-- The window part of the invariant (R40 I7, R33). -/
structure Block.WindowOk (b : Block) : Prop where
  head : b.headReg.toNat < b.N
  wf : b.win.wf
  inRange : b.win.inRange b.N

theorem Block.Inv.windowOk {b : Block} (h : b.Inv) : b.WindowOk := ⟨h.head, h.win.1, h.win.2⟩

theorem Block.W_lt (b : Block) : b.W < 16 := b.cfgW.isLt

theorem Block.L_lt (b : Block) : b.L < 16 := b.cfgL.isLt

theorem Block.N_pos (b : Block) : 0 < b.N := Nat.two_pow_pos _

theorem Block.N_le (b : Block) : b.N ≤ 2 ^ 15 := Nat.pow_le_pow_right (by decide) (by have := b.W_lt; omega)

theorem Block.head_lt (b : Block) : b.head < b.N := Nat.mod_lt _ b.N_pos

theorem Block.WindowOk.head_eq {b : Block} (h : b.WindowOk) : b.head = b.headReg.toNat := Nat.mod_eq_of_lt h.head

theorem headReg_toNat {b : Block} {n : Nat} (h : n < b.N) : (BitVec.ofNat 15 n).toNat = n := by
  have := b.N_le
  simp only [BitVec.toNat_ofNat]
  exact Nat.mod_eq_of_lt (by omega)

/-! ### store -/

theorem Block.store_headReg_toNat (b : Block) (v : Byte) : (b.store v).headReg.toNat = (b.head + 1) % b.N :=
  headReg_toNat (Nat.mod_lt _ b.N_pos)

theorem Block.store_head (b : Block) (v : Byte) : (b.store v).head = (b.head + 1) % b.N := by
  rw [Block.head, Block.store_headReg_toNat, Block.store_N, Nat.mod_mod]

theorem Block.store_windowOk {b : Block} (h : b.WindowOk) (v : Byte) : (b.store v).WindowOk where
  head := by rw [Block.store_headReg_toNat]; exact Nat.mod_lt _ b.N_pos
  wf := Memory.write_wf h.wf _ _
  inRange := Memory.write_inRange h.inRange b.head_lt

/-- `store` writes one cell (R130). -/
theorem Block.store_read {b : Block} (h : b.WindowOk) (v : Byte) (a : Nat) :
    (b.store v).win.read a = if a = b.head then v else b.win.read a :=
  Memory.read_write h.wf _ _ _

/-- Where distance `d` lies: `(head − d) mod n`, as naturals. -/
theorem distance_eq {n head d : Nat} (hh : head < n) (hd : d ≤ n) :
    (((head : Int) - d) % n).toNat = if d ≤ head then head - d else head + n - d := by
  split
  · rw [show ((head : Int) - d) = ((head - d : Nat) : Int) by omega, ← Int.natCast_emod, Int.toNat_natCast,
      Nat.mod_eq_of_lt (by omega)]
  · rw [← Int.add_emod_right, show ((head : Int) - d + n) = ((head + n - d : Nat) : Int) by omega, ← Int.natCast_emod,
      Int.toNat_natCast, Nat.mod_eq_of_lt (by omega)]

theorem Block.winRead_eq (b : Block) {d : Nat} (hd : d ≤ b.N) :
    b.winRead d = b.win.read (if d ≤ b.head then b.head - d else b.head + b.N - d) := by
  rw [Block.winRead, readUnit, distance_eq b.head_lt hd]

/-- After a store, distance 1 is the stored byte and every other distance has grown by one (R132). -/
theorem Block.winRead_store {b : Block} (h : b.WindowOk) (v : Byte) {d : Nat} (h1 : 1 ≤ d) (hd : d ≤ b.N) :
    (b.store v).winRead d = if d = 1 then v else b.winRead (d - 1) := by
  have hh := b.head_lt
  have hN : (b.store v).N = b.N := rfl
  rw [Block.winRead_eq _ (by rw [hN]; exact hd), Block.store_read h, Block.store_head, hN,
    Block.winRead_eq b (show d - 1 ≤ b.N by omega)]
  have hmod : (b.head + 1) % b.N = if b.head + 1 = b.N then 0 else b.head + 1 := by
    split
    · rename_i e; rw [e, Nat.mod_self]
    · exact Nat.mod_eq_of_lt (by omega)
  rw [hmod]
  by_cases hd1 : d = 1
  · subst hd1
    rw [if_pos rfl, if_pos]
    split_ifs <;> omega
  · rw [if_neg hd1, if_neg]
    · congr 1
      split_ifs <;> omega
    · split_ifs <;> omega

/-! ### Emit -/

@[simp] theorem Block.emit_winRead (b : Block) (v : Byte) (d : Nat) : (b.emit v).winRead d = b.winRead d := rfl

theorem Block.emitStore_windowOk {b : Block} (h : b.WindowOk) (v : Byte) : (b.emitStore v).WindowOk :=
  Block.store_windowOk (b := b.emit v) ⟨h.head, h.wf, h.inRange⟩ v

theorem Block.winRead_emitStore {b : Block} (h : b.WindowOk) (v : Byte) {d : Nat} (h1 : 1 ≤ d) (hd : d ≤ b.N) :
    (b.emitStore v).winRead d = if d = 1 then v else b.winRead (d - 1) :=
  Block.winRead_store (b := b.emit v) ⟨h.head, h.wf, h.inRange⟩ v h1 hd

/-- The sink keeps room for its content (R184). -/
theorem Block.emit_sink {b : Block} (v : Byte) (h : 1 ≤ b.outCap ∧ b.out.length ≤ b.outCap) :
    1 ≤ (b.emit v).outCap ∧ (b.emit v).out.length ≤ (b.emit v).outCap := by
  simp only [Block.emit, List.length_append, List.length_singleton]
  split <;> omega

/-! ### What was emitted was stored -/

theorem capAfter_add (m n size cap : Nat) : capAfter (m + n) size cap = capAfter n (size + m) (capAfter m size cap) := by
  induction m generalizing size cap with
  | zero => simp [capAfter]
  | succ m ih => rw [Nat.add_right_comm, capAfter, ih, capAfter, Nat.add_right_comm, Nat.add_assoc]

theorem Block.Emitted.refl (b : Block) : b.Emitted b [] where
  out := by simp
  cap := rfl
  frame _ _ := rfl
  head := by simp [Nat.mod_eq_of_lt b.head_lt]
  recent d h1 _ := by simp; intro e; omega

/-- One byte emitted and stored (R142, R147). -/
theorem Block.Emitted.emitStore {b : Block} (h : b.WindowOk) (v : Byte) : b.Emitted (b.emitStore v) [v] where
  out := rfl
  cap := rfl
  frame a ha := by
    have e : a ≠ b.head := by
      have := ha 0 (by simp)
      rwa [Nat.add_zero, Nat.mod_eq_of_lt b.head_lt] at this
    show (Memory.write b.win b.head v).read a = b.win.read a
    rw [Memory.read_write h.wf, if_neg e]
  head := Block.store_head (b.emit v) v
  recent d h1 hd := by
    rw [Block.winRead_emitStore h v h1 hd]
    by_cases e : d = 1
    · simp [e]
    · rw [if_neg e, if_neg (by simp; omega)]
      rfl

/-- Emissions follow one another. -/
theorem Block.Emitted.trans {a b c : Block} {o p : List Byte} (hN : b.N = a.N) (h1 : a.Emitted b o)
    (h2 : b.Emitted c p) : a.Emitted c (o ++ p) where
  out := by rw [h2.out, h1.out, List.append_assoc]
  cap := by
    rw [h2.cap, h1.cap, List.length_append, capAfter_add, Block.outSize, h1.out, List.length_append]
    rfl
  frame x hx := by
    rw [List.length_append] at hx
    rw [h2.frame x, h1.frame x fun j hj => hx j (by omega)]
    intro j hj
    rw [h1.head, hN, Nat.mod_add_mod, Nat.add_assoc]
    exact hx (o.length + j) (by omega)
  head := by
    rw [h2.head, h1.head, hN, List.length_append, Nat.mod_add_mod, Nat.add_assoc]
  recent d hd1 hd := by
    rw [h2.recent d hd1 (by rw [hN]; exact hd), List.length_append]
    by_cases e : d ≤ p.length
    · rw [if_pos e, if_pos (by omega)]
      rw [List.getD_eq_getElem?_getD, List.getD_eq_getElem?_getD, List.getElem?_append_right (by omega)]
      congr 2
      omega
    · rw [if_neg e, h1.recent (d - p.length) (by omega) (by omega)]
      by_cases e2 : d ≤ o.length + p.length
      · rw [if_pos (by omega), if_pos e2, List.getD_eq_getElem?_getD, List.getD_eq_getElem?_getD,
          List.getElem?_append_left (by omega)]
        congr 2
        omega
      · rw [if_neg (by omega), if_neg e2]
        congr 1
        omega

/-- Emission looks only at the window, the head, the output and `N`. -/
theorem Block.Emitted.congr {a b c : Block} {o : List Byte} (h : a.Emitted b o) (hout : c.out = b.out)
    (hcap : c.outCap = b.outCap) (hwin : c.win = b.win) (hhead : c.head = b.head)
    (hread : ∀ d, c.winRead d = b.winRead d) : a.Emitted c o where
  out := by rw [hout, h.out]
  cap := by rw [hcap, h.cap]
  frame x hx := by rw [hwin, h.frame x hx]
  head := by rw [hhead, h.head]
  recent d h1 hd := by rw [hread, h.recent d h1 hd]

/-! ### The copy loop -/

/-- The fields the copy loop leaves (R147). -/
structure Block.SameButOutput (a b : Block) : Prop where
  cfgW : b.cfgW = a.cfgW
  cfgL : b.cfgL = a.cfgL
  cfgQ : b.cfgQ = a.cfgQ
  state : b.state = a.state
  bs : b.bs = a.bs
  inq : b.inq = a.inq
  outIndex : b.outIndex = a.outIndex
  outCount : b.outCount = a.outCount
  fault : b.fault = a.fault

theorem Block.copyRun_frame (n : Nat) (b : Block) : b.SameButOutput (b.copyRun n) := by
  induction n generalizing b with
  | zero => exact ⟨rfl, rfl, rfl, rfl, rfl, rfl, rfl, rfl, rfl⟩
  | succ n ih =>
    have h := ih (b.emitStore (b.winRead b.outIndex.toNat))
    exact ⟨h.1, h.2, h.3, h.4, h.5, h.6, h.7, h.8, h.9⟩

theorem Block.copyRun_windowOk (n : Nat) {b : Block} (h : b.WindowOk) : (b.copyRun n).WindowOk := by
  induction n generalizing b with
  | zero => exact h
  | succ n ih => exact ih (Block.emitStore_windowOk h _)

theorem Block.copyRun_sink (n : Nat) {b : Block} (h : 1 ≤ b.outCap ∧ b.out.length ≤ b.outCap) :
    1 ≤ (b.copyRun n).outCap ∧ (b.copyRun n).out.length ≤ (b.copyRun n).outCap := by
  induction n generalizing b with
  | zero => exact h
  | succ n ih => exact ih (Block.emit_sink (b := b) _ h)

/-- The copy loop emits and stores exactly `n` bytes, the run of its distance (R147, R157). -/
theorem Block.copyRun_spec (n : Nat) {b : Block} (h : b.WindowOk) (h1 : 1 ≤ b.outIndex.toNat)
    (hN : b.outIndex.toNat ≤ b.N) :
    ∃ o, o.length = n ∧ b.Emitted (b.copyRun n) o ∧ b.IsRun b.outIndex.toNat o := by
  induction n generalizing b with
  | zero => exact ⟨[], rfl, Block.Emitted.refl b, fun j a b => by simp at b; omega⟩
  | succ n ih =>
    have h' := Block.emitStore_windowOk h (b.winRead b.outIndex.toNat)
    obtain ⟨o, hl, he, hr⟩ := ih (b := b.emitStore (b.winRead b.outIndex.toNat)) h' h1 hN
    refine ⟨b.winRead b.outIndex.toNat :: o, by simp [hl], ?_, ?_⟩
    · exact Block.Emitted.trans (a := b) (b := b.emitStore (b.winRead b.outIndex.toNat)) rfl
        (Block.Emitted.emitStore h _) he
    · rw [Block.emitStore_outIndex] at hr
      intro j hj1 hj
      by_cases e : j = 1
      · subst e
        rw [if_pos h1]
        simp only [List.getD_cons_zero, Nat.sub_self]
        congr 1
        omega
      · obtain ⟨i, rfl⟩ : ∃ i, j = i + 2 := ⟨j - 2, by omega⟩
        have hi := hr (i + 1) (by omega) (by simp at hj; omega)
        simp only [Nat.add_sub_cancel] at hi
        rw [show i + 2 - 1 = i + 1 from rfl, List.getD_cons_succ, hi]
        by_cases e1 : i + 1 ≤ b.outIndex.toNat
        · rw [if_pos e1, Block.winRead_emitStore h _ (by omega) (by omega)]
          by_cases e2 : i + 1 = b.outIndex.toNat
          · rw [if_pos (by omega), if_neg (by omega), show i + 2 - b.outIndex.toNat - 1 = 0 by omega]
            rfl
          · rw [if_neg (by omega), if_pos (by omega)]
            congr 1
            omega
        · rw [if_neg e1, if_neg (by omega),
            show i + 2 - b.outIndex.toNat - 1 = (i + 1 - b.outIndex.toNat - 1) + 1 by omega, List.getD_cons_succ]

end Sys2Proof.Machine
end

