-- ==== Sys2Proof/Laws/Fsm.lean ====
section
/-! SUPPORT. One step of the state machine: the three things it can do on a block that meets the invariants (R140 to R148),
what it leaves alone, and that it keeps the invariants (R40). -/

namespace Sys2Proof.Machine

/-! ### The accumulators (R84, R35) -/

theorem accumulateMsb_toNat {m n : Nat} (hn : n ≤ 15) (h8 : 8 < n) (hm : m < 2 ^ (n - 8)) :
    (accumulateMsb m).toNat = m * 256 ∧ m * 256 < 2 ^ n := by
  have hpow : 2 ^ n = 2 ^ (n - 8) * 256 := by
    rw [show (256 : Nat) = 2 ^ 8 by decide, ← pow_add]; congr 1; omega
  have hle : 2 ^ n ≤ 2 ^ 15 := Nat.pow_le_pow_right (by decide) hn
  have hlt : m * 256 < 2 ^ n := by rw [hpow]; omega
  refine ⟨?_, hlt⟩
  rw [accumulateMsb, BitVec.toNat_shiftLeft, BitVec.toNat_ofNat, Nat.shiftLeft_eq]
  rw [Nat.mod_eq_of_lt (a := m) (by omega), Nat.mod_eq_of_lt (by omega)]

theorem accumulateLsb_toNat {acc : Half} {l n : Nat} (hn : n ≤ 15) (ha : awaitsLsb n acc) (hl : l < 2 ^ min n 8) :
    (accumulateLsb acc l).toNat = acc.toNat + l + 1 ∧ acc.toNat + l + 1 ≤ 2 ^ n := by
  have hle : 2 ^ n ≤ 2 ^ 15 := Nat.pow_le_pow_right (by decide) hn
  have key : acc.toNat ||| l = acc.toNat + l ∧ acc.toNat + l + 1 ≤ 2 ^ n ∧ l < 65536 := by
    unfold awaitsLsb at ha
    split at ha
    · rename_i h8
      rw [min_eq_right (by omega)] at hl
      have hdvd : (256 : Nat) ∣ 2 ^ n :=
        ⟨2 ^ (n - 8), by rw [show (256 : Nat) = 2 ^ 8 by decide, ← pow_add]; congr 1; omega⟩
      have e : acc.toNat = 2 ^ 8 * (acc.toNat / 256) := by omega
      refine ⟨?_, by omega, by omega⟩
      rw [e, ← Nat.two_pow_add_eq_or_of_lt hl]
    · rename_i h8
      rw [min_eq_left (by omega)] at hl
      subst ha
      simp
      omega
  obtain ⟨h1, h2, h3⟩ := key
  refine ⟨?_, h2⟩
  rw [accumulateLsb, BitVec.toNat_add, BitVec.toNat_or, BitVec.toNat_ofNat, Nat.mod_eq_of_lt (a := l) (by omega), h1]
  show (acc.toNat + l + 1) % 65536 = acc.toNat + l + 1
  omega

/-! ### What a chunk does to the block -/

/-- The fields no chunk touches (R38, R72). -/
theorem Block.afterChunk_frame (b : Block) (v : Nat) :
    (b.afterChunk v).cfgW = b.cfgW ∧ (b.afterChunk v).cfgL = b.cfgL ∧ (b.afterChunk v).cfgQ = b.cfgQ ∧
      (b.afterChunk v).bs = b.bs ∧ (b.afterChunk v).inq = b.inq ∧ (b.afterChunk v).fault = b.fault := by
  unfold Block.afterChunk
  cases b.state <;>
    simp only [Block.afterTag, Block.afterLiteral, Block.afterIndexMsb, Block.afterIndexLsb, Block.afterCountMsb,
      Block.afterCountLsb, Block.emitStore, Block.emit, Block.store, and_self]
  split
  · simp
  · split <;> simp

theorem Block.afterChunk_stream (b : Block) (v : Nat) : (b.afterChunk v).stream = b.stream := by
  obtain ⟨-, -, -, h4, h5, -⟩ := b.afterChunk_frame v
  simp only [Block.stream, Block.unread, h4, h5]

/-- A chunk moves the machine to another state (R148). -/
theorem Block.afterChunk_progress (b : Block) (v : Nat) (hy : b.state ≠ .yieldBackref) (hc : b.state ≠ .code7) :
    (b.afterChunk v).state ≠ b.state := by
  unfold Block.afterChunk
  cases h : b.state <;>
    simp_all only [Block.afterTag, Block.afterLiteral, Block.afterIndexMsb, Block.afterIndexLsb, Block.afterCountMsb,
      Block.afterCountLsb, ne_eq, not_true_eq_false, reduceCtorEq, not_false_eq_true]
  · split
    · simp
    · split <;> simp
  · split <;> simp

/-! ### The step as: read the chunk, then act -/

theorem Block.readChunk_congr (b : Block) (n : Nat) {k k' : Nat → Block → Block}
    (h : ∀ v bs, k v (b.setCursor bs) = k' v (b.setCursor bs)) : b.readChunk n k = b.readChunk n k' := by
  unfold Block.readChunk
  split <;> simp_all

/-- In a bit-reading state the step reads its chunk and hands it on (R141 to R146). -/
theorem Block.fsmStep_reads (b : Block) (hy : b.state ≠ .yieldBackref) (hc : b.state ≠ .code7)
    (hi : b.state = .backrefIndexMsb → 8 < b.W) (hl : b.state = .backrefCountMsb → 8 < b.L) :
    b.fsmStep = b.readChunk b.chunkWidth fun v c => c.afterChunk v := by
  cases h : b.state
  case yieldBackref => exact absurd h hy
  case code7 => exact absurd h hc
  all_goals simp only [Block.fsmStep, h, Block.chunkWidth]
  case tagBit => exact b.readChunk_congr _ fun v bs => by simp [Block.afterChunk, Block.setCursor, h]
  case yieldLiteral => exact b.readChunk_congr _ fun v bs => by simp [Block.afterChunk, Block.setCursor, h]
  case backrefIndexMsb =>
    rw [Block.stepBackrefIndexMsb, if_neg (by have := hi h; omega)]
    exact b.readChunk_congr _ fun v bs => by simp [Block.afterChunk, Block.setCursor, h]
  case backrefIndexLsb => exact b.readChunk_congr _ fun v bs => by simp [Block.afterChunk, Block.setCursor, h]
  case backrefCountMsb =>
    rw [Block.stepBackrefCountMsb, if_neg (by have := hl h; omega)]
    exact b.readChunk_congr _ fun v bs => by simp [Block.afterChunk, Block.setCursor, h]
  case backrefCountLsb => exact b.readChunk_congr _ fun v bs => by simp [Block.afterChunk, Block.setCursor, h]

/-- The widths the state machine asks for lie in 1..8 (R150). -/
theorem Block.Inv.chunkWidth_range {b : Block} (h : b.Inv) (hy : b.state ≠ .yieldBackref) :
    1 ≤ b.chunkWidth ∧ b.chunkWidth ≤ 8 := by
  obtain ⟨hW4, hW15, hL1, hLW, -⟩ := h.config
  have hi := h.indexMsb
  have hc := h.countMsb
  have h7 := h.state
  unfold Block.chunkWidth msbWidth lsbWidth
  cases hs : b.state <;> simp_all <;> omega

/-- The copy step (R147) on a block that meets the invariants. -/
theorem Block.Inv.fsmStep_copy {b : Block} (h : b.Inv) (hy : b.state = .yieldBackref) :
    b.fsmStep = .ran { b.copyRun b.outCount.toNat with state := .tagBit } := by
  have h1 := (h.index (.inr (.inr hy))).2
  have h2 := (h.count hy).2
  have h3 : 2 ^ b.L ≤ b.N := Nat.pow_le_pow_right (by decide) (le_of_lt h.config.2.2.2.1)
  rw [Block.fsmStep, hy]
  simp only
  rw [Block.stepYieldBackref, if_neg (by omega), if_neg (by omega)]

/-- The three things a step can do: the chunk is not all there and nothing changes; the chunk comes off the stream and is
handed on; or the run of a backreference is copied. -/
theorem Block.Inv.fsmStep_cases {b : Block} (h : b.Inv) :
    (b.state ≠ .yieldBackref ∧ b.stream.length < b.chunkWidth ∧ b.fsmStep = .ran b) ∨
    (b.state ≠ .yieldBackref ∧ b.chunkWidth ≤ b.stream.length ∧ ∃ bs,
      b.getBits b.chunkWidth = .value (natOfBits (b.stream.take b.chunkWidth)) bs ∧
      b.fsmStep = .ran ((b.setCursor bs).afterChunk (natOfBits (b.stream.take b.chunkWidth))) ∧
      bs.Ok b.cfgQ ∧ (b.setCursor bs).stream = b.stream.drop b.chunkWidth ∧
      (b.setCursor bs).lastByte = b.lastByte) ∨
    (b.state = .yieldBackref ∧ b.fsmStep = .ran { b.copyRun b.outCount.toNat with state := .tagBit }) := by
  by_cases hy : b.state = .yieldBackref
  · exact .inr (.inr ⟨hy, h.fsmStep_copy hy⟩)
  · obtain ⟨hw1, hw8⟩ := h.chunkWidth_range hy
    have e := b.fsmStep_reads hy h.state h.indexMsb h.countMsb
    rcases Block.getBits_spec h.bsOk hw1 (by omega : b.chunkWidth ≤ 15) with ⟨hl, hg⟩ | ⟨hl, bs, hg, ok, hst, hlast⟩
    · exact .inl ⟨hy, hl, by rw [e, Block.readChunk, hg]⟩
    · exact .inr (.inl ⟨hy, hl, bs, hg, by rw [e, Block.readChunk, hg], ok, hst, hlast⟩)

/-! ### The step keeps the invariants -/

theorem Block.Inv.withCursor {b : Block} (h : b.Inv) {bs : BitstreamState} (ok : bs.Ok b.cfgQ) :
    (b.setCursor bs).Inv :=
  { h with
    readIndex_le := ok.readIndex_le, size_le := ok.size_le, drained := ok.drained, mask := ok.mask
    config := h.config, indexMsb := h.indexMsb, countMsb := h.countMsb, head := h.head, indexLsb := h.indexLsb
    index := h.index, countLsb := h.countLsb, win := h.win }

/-- A chunk's value in its state keeps the invariants (R141 to R146, R35). -/
theorem Block.Inv.afterChunk {b : Block} (h : b.Inv) (hy : b.state ≠ .yieldBackref) {v : Nat}
    (hv : v < 2 ^ b.chunkWidth) : (b.afterChunk v).Inv := by
  obtain ⟨hW4, hW15, hL1, hLW, hQ⟩ := h.config
  have hL15 : b.L ≤ 15 := by omega
  cases hs : b.state
  case yieldBackref => exact absurd hs hy
  case code7 => exact absurd hs h.state
  all_goals simp only [Block.afterChunk, hs]; simp only [Block.chunkWidth, hs] at hv
  case tagBit =>
    unfold Block.afterTag
    split
    · exact { h with state := by simp, indexMsb := by simp, countMsb := by simp, indexLsb := by simp, index := by simp,
                     countLsb := by simp, count := by simp, config := h.config, head := h.head, win := h.win }
    · split
      · rename_i h8
        exact { h with state := by simp, indexMsb := fun _ => h8, countMsb := by simp, indexLsb := by simp,
                       index := by simp, countLsb := by simp, count := by simp, config := h.config, head := h.head,
                       win := h.win }
      · rename_i h8
        exact { h with state := by simp, indexMsb := by simp, countMsb := by simp,
                       indexLsb := fun _ => by rw [awaitsLsb, if_neg (by exact h8)],
                       index := by simp, countLsb := by simp, count := by simp, config := h.config, head := h.head,
                       win := h.win }
  case yieldLiteral =>
    have hw := Block.emitStore_windowOk h.windowOk (BitVec.ofNat 8 v)
    exact { h with state := by simp [Block.afterLiteral], indexMsb := by simp [Block.afterLiteral],
                   countMsb := by simp [Block.afterLiteral], indexLsb := by simp [Block.afterLiteral],
                   index := by simp [Block.afterLiteral], countLsb := by simp [Block.afterLiteral],
                   count := by simp [Block.afterLiteral], config := h.config, head := hw.head,
                   win := ⟨hw.wf, hw.inRange⟩, sink := Block.emit_sink _ h.sink }
  case backrefIndexMsb =>
    have h8 := h.indexMsb hs
    obtain ⟨e, hlt⟩ := accumulateMsb_toNat hW15 h8 hv
    exact { h with state := by simp [Block.afterIndexMsb], indexMsb := by simp [Block.afterIndexMsb],
                   countMsb := by simp [Block.afterIndexMsb],
                   indexLsb := fun _ => by
                     rw [awaitsLsb, if_pos (by exact h8)]
                     exact ⟨by simp only [Block.afterIndexMsb]; omega, by simp only [Block.afterIndexMsb]; rw [e]; exact hlt⟩,
                   index := by simp [Block.afterIndexMsb], countLsb := by simp [Block.afterIndexMsb],
                   count := by simp [Block.afterIndexMsb], config := h.config, head := h.head, win := h.win }
  case backrefIndexLsb =>
    obtain ⟨e, hle⟩ := accumulateLsb_toNat hW15 (h.indexLsb hs) hv
    have hidx : 1 ≤ (accumulateLsb b.outIndex v).toNat ∧ (accumulateLsb b.outIndex v).toNat ≤ b.N :=
      ⟨by omega, by rw [e]; exact hle⟩
    unfold Block.afterIndexLsb
    split
    · rename_i h8
      exact { h with state := by simp, indexMsb := by simp, countMsb := fun _ => h8, indexLsb := by simp,
                     index := fun _ => hidx, countLsb := by simp, count := by simp, config := h.config, head := h.head,
                     win := h.win }
    · rename_i h8
      exact { h with state := by simp, indexMsb := by simp, countMsb := by simp, indexLsb := by simp,
                     index := fun _ => hidx, countLsb := fun _ => by rw [awaitsLsb, if_neg (by exact h8)],
                     count := by simp, config := h.config, head := h.head, win := h.win }
  case backrefCountMsb =>
    have h8 := h.countMsb hs
    obtain ⟨e, hlt⟩ := accumulateMsb_toNat hL15 h8 hv
    exact { h with state := by simp [Block.afterCountMsb], indexMsb := by simp [Block.afterCountMsb],
                   countMsb := by simp [Block.afterCountMsb], indexLsb := by simp [Block.afterCountMsb],
                   index := fun _ => h.index (.inl hs),
                   countLsb := fun _ => by
                     rw [awaitsLsb, if_pos (by exact h8)]
                     exact ⟨by simp only [Block.afterCountMsb]; omega, by simp only [Block.afterCountMsb]; rw [e]; exact hlt⟩,
                   count := by simp [Block.afterCountMsb], config := h.config, head := h.head, win := h.win }
  case backrefCountLsb =>
    obtain ⟨e, hle⟩ := accumulateLsb_toNat hL15 (h.countLsb hs) hv
    exact { h with state := by simp [Block.afterCountLsb], indexMsb := by simp [Block.afterCountLsb],
                   countMsb := by simp [Block.afterCountLsb], indexLsb := by simp [Block.afterCountLsb],
                   index := fun _ => h.index (.inr (.inl hs)), countLsb := by simp [Block.afterCountLsb],
                   count := fun _ => ⟨by simp only [Block.afterCountLsb]; omega,
                     by simp only [Block.afterCountLsb]; rw [e]; exact hle⟩,
                   config := h.config, head := h.head, win := h.win }

/-- The copy step keeps the invariants (R147). -/
theorem Block.Inv.afterCopy {b : Block} (h : b.Inv) (n : Nat) :
    Block.Inv { b.copyRun n with state := .tagBit } := by
  have f := b.copyRun_frame n
  have hw := Block.copyRun_windowOk n h.windowOk
  have hW : (b.copyRun n).W = b.W := by rw [Block.W, f.cfgW]; rfl
  have hL : (b.copyRun n).L = b.L := by rw [Block.L, f.cfgL]; rfl
  refine { state := by simp, indexMsb := by simp, countMsb := by simp, indexLsb := by simp, index := by simp,
           countLsb := by simp, count := by simp, head := hw.head, win := ⟨hw.wf, hw.inRange⟩,
           sink := Block.copyRun_sink n h.sink, config := ?_, readIndex_le := ?_, size_le := ?_, drained := ?_,
           mask := ?_, inq := ?_ }
  · show LegalConfig (b.copyRun n).W (b.copyRun n).L (b.copyRun n).cfgQ
    rw [hW, hL, f.cfgQ]
    exact h.config
  · show (b.copyRun n).bs.readIndex ≤ (b.copyRun n).bs.size
    rw [f.bs]; exact h.readIndex_le
  · show (b.copyRun n).bs.size ≤ (b.copyRun n).cfgQ
    rw [f.bs, f.cfgQ]; exact h.size_le
  · show (b.copyRun n).bs.readIndex = (b.copyRun n).bs.size → (b.copyRun n).bs.size = 0
    rw [f.bs]; exact h.drained
  · show (b.copyRun n).bs.bitMask ∈ legalMasks
    rw [f.bs]; exact h.mask
  · show (b.copyRun n).inq.wf ∧ (b.copyRun n).inq.inRange (b.copyRun n).cfgQ
    rw [f.inq, f.cfgQ]; exact h.inq

/-- The value of a chunk fits its width. -/
theorem natOfBits_take_lt {n : Nat} {bits : List Bool} (h : n ≤ bits.length) : natOfBits (bits.take n) < 2 ^ n := by
  have := natOfBits_lt (bits.take n)
  rwa [List.length_take, min_eq_left h] at this

/-- A step of a good block always runs and leaves a good block. -/
theorem Block.Good.fsmStep {b : Block} (h : b.Good) : ∃ c, b.fsmStep = .ran c ∧ c.Good := by
  rcases h.inv.fsmStep_cases with ⟨-, -, e⟩ | ⟨hy, hl, bs, -, e, ok, -, -⟩ | ⟨-, e⟩
  · exact ⟨b, e, h⟩
  · refine ⟨_, e, ⟨Block.Inv.afterChunk (h.inv.withCursor ok) hy (natOfBits_take_lt hl), ?_⟩⟩
    rw [(Block.afterChunk_frame _ _).2.2.2.2.2]
    exact h.live
  · refine ⟨_, e, ⟨h.inv.afterCopy _, ?_⟩⟩
    show (b.copyRun b.outCount.toNat).fault.valid = false
    rw [(b.copyRun_frame _).fault]
    exact h.live

theorem Block.Good.of_fsmStep {b c : Block} (h : b.Good) (e : b.fsmStep = .ran c) : c.Good := by
  obtain ⟨d, e', hd⟩ := h.fsmStep
  rw [e] at e'
  cases e'
  exact hd

/-! ### Where the invariants come from -/

/-- A block just built has them (R39, R40). -/
theorem Block.init_inv {w l : BitVec 4} {q : Nat} (hc : LegalConfig w.toNat l.toNat q) : (Block.init w l q).Inv where
  config := hc
  readIndex_le := le_refl _
  size_le := Nat.zero_le _
  drained _ := rfl
  mask := by simp [Block.init, legalMasks]
  state := by simp [Block.init]
  indexMsb := by simp [Block.init]
  countMsb := by simp [Block.init]
  head := (Block.init w l q).N_pos
  indexLsb := by simp [Block.init]
  index := by simp [Block.init]
  countLsb := by simp [Block.init]
  count := by simp [Block.init]
  win := ⟨Memory.wf_nil, by simp [Block.init]⟩
  inq := ⟨Memory.wf_nil, by simp [Block.init]⟩
  sink := by simp [Block.init, Config.outInitCap]

theorem Block.init_good {w l : BitVec 4} {q : Nat} (hc : LegalConfig w.toNat l.toNat q) : (Block.init w l q).Good :=
  ⟨Block.init_inv hc, rfl⟩

/-- A store keeps them (R130). -/
theorem Block.Good.store {b : Block} (h : b.Good) (v : Byte) : (b.store v).Good := by
  have hw := Block.store_windowOk h.inv.windowOk v
  have hi := h.inv
  exact ⟨{ hi with
    config := hi.config, indexMsb := hi.indexMsb, countMsb := hi.countMsb, head := hw.head, indexLsb := hi.indexLsb
    index := hi.index, countLsb := hi.countLsb, win := ⟨hw.wf, hw.inRange⟩ }, h.live⟩

/-- Taking the output keeps them (R175). -/
theorem Block.Good.takeOutput {b : Block} (h : b.Good) : Block.Good { b with out := [] } := by
  have hi := h.inv
  exact ⟨{ hi with
    config := hi.config, indexMsb := hi.indexMsb, countMsb := hi.countMsb, head := hi.head, indexLsb := hi.indexLsb
    index := hi.index, countLsb := hi.countLsb, win := hi.win, sink := ⟨hi.sink.1, Nat.zero_le _⟩ }, h.live⟩

/-- Another capacity that the queue fits in keeps them (R5, R40 I1). -/
theorem Block.Good.withCapacity {b : Block} (h : b.Good) {q : Nat} (h1 : 1 ≤ q) (hs : b.bs.size ≤ q)
    (hr : b.inq.inRange q) : Block.Good { b with cfgQ := q } := by
  have hi := h.inv
  obtain ⟨c1, c2, c3, c4, -⟩ := hi.config
  exact ⟨{ hi with
    config := ⟨c1, c2, c3, c4, h1⟩, size_le := hs, indexMsb := hi.indexMsb, countMsb := hi.countMsb, head := hi.head
    indexLsb := hi.indexLsb, index := hi.index, countLsb := hi.countLsb, win := hi.win, inq := ⟨hi.inq.1, hr⟩ }, h.live⟩

end Sys2Proof.Machine
end

