-- ==== Sys2Proof/Laws/Drive.lean ====
section
/-! SUPPORT. The drive loop (R149): a progressing step, the bound on their number (R151), and what POLL does to a good block:
it parks (R152), and its result is the same from any block on the way. -/

namespace Sys2Proof.Machine

/-- What no step of the state machine writes (R38, R72). -/
structure Block.SameFixed (a b : Block) : Prop where
  cfgW : b.cfgW = a.cfgW
  cfgL : b.cfgL = a.cfgL
  cfgQ : b.cfgQ = a.cfgQ
  inq : b.inq = a.inq
  fault : b.fault = a.fault

theorem Block.SameFixed.refl (a : Block) : a.SameFixed a := ⟨rfl, rfl, rfl, rfl, rfl⟩

theorem Block.SameFixed.trans {a b c : Block} (h : a.SameFixed b) (k : b.SameFixed c) : a.SameFixed c :=
  ⟨k.1.trans h.1, k.2.trans h.2, k.3.trans h.3, k.4.trans h.4, k.5.trans h.5⟩

theorem Block.SameFixed.N {a b : Block} (h : a.SameFixed b) : b.N = a.N := by rw [Block.N, Block.W, h.cfgW]; rfl

/-- The state a chunk or a copy leads to emits what it emits (R69, R132). -/
theorem Block.afterChunk_emitted {b : Block} (h : b.WindowOk) (v : Nat) : ∃ o, b.Emitted (b.afterChunk v) o := by
  unfold Block.afterChunk
  cases b.state
  case yieldLiteral =>
    exact ⟨_, (Block.Emitted.emitStore h (BitVec.ofNat 8 v)).congr rfl rfl rfl rfl fun d => rfl⟩
  case tagBit =>
    show ∃ o, b.Emitted (b.afterTag v) o
    unfold Block.afterTag
    split
    · exact ⟨[], (Block.Emitted.refl b).congr rfl rfl rfl rfl fun d => rfl⟩
    · split <;> exact ⟨[], (Block.Emitted.refl b).congr rfl rfl rfl rfl fun d => rfl⟩
  all_goals exact ⟨[], (Block.Emitted.refl b).congr rfl rfl rfl rfl fun d => rfl⟩

/-! ### A progressing step -/

/-- What a progressing step of a good block does: it takes exactly its chunk off the stream, keeps what no step writes,
and stores what it emits. -/
structure Block.StepFacts (b c : Block) : Prop where
  good : c.Good
  stream : c.stream = b.stream.drop b.chunkWidth
  enough : b.chunkWidth ≤ b.stream.length
  fixed : b.SameFixed c
  last : c.lastByte = b.lastByte
  emitted : ∃ o, b.Emitted c o
  after : b.state = .yieldBackref → c.state = .tagBit

theorem Block.Good.progress_facts {b c : Block} (h : b.Good) (hp : b.Progresses c) : b.StepFacts c := by
  obtain ⟨e, hpr⟩ := hp
  have hg := h.of_fsmStep e
  rcases h.inv.fsmStep_cases with ⟨-, -, e'⟩ | ⟨hy, hl, bs, -, e', ok, hst, hlast⟩ | ⟨hy, e'⟩
  · rw [e] at e'
    cases e'
    simp [progress] at hpr
  · rw [e] at e'
    cases e'
    obtain ⟨f1, f2, f3, f4, f5, f6⟩ := Block.afterChunk_frame (b.setCursor bs) (natOfBits (b.stream.take b.chunkWidth))
    obtain ⟨o, ho⟩ := Block.afterChunk_emitted (h.inv.withCursor ok).windowOk (natOfBits (b.stream.take b.chunkWidth))
    refine ⟨hg, ?_, hl, ⟨f1, f2, f3, f5, f6⟩, ?_, ⟨o, ho.out, ho.cap, ho.head, ho.recent, ho.frame⟩, fun hc => absurd hc hy⟩
    · rw [Block.afterChunk_stream, hst]
    · rw [← hlast, Block.lastByte, Block.lastByte, f4, f5]
  · rw [e] at e'
    cases e'
    have f := b.copyRun_frame b.outCount.toNat
    have hi := h.inv.index (.inr (.inr hy))
    obtain ⟨o, -, ho, -⟩ := Block.copyRun_spec b.outCount.toNat h.inv.windowOk hi.1 hi.2
    have hw : b.chunkWidth = 0 := by simp only [Block.chunkWidth, hy]
    refine ⟨hg, ?_, by omega, ⟨f.cfgW, f.cfgL, f.cfgQ, f.inq, f.fault⟩, ?_, ⟨o, ho.congr rfl rfl rfl rfl fun d => rfl⟩, fun _ => rfl⟩
    · rw [hw, List.drop_zero]
      simp only [Block.stream, Block.unread, f.bs, f.inq]
    · simp only [Block.lastByte, f.bs, f.inq]

/-- The number of progressing steps a block can still make is at most this (R151). -/
def Block.measure (b : Block) : Nat := 2 * b.stream.length + if b.state = .yieldBackref then 1 else 0

theorem Block.Good.measure_lt {b c : Block} (h : b.Good) (hp : b.Progresses c) : c.measure < b.measure := by
  have f := h.progress_facts hp
  have hl : c.stream.length = b.stream.length - b.chunkWidth := by rw [f.stream, List.length_drop]
  have he := f.enough
  unfold Block.measure
  by_cases hy : b.state = .yieldBackref
  · have hw : b.chunkWidth = 0 := by simp only [Block.chunkWidth, hy]
    rw [if_pos hy, if_neg (by rw [f.after hy]; decide), hl, hw]
    omega
  · have := (h.inv.chunkWidth_range hy).1
    rw [if_neg hy]
    split <;> omega

/-- From a good block to a good block by progressing steps. -/
theorem Block.Good.of_steps {b c : Block} (h : b.Good) (hs : Relation.ReflTransGen Block.Progresses b c) : c.Good := by
  induction hs with
  | refl => exact h
  | tail _ hp ih => exact (ih.progress_facts hp).good

theorem Block.Good.steps_fixed {b c : Block} (h : b.Good) (hs : Relation.ReflTransGen Block.Progresses b c) :
    b.SameFixed c := by
  induction hs with
  | refl => exact .refl b
  | tail hs hp ih => exact ih.trans ((h.of_steps hs).progress_facts hp).fixed

theorem Block.Good.steps_last {b c : Block} (h : b.Good) (hs : Relation.ReflTransGen Block.Progresses b c) :
    c.lastByte = b.lastByte := by
  induction hs with
  | refl => rfl
  | tail hs hp ih => rw [((h.of_steps hs).progress_facts hp).last, ih]

theorem Block.Good.steps_emitted {b c : Block} (h : b.Good) (hs : Relation.ReflTransGen Block.Progresses b c) :
    ∃ o, b.Emitted c o := by
  induction hs with
  | refl => exact ⟨[], .refl b⟩
  | tail hs hp ih =>
    obtain ⟨o, ho⟩ := ih
    obtain ⟨p, hp'⟩ := ((h.of_steps hs).progress_facts hp).emitted
    exact ⟨o ++ p, ho.trans (h.steps_fixed hs).N hp'⟩

/-! ### The loop -/

theorem Block.fsmStep_ran_cases {b c : Block} (e : b.fsmStep = .ran c) : b.Progresses c ∨ progress b c = false := by
  cases h : progress b c
  · exact .inr rfl
  · exact .inl ⟨e, h⟩

/-- A step of a good block that changes no state changes nothing (R148). -/
theorem Block.Good.stuck_of_no_progress {b c : Block} (h : b.Good) (e : b.fsmStep = .ran c) (hp : progress b c = false) :
    c = b := by
  rcases h.inv.fsmStep_cases with ⟨-, -, e'⟩ | ⟨hy, -, bs, -, e', -, -, -⟩ | ⟨hy, e'⟩
  · rw [e] at e'
    cases e'
    rfl
  · rw [e] at e'
    cases e'
    have := Block.afterChunk_progress (b.setCursor bs) (natOfBits (b.stream.take b.chunkWidth)) hy h.inv.state
    exact absurd (of_decide_eq_false hp) (by simpa using this.symm)
  · rw [e] at e'
    cases e'
    simp [progress, hy] at hp

/-- The drive loop of a good block, with fuel for every progressing step it can make, ends without an error at the first
block that a step does not change (R149). -/
theorem Block.Good.driveLoop_spec {fuel : Nat} {b : Block} (h : b.Good) (hf : b.measure < fuel) :
    ∃ c, b.driveLoop fuel = .ok c ∧ Relation.ReflTransGen Block.Progresses b c ∧ c.fsmStep = .ran c := by
  induction fuel generalizing b with
  | zero => omega
  | succ fuel ih =>
    obtain ⟨c, e, hc⟩ := h.fsmStep
    rw [Block.driveLoop, e]
    simp only
    rcases Block.fsmStep_ran_cases e with hp | hp
    · rw [if_pos hp.2]
      obtain ⟨d, e2, hs, e3⟩ := ih hc (by have := h.measure_lt hp; omega)
      exact ⟨d, e2, .head hp hs, e3⟩
    · have := h.stuck_of_no_progress e hp
      subst this
      rw [if_neg (by simp [hp])]
      exact ⟨c, rfl, .refl, e⟩

/-- Progressing steps are deterministic, so a block has one block it ends in. -/
theorem Block.steps_end_unique {b c d : Block} (hc : Relation.ReflTransGen Block.Progresses b c)
    (hd : Relation.ReflTransGen Block.Progresses b d) (ec : c.fsmStep = .ran c) (ed : d.fsmStep = .ran d) : c = d := by
  have no {x y : Block} (ex : x.fsmStep = .ran x) (hp : x.Progresses y) : False := by
    have e := hp.1
    rw [ex] at e
    cases e
    simpa [progress] using hp.2
  induction hc using Relation.ReflTransGen.head_induction_on with
  | refl =>
    rcases Relation.ReflTransGen.cases_head hd with e | ⟨y, hp, -⟩
    · exact e
    · exact (no ec hp).elim
  | head hp hs ih =>
    rcases Relation.ReflTransGen.cases_head hd with e | ⟨y, hp', hs'⟩
    · subst e
      exact (no ed hp).elim
    · have e := hp.1
      rw [hp'.1] at e
      cases e
      exact ih hs'

theorem Block.Good.measure_lt_fuel {b : Block} (h : b.Good) : b.measure < 2 * b.bs.avail.toNat + 2 := by
  rw [Block.avail_eq h.inv.bsOk, Int.toNat_natCast, Block.measure]
  split <;> omega

/-- POLL's loop on a good block (R149, R151). -/
theorem Block.Good.poll_spec {b : Block} (h : b.Good) :
    ∃ c, b.poll = .ok c ∧ c.Good ∧ Relation.ReflTransGen Block.Progresses b c ∧ c.fsmStep = .ran c := by
  obtain ⟨c, e, hs, ec⟩ := h.driveLoop_spec h.measure_lt_fuel
  exact ⟨c, e, h.of_steps hs, hs, ec⟩

/-- The block POLL ends in is the one that progressing steps lead to. -/
theorem Block.Good.poll_of_steps {b c : Block} (h : b.Good) (hs : Relation.ReflTransGen Block.Progresses b c)
    (ec : c.fsmStep = .ran c) : b.poll = .ok c := by
  obtain ⟨d, e, -, hs', ed⟩ := h.poll_spec
  rw [e, Block.steps_end_unique hs hs' ec ed]

/-- POLL gives the same from every block on its way. -/
theorem Block.Good.poll_steps_eq {b c : Block} (h : b.Good) (hs : Relation.ReflTransGen Block.Progresses b c) :
    b.poll = c.poll := by
  obtain ⟨d, e, -, hs', ed⟩ := (h.of_steps hs).poll_spec
  rw [e, h.poll_of_steps (hs.trans hs') ed]

/-- A good block that a step does not change is parked (R152). -/
theorem Block.Good.parked {c : Block} (h : c.Good) (e : c.fsmStep = .ran c) : c.Parked := by
  have hav := Block.avail_eq h.inv.bsOk
  have key : c.state ≠ .yieldBackref ∧ c.stream.length < c.chunkWidth := by
    rcases h.inv.fsmStep_cases with ⟨hy, hl, -⟩ | ⟨hy, -, bs, -, e', -, -, -⟩ | ⟨hy, e'⟩
    · exact ⟨hy, hl⟩
    · rw [e] at e'
      injection e' with e'
      have := Block.afterChunk_progress (c.setCursor bs) (natOfBits (c.stream.take c.chunkWidth)) hy h.inv.state
      rw [← e'] at this
      exact absurd rfl this
    · rw [e] at e'
      injection e' with e'
      rw [e'] at hy
      simp at hy
  obtain ⟨hy, hl⟩ := key
  have hw := (h.inv.chunkWidth_range hy).2
  have hri := h.inv.readIndex_le
  have hlen : c.stream.length = bitsLeft c.bs.bitMask + 8 * (c.bs.size - c.bs.readIndex) := by
    simp [Block.stream, Block.unread]
  have he : c.bs.readIndex = c.bs.size := by omega
  have hs := h.inv.drained he
  refine ⟨hy, by rw [hav]; exact_mod_cast hl, by rw [hav]; omega, hs, by omega, ?_⟩
  simp [Block.finished, BitstreamState.unreadCount, he]

/-- A parked block makes no further step (R152, R172). -/
theorem Block.Good.stuck_of_parked {c : Block} (h : c.Good) (p : c.Parked) : c.fsmStep = .ran c := by
  have hav := Block.avail_eq h.inv.bsOk
  have hs := p.short
  rcases h.inv.fsmStep_cases with ⟨-, -, e⟩ | ⟨-, hl, -⟩ | ⟨hy, -⟩
  · exact e
  · rw [hav] at hs
    exact absurd hs (by exact_mod_cast not_lt.2 hl)
  · exact absurd hy p.reads

/-- The state machine's run to the end of a unit leaves a good block (R149). -/
theorem Block.Good.finishUnit_spec {n : Nat} {b : Block} (h : b.Good) :
    ∃ c, b.finishUnit n = .ok c ∧ c.Good ∧ Relation.ReflTransGen Block.Progresses b c := by
  induction n generalizing b with
  | zero => exact ⟨b, rfl, h, .refl⟩
  | succ n ih =>
    obtain ⟨c, e, g⟩ := h.fsmStep
    rw [Block.finishUnit, e]
    simp only
    rcases Block.fsmStep_ran_cases e with hp | hp
    · by_cases ht : c.state = .tagBit
      · rw [if_neg (by simp [ht])]
        exact ⟨c, rfl, g, .single hp⟩
      · rw [if_pos (by simp [hp.2, ht])]
        obtain ⟨d, ed, gd, sd⟩ := ih g
        exact ⟨d, ed, gd, .head hp sd⟩
    · rw [if_neg (by simp [hp]), h.stuck_of_no_progress e hp]
      exact ⟨b, rfl, h, .refl⟩

/-- A raise of the drive loop, from whatever block: the steps before it progressed, and only `FAULT` is new (R207). -/
theorem Block.driveLoop_raised {fuel : Nat} {b c : Block} {e : Cause} (h : b.driveLoop fuel = .raised c e) :
    ∃ x, Relation.ReflTransGen Block.Progresses b x ∧ x.fsmStep = .raised e ∧ c = x.raise e := by
  induction fuel generalizing b with
  | zero => simp [Block.driveLoop] at h
  | succ n ih =>
    rw [Block.driveLoop] at h
    cases hf : b.fsmStep with
    | ran b' =>
      simp only [hf] at h
      split at h
      · rename_i hp
        obtain ⟨x, s, r, e⟩ := ih h
        exact ⟨x, .head ⟨hf, hp⟩ s, r, e⟩
      · cases h
    | raised c' =>
      simp only [hf] at h
      cases h
      exact ⟨b, .refl, hf, rfl⟩
    | noAddress a =>
      simp only [hf] at h
      cases h

end Sys2Proof.Machine
end

