-- ==== Sys2Proof/Laws/Units.lean ====
section
/-! SUPPORT. The units: a unit's chunks are the ones the state machine asks for, state by state (R83), so running a unit is a
run of the state machine on the unit's bits (R155, R156). -/

namespace Sys2Proof.Machine

/-! ### Chunks and states -/

@[simp] theorem chunkBits_length (cs : List Chunk) : (chunkBits cs).length = chunkSum cs := by
  induction cs with
  | nil => rfl
  | cons c cs ih => simp_all [chunkBits, chunkSum]

@[simp] theorem chunkSum_cons (c : Chunk) (cs : List Chunk) : chunkSum (c :: cs) = c.width + chunkSum cs := by
  simp [chunkSum]

@[simp] theorem chunkBits_cons (c : Chunk) (cs : List Chunk) :
    chunkBits (c :: cs) = bitsOfNat c.width c.value ++ chunkBits cs := rfl

theorem chunkBits_append (cs ds : List Chunk) : chunkBits (cs ++ ds) = chunkBits cs ++ chunkBits ds := by
  simp [chunkBits]

theorem chunkSum_append (cs ds : List Chunk) : chunkSum (cs ++ ds) = chunkSum cs + chunkSum ds := by
  simp [chunkSum]

/-- The MSB/LSB split keeps the field's bits (R83). -/
theorem chunkBits_fieldChunks (n v : Nat) : chunkBits (fieldChunks n v) = bitsOfNat n v := by
  unfold fieldChunks
  split
  · rename_i h
    have e : n = (n - 8) + 8 := by omega
    simp only [chunkBits, msbWidth, List.flatMap_cons, List.flatMap_nil, List.append_nil]
    conv_rhs => rw [e, bitsOfNat_add]
    rw [bitsOfNat_mod 8 v]
  · simp [chunkBits]

theorem chunkSum_fieldChunks (n v : Nat) : chunkSum (fieldChunks n v) = n := by
  rw [← chunkBits_length, chunkBits_fieldChunks, bitsOfNat_length]

/-- The width a state asks for, from the parameters (R23). -/
def widthIn (W L : Nat) : DecoderState → Nat
  | .tagBit => 1
  | .yieldLiteral => 8
  | .backrefIndexMsb => msbWidth W
  | .backrefIndexLsb => lsbWidth W
  | .backrefCountMsb => msbWidth L
  | .backrefCountLsb => lsbWidth L
  | .yieldBackref => 0
  | .code7 => 0

/-- Where a chunk leads (R141 to R146). -/
def nextIn (W L : Nat) (st : DecoderState) (v : Nat) : DecoderState :=
  match st with
  | .tagBit => if v = 1 then .yieldLiteral else if W > 8 then .backrefIndexMsb else .backrefIndexLsb
  | .yieldLiteral => .tagBit
  | .backrefIndexMsb => .backrefIndexLsb
  | .backrefIndexLsb => if L > 8 then .backrefCountMsb else .backrefCountLsb
  | .backrefCountMsb => .backrefCountLsb
  | .backrefCountLsb => .yieldBackref
  | .yieldBackref => .yieldBackref
  | .code7 => .code7

theorem Block.chunkWidth_eq (b : Block) : b.chunkWidth = widthIn b.W b.L b.state := by
  unfold Block.chunkWidth widthIn
  cases b.state <;> rfl

theorem Block.afterChunk_state (b : Block) (v : Nat) : (b.afterChunk v).state = nextIn b.W b.L b.state v := by
  unfold Block.afterChunk nextIn
  cases h : b.state
  case tagBit =>
    simp only [Block.afterTag]
    split
    · rfl
    · split <;> rfl
  case yieldBackref => exact h
  case code7 => exact h
  all_goals rfl

/-- A chunk sequence that is the one the state machine asks for from a state on; the literal byte ends it. -/
def Tracks (W L : Nat) : DecoderState → List Chunk → Prop
  | _, [] => True
  | st, c :: cs => st ≠ .yieldBackref ∧ c.width = widthIn W L st ∧ c.value < 2 ^ c.width ∧
      (st = .yieldLiteral → cs = []) ∧ Tracks W L (nextIn W L st c.value) cs

theorem tracks_lit (W L : Nat) (v : Byte) : Tracks W L .tagBit (litChunks v) := by
  have := v.isLt
  simp [litChunks, Tracks, widthIn, nextIn, this]

theorem tracks_count {W L : Nat} {cnt : Nat} (hc : cnt < 2 ^ L) :
    Tracks W L (if L > 8 then .backrefCountMsb else .backrefCountLsb) (fieldChunks L cnt) := by
  unfold fieldChunks
  split
  · rename_i h
    have hpow : 2 ^ L = 2 ^ (L - 8) * 256 := by
      rw [show (256 : Nat) = 2 ^ 8 by decide, ← pow_add]; congr 1; omega
    have h1 : cnt >>> 8 < 2 ^ (L - 8) := by rw [Nat.shiftRight_eq_div_pow]; omega
    have h2 : cnt % 2 ^ 8 < 2 ^ 8 := Nat.mod_lt _ (by decide)
    refine ⟨by decide, rfl, h1, by simp, by simp [nextIn], ?_, h2, by simp, trivial⟩
    show 8 = min L 8
    omega
  · refine ⟨by decide, ?_, hc, by simp, trivial⟩
    show L = min L 8
    omega

theorem tracks_bref {W L idx cnt : Nat} (hi : idx < 2 ^ W) (hc : cnt < 2 ^ L) :
    Tracks W L .tagBit (⟨1, 0⟩ :: (fieldChunks W idx ++ fieldChunks L cnt)) := by
  refine ⟨by decide, rfl, by decide, by simp, ?_⟩
  simp only [nextIn, if_neg (show ¬(0 = 1) by decide)]
  have hlast := tracks_count (W := W) hc
  unfold fieldChunks
  by_cases h : W > 8
  · have hpow : 2 ^ W = 2 ^ (W - 8) * 256 := by
      rw [show (256 : Nat) = 2 ^ 8 by decide, ← pow_add]; congr 1; omega
    have h1 : idx >>> 8 < 2 ^ (W - 8) := by rw [Nat.shiftRight_eq_div_pow]; omega
    have h2 : idx % 2 ^ 8 < 2 ^ 8 := Nat.mod_lt _ (by decide)
    rw [if_pos h, if_pos h]
    refine ⟨by decide, rfl, h1, by simp, by simp [nextIn], ?_, h2, by simp [nextIn], hlast⟩
    show 8 = min W 8
    omega
  · rw [if_neg h, if_neg h]
    refine ⟨by decide, ?_, hi, by simp, hlast⟩
    show W = min W 8
    omega

/-! ### Running chunks -/

/-- Handing on a chunk does not look at the cursor. -/
theorem Block.afterChunk_setCursor (b : Block) (bs : BitstreamState) (v : Nat) :
    (b.setCursor bs).afterChunk v = (b.afterChunk v).setCursor bs := by
  unfold Block.afterChunk
  rw [Block.setCursor_state]
  cases b.state
  case tagBit =>
    show Block.afterTag v (b.setCursor bs) = (b.afterTag v).setCursor bs
    unfold Block.afterTag
    rw [Block.setCursor_W]
    split
    · rfl
    · split <;> rfl
  all_goals rfl

@[simp] theorem Block.afterChunks_nil (b : Block) : b.afterChunks [] = b := rfl

@[simp] theorem Block.afterChunks_cons (b : Block) (c : Chunk) (cs : List Chunk) :
    b.afterChunks (c :: cs) = (b.afterChunk c.value).afterChunks cs := rfl

theorem Block.afterChunks_append (b : Block) (cs ds : List Chunk) :
    b.afterChunks (cs ++ ds) = (b.afterChunks cs).afterChunks ds := by
  simp [Block.afterChunks]

theorem Block.afterChunks_setCursor (b : Block) (bs : BitstreamState) (cs : List Chunk) :
    (b.setCursor bs).afterChunks cs = (b.afterChunks cs).setCursor bs := by
  induction cs generalizing b with
  | nil => rfl
  | cons c cs ih => rw [Block.afterChunks_cons, Block.afterChunk_setCursor, ih, Block.afterChunks_cons]

/-- The block after a chunk sequence whose bits are all there, with the cursor moved. -/
def Block.consume : List Chunk → Block → Option Block
  | [], b => some b
  | c :: cs, b =>
    match b.getBits c.width with
    | .value _ bs => Block.consume cs ((b.setCursor bs).afterChunk c.value)
    | .nobits => none
    | .widthError => none
    | .noAddress _ => none

/-- Only the literal byte is emitted; every other chunk leaves output and window as they are (R38). -/
theorem Block.afterChunk_quiet (b : Block) (v : Nat) (h : b.state ≠ .yieldLiteral) :
    (b.afterChunk v).out = b.out ∧ (b.afterChunk v).outCap = b.outCap ∧ (b.afterChunk v).win = b.win ∧
      (b.afterChunk v).headReg = b.headReg := by
  unfold Block.afterChunk
  cases hs : b.state
  case yieldLiteral => exact absurd hs h
  case tagBit =>
    simp only [Block.afterTag]
    split
    · simp
    · split <;> simp
  all_goals simp [Block.afterIndexMsb, Block.afterIndexLsb, Block.afterCountMsb, Block.afterCountLsb]

/-- A block that a unit's run has parked in the middle of the unit (R153): the chunks `front` are consumed, the chunk `short`
is not all there and has lost no bit. When the bits there are the unit's own, the state machine parks in the same block. -/
structure Block.ParkedInside (b : Block) (cs front : List Chunk) (short : Chunk) (c : Block) : Prop where
  split : ∃ rest, cs = front ++ short :: rest
  good : c.Good
  reads : c.state ≠ .yieldBackref
  shape : c = (b.afterChunks front).setCursor c.bs
  stream : c.stream = b.stream.drop (chunkSum front)
  enough : chunkSum front ≤ b.stream.length
  width : c.chunkWidth = short.width
  short : c.stream.length < short.width
  sameWay : b.stream <+: chunkBits cs →
    Relation.ReflTransGen Block.Progresses b c ∧ ∀ n, cs.length ≤ n → b.finishUnit n = .ok c
  fixed : b.SameFixed c
  quiet : c.out = b.out ∧ c.outCap = b.outCap ∧ c.win = b.win ∧ c.headReg = b.headReg

/-- A block that has consumed a whole chunk sequence. -/
structure Block.Consumed (b : Block) (cs : List Chunk) (c : Block) : Prop where
  run : Block.runChunks cs b = c.endUnit
  good : c.Good
  consumed : b.consume cs = some c
  shape : c = (b.afterChunks cs).setCursor c.bs
  stream : c.stream = b.stream.drop (chunkSum cs)
  fixed : b.SameFixed c

/-- The state machine takes the same way as a unit's chunks do, when the bits are the unit's own. -/
structure Block.SameWay (b : Block) (cs : List Chunk) (c : Block) : Prop where
  steps : Relation.ReflTransGen Block.Progresses b c
  finish : ∀ n, b.finishUnit (cs.length + n) = if cs ≠ [] ∧ c.state = .tagBit then .ok c else c.finishUnit n

/-- What consuming one chunk does to a good block. -/
theorem Block.Good.consume_one {b : Block} (h : b.Good) (hy : b.state ≠ .yieldBackref) {v : Nat} {bs : BitstreamState}
    (hv : v < 2 ^ b.chunkWidth) (ok : bs.Ok b.cfgQ) (hst : (b.setCursor bs).stream = b.stream.drop b.chunkWidth) :
    ((b.setCursor bs).afterChunk v).Good ∧ b.SameFixed ((b.setCursor bs).afterChunk v) ∧
      ((b.setCursor bs).afterChunk v).stream = b.stream.drop b.chunkWidth ∧
      ((b.setCursor bs).afterChunk v).state = nextIn b.W b.L b.state v := by
  obtain ⟨f1, f2, f3, f4, f5, f6⟩ := Block.afterChunk_frame (b.setCursor bs) v
  refine ⟨⟨Block.Inv.afterChunk (h.inv.withCursor ok) hy hv, ?_⟩, ⟨f1, f2, f3, f5, f6⟩, ?_, ?_⟩
  · rw [f6]; exact h.live
  · rw [Block.afterChunk_stream, hst]
  · exact Block.afterChunk_state (b.setCursor bs) v

theorem nextIn_ne_tagBit {W L : Nat} {st : DecoderState} {v : Nat} (hl : st ≠ .yieldLiteral) :
    nextIn W L st v ≠ .tagBit := by
  unfold nextIn
  cases st
  case yieldLiteral => exact absurd rfl hl
  case tagBit => simp only; split_ifs <;> simp
  case backrefIndexLsb => simp only; split_ifs <;> simp
  all_goals simp

/-- One progressing step, as `finishUnit` takes it. -/
theorem Block.Progresses.finishUnit {b c : Block} (h : b.Progresses c) (n : Nat) :
    b.finishUnit (n + 1) = if c.state = .tagBit then .ok c else c.finishUnit n := by
  rw [Block.finishUnit, h.1]
  simp only [h.2, Bool.true_and]
  by_cases hs : c.state = .tagBit <;> simp [hs]

/-- A chunk that is not all there ends the run at once, with the block as it was (R148, R149). -/
theorem Block.Good.finishUnit_of_short {b : Block} (h : b.Good) (hy : b.state ≠ .yieldBackref)
    (hl : b.stream.length < b.chunkWidth) (n : Nat) : b.finishUnit (n + 1) = .ok b := by
  rcases h.inv.fsmStep_cases with ⟨-, -, e⟩ | ⟨-, hl', -⟩ | ⟨hy', -⟩
  · rw [Block.finishUnit, e]
    simp [progress]
  · omega
  · exact absurd hy' hy

/-- Running a tracked chunk sequence on a good block: either the bits run out inside it and it parks there, or every chunk
is consumed; and then, if the stream's bits are the unit's own, the state machine takes the same way. -/
theorem Block.Good.runChunks_spec {cs : List Chunk} {b : Block} (h : b.Good) (ht : Tracks b.W b.L b.state cs) :
    (b.stream.length < chunkSum cs ∧ ∃ c front short, Block.runChunks cs b = .ok c ∧ b.ParkedInside cs front short c) ∨
    (chunkSum cs ≤ b.stream.length ∧ ∃ c, b.Consumed cs c ∧
      (b.stream.take (chunkSum cs) = chunkBits cs → b.SameWay cs c)) := by
  induction cs generalizing b with
  | nil =>
    exact .inr ⟨by simp [chunkSum], b, ⟨rfl, h, rfl, rfl, by simp [chunkSum], .refl b⟩, fun _ => ⟨.refl, fun n => by simp⟩⟩
  | cons c cs ih =>
    obtain ⟨hy, hw, hv, hlit, ht⟩ := ht
    rw [← Block.chunkWidth_eq] at hw
    obtain ⟨hw1, hw8⟩ := h.inv.chunkWidth_range hy
    rcases Block.getBits_spec h.inv.bsOk (n := c.width) (by omega) (by omega) with ⟨hl, hg⟩ | ⟨hl, bs, hg, ok, hst, -⟩
    · refine .inl ⟨by rw [chunkSum_cons]; omega, b, [], c, by rw [Block.runChunks, hg], ⟨cs, rfl⟩, h, hy, rfl, rfl,
        Nat.zero_le _, hw.symm, hl, fun _ => ⟨.refl, fun n hn => ?_⟩, .refl b, rfl, rfl, rfl, rfl⟩
      obtain ⟨n, rfl⟩ : ∃ m, n = m + 1 := ⟨n - 1, by simp at hn; omega⟩
      exact h.finishUnit_of_short hy (by omega) n
    · obtain ⟨hgood, hfix, hst', hns⟩ := h.consume_one hy (by rw [← hw]; exact hv) ok (by rw [hst, hw])
      have hquiet := Block.afterChunk_quiet (b.setCursor bs) c.value
      have hset := Block.afterChunk_setCursor b bs c.value
      have hrun : Block.runChunks (c :: cs) b = Block.runChunks cs ((b.setCursor bs).afterChunk c.value) := by
        rw [Block.runChunks, hg]
      have hcons : b.consume (c :: cs) = Block.consume cs ((b.setCursor bs).afterChunk c.value) := by
        rw [Block.consume, hg]
      have hprog : natOfBits (b.stream.take c.width) = c.value →
          b.Progresses ((b.setCursor bs).afterChunk c.value) := by
        intro hval
        refine ⟨?_, ?_⟩
        · rw [b.fsmStep_reads hy h.inv.state h.inv.indexMsb h.inv.countMsb, Block.readChunk, ← hw, hg]
          simp only [hval]
        · have := Block.afterChunk_progress (b.setCursor bs) c.value hy h.inv.state
          simp only [progress, decide_eq_true_eq]
          exact fun e => this e.symm
      generalize hd : (b.setCursor bs).afterChunk c.value = d at *
      have hW : d.W = b.W := by rw [Block.W, hfix.cfgW]; rfl
      have hL : d.L = b.L := by rw [Block.L, hfix.cfgL]; rfl
      rcases ih hgood (by rw [hW, hL, hns]; exact ht) with ⟨hs, e, front, short, he, hp⟩ | ⟨hs, e, he, hmatch⟩
      · have hq : b.state ≠ .yieldLiteral := by
          intro hyl
          rw [hlit hyl] at hs
          simp [chunkSum] at hs
        obtain ⟨q1, q2, q3, q4⟩ := hquiet hq
        obtain ⟨p1, p2, p3, p4⟩ := hp.quiet
        obtain ⟨rest, hrest⟩ := hp.split
        rw [hst', List.length_drop] at hs
        refine .inl ⟨by rw [chunkSum_cons]; omega, e, c :: front, short, by rw [hrun, he], ⟨rest, by rw [hrest]; rfl⟩, hp.good,
          hp.reads, ?_, ?_, ?_, hp.width, hp.short, fun hpre => ?_, hfix.trans hp.fixed, p1.trans q1, p2.trans q2, p3.trans q3,
          p4.trans q4⟩
        · conv_lhs => rw [hp.shape, hset, Block.afterChunks_setCursor, Block.setCursor_setCursor]
          rfl
        · rw [hp.stream, hst', List.drop_drop, chunkSum_cons, hw]
        · have := hp.enough
          rw [hst', List.length_drop] at this
          rw [chunkSum_cons]
          omega
        · obtain ⟨tl, htl⟩ := hpre
          rw [chunkBits_cons] at htl
          have hval : natOfBits (b.stream.take c.width) = c.value := by
            rw [← List.take_append_of_le_length (l₂ := tl) hl, htl, natOfBits_take_append, Nat.mod_eq_of_lt hv]
          have hpre' : d.stream <+: chunkBits cs := by
            refine ⟨tl, ?_⟩
            rw [hst', ← hw, ← List.drop_append_of_le_length hl, htl, drop_bitsOfNat_append]
          obtain ⟨steps, fin⟩ := hp.sameWay hpre'
          refine ⟨.head (hprog hval) steps, fun n hn => ?_⟩
          obtain ⟨n, rfl⟩ : ∃ m, n = m + 1 := ⟨n - 1, by simp at hn; omega⟩
          have hnt : d.state ≠ .tagBit := by
            rw [hns]
            exact nextIn_ne_tagBit hq
          rw [(hprog hval).finishUnit, if_neg hnt, fin n (by simpa using hn)]
      · rw [hst', List.length_drop] at hs
        refine .inr ⟨by rw [chunkSum_cons]; omega, e, ⟨by rw [hrun, he.run], he.good, by rw [hcons, he.consumed], ?_, ?_,
          hfix.trans he.fixed⟩, ?_⟩
        · conv_lhs => rw [he.shape, hset, Block.afterChunks_setCursor, Block.setCursor_setCursor]
          rfl
        · rw [he.stream, hst', List.drop_drop, chunkSum_cons, hw]
        · intro hm
          rw [chunkSum_cons, chunkBits_cons] at hm
          have hval : natOfBits (b.stream.take c.width) = c.value := by
            have := congrArg (fun l => natOfBits (l.take c.width)) hm
            simp only [List.take_take] at this
            rwa [min_eq_left (by omega), natOfBits_take_append, Nat.mod_eq_of_lt hv] at this
          have hm' : d.stream.take (chunkSum cs) = chunkBits cs := by
            have := congrArg (fun l => l.drop c.width) hm
            rw [drop_bitsOfNat_append, List.drop_take] at this
            rw [hst', ← hw, ← this]
            congr 1
            omega
          have way := hmatch hm'
          refine ⟨.head (hprog hval) way.steps, fun n => ?_⟩
          rw [show (c :: cs).length + n = cs.length + n + 1 by simp; omega, (hprog hval).finishUnit, way.finish]
          by_cases hcs : cs = []
          · subst hcs
            obtain rfl : d = e := Option.some.inj he.consumed
            simp
          · have hnt : d.state ≠ .tagBit := by
              rw [hns]
              exact nextIn_ne_tagBit fun e => hcs (hlit e)
            simp [hcs, hnt]

end Sys2Proof.Machine
end

