-- ==== Sys2Proof/Laws/Feeding.lean ====
section
/-! SUPPORT. Feeding a block: what SINK does to a good block (R171), and that the state machine runs the same way whether the
bytes are already there or come later (R153, R154). -/

namespace Sys2Proof.Machine

theorem getLastD_append {α : Type} (xs ys : List α) (d : α) : (xs ++ ys).getLastD d = ys.getLastD (xs.getLastD d) := by
  cases h : ys.getLast? <;> simp [List.getLastD_eq_getLast?, List.getLast?_append, h]

/-! ### SINK -/

/-- The bytes SINK accepts from an argument (R171). -/
def Block.accepts (b : Block) (bytes : List Byte) : List Byte := bytes.take (b.cfgQ - b.bs.size)

theorem Block.accepts_length (b : Block) (bytes : List Byte) :
    (b.accepts bytes).length = min (b.cfgQ - b.bs.size) bytes.length := by
  rw [Block.accepts, List.length_take]

theorem Block.sink_eq (b : Block) (bytes : List Byte) :
    b.sink bytes = (b.enqueue (b.accepts bytes), bytes.length - (b.accepts bytes).length) := by
  have e : bytes.take (min (b.cfgQ - b.bs.size) bytes.length) = bytes.take (b.cfgQ - b.bs.size) := by
    rw [List.take_eq_take_iff]
    omega
  rw [Block.sink, Block.accepts_length]
  simp only [e]
  rfl

/-- Counting bytes in keeps a good block good, when they fit. -/
theorem Block.Good.enqueue {b : Block} (h : b.Good) {bytes : List Byte} (hf : b.bs.size + bytes.length ≤ b.cfgQ) :
    (b.enqueue bytes).Good := by
  have hi := h.inv
  refine ⟨{ hi with
    readIndex_le := ?_, size_le := hf, drained := ?_, inq := ?_
    config := hi.config, indexMsb := hi.indexMsb, countMsb := hi.countMsb, head := hi.head, indexLsb := hi.indexLsb
    index := hi.index, countLsb := hi.countLsb, win := hi.win }, h.live⟩
  · have := hi.readIndex_le
    show b.bs.readIndex ≤ b.bs.size + bytes.length
    omega
  · intro e
    have := hi.readIndex_le
    have e' : b.bs.readIndex = b.bs.size + bytes.length := e
    have := hi.drained (by omega)
    show b.bs.size + bytes.length = 0
    omega
  · exact ⟨Memory.writeBytes_wf hi.inq.1 _ _, Memory.writeBytes_inRange hi.inq.2 hf⟩

/-- The unread bytes after SINK: the new ones come last. -/
theorem Block.unread_enqueue {b : Block} (hq : b.inq.wf) (hr : b.bs.readIndex ≤ b.bs.size) (bytes : List Byte) :
    (b.enqueue bytes).unread = b.unread ++ bytes := by
  apply List.ext_getElem?
  intro i
  have hlen : b.unread.length = b.bs.size - b.bs.readIndex := by simp [Block.unread]
  have hread : ∀ a, (b.enqueue bytes).inq.read a =
      if b.bs.size ≤ a ∧ a < b.bs.size + bytes.length then bytes.getD (a - b.bs.size) 0 else b.inq.read a :=
    fun a => Memory.read_writeBytes hq _ a bytes
  have hnew : (b.enqueue bytes).bs.size - (b.enqueue bytes).bs.readIndex =
      b.bs.size - b.bs.readIndex + bytes.length := by
    show b.bs.size + bytes.length - b.bs.readIndex = _
    omega
  have hri : (b.enqueue bytes).bs.readIndex = b.bs.readIndex := rfl
  by_cases h1 : i < b.bs.size - b.bs.readIndex
  · rw [List.getElem?_append_left (by omega), Block.unread, Block.unread, List.getElem?_map, List.getElem?_map,
      List.getElem?_range (by omega), List.getElem?_range (by omega)]
    simp only [Option.map_some, hread, hri]
    rw [if_neg (by omega)]
  · rw [List.getElem?_append_right (by omega), hlen]
    by_cases h2 : i < b.bs.size - b.bs.readIndex + bytes.length
    · rw [Block.unread, List.getElem?_map, List.getElem?_range (by omega)]
      simp only [Option.map_some, hread, hri]
      rw [if_pos (by omega), show b.bs.readIndex + i - b.bs.size = i - (b.bs.size - b.bs.readIndex) by omega,
        List.getD_eq_getElem?_getD, List.getElem?_eq_getElem (by omega)]
      rfl
    · rw [List.getElem?_eq_none (by rw [Block.unread, List.length_map, List.length_range, hnew]; omega),
        List.getElem?_eq_none (by omega)]

theorem Block.stream_enqueue {b : Block} (hq : b.inq.wf) (hr : b.bs.readIndex ≤ b.bs.size) (bytes : List Byte) :
    (b.enqueue bytes).stream = b.stream ++ bytesBits bytes := by
  simp only [Block.stream, Block.unread_enqueue hq hr, bytesBits_append, List.append_assoc]
  rfl

theorem Block.lastByte_enqueue {b : Block} (hq : b.inq.wf) (hr : b.bs.readIndex ≤ b.bs.size) (bytes : List Byte) :
    (b.enqueue bytes).lastByte = bytes.getLastD b.lastByte := by
  have h1 : ∀ c : Block, c.lastByte = c.unread.getLastD c.bs.currentByte := fun c => rfl
  rw [h1, h1, Block.unread_enqueue hq hr]
  show (b.unread ++ bytes).getLastD b.bs.currentByte = _
  exact getLastD_append _ _ _

/-- SINK on a good block: the longest front part that fits is counted in behind the unread bytes (R171). -/
theorem Block.Good.sink_spec {b : Block} (h : b.Good) (bytes : List Byte) :
    ∃ c, b.sink bytes = (c, bytes.length - (b.accepts bytes).length) ∧ c.Good ∧
      c.stream = b.stream ++ bytesBits (b.accepts bytes) ∧ c.lastByte = (b.accepts bytes).getLastD b.lastByte ∧
      c = b.enqueue (b.accepts bytes) := by
  refine ⟨_, b.sink_eq bytes, h.enqueue ?_, Block.stream_enqueue h.inv.inq.1 h.inv.readIndex_le _,
    Block.lastByte_enqueue h.inv.inq.1 h.inv.readIndex_le _, rfl⟩
  have := h.inv.size_le
  rw [Block.accepts_length]
  omega

/-! ### Two blocks at the same point of the same stream -/

/-- `a` and `b` agree in everything the state machine computes with but the bits to come; `a` has `pre` in front of the
output of `b`. The input queue and its capacity may differ; so may `FAULT` and the storage capacity of the output, unless the
comparison is strict. -/
structure Block.SameCore (strict : Prop) (pre : List Byte) (a b : Block) : Prop where
  cfgW : a.cfgW = b.cfgW
  cfgL : a.cfgL = b.cfgL
  state : a.state = b.state
  outIndex : a.outIndex = b.outIndex
  outCount : a.outCount = b.outCount
  headReg : a.headReg = b.headReg
  win : a.win = b.win
  out : a.out = pre ++ b.out
  fault : strict → a.fault = b.fault
  cap : strict → pre = [] → a.outCap = b.outCap

namespace Block.SameCore

variable {strict : Prop} {pre : List Byte} {a b : Block}

theorem W (h : a.SameCore strict pre b) : a.W = b.W := by rw [Block.W, h.cfgW]; rfl

theorem L (h : a.SameCore strict pre b) : a.L = b.L := by rw [Block.L, h.cfgL]; rfl

theorem chunkWidth (h : a.SameCore strict pre b) : a.chunkWidth = b.chunkWidth := by
  rw [a.chunkWidth_eq, b.chunkWidth_eq, h.W, h.L, h.state]

theorem winRead (h : a.SameCore strict pre b) (d : Nat) : a.winRead d = b.winRead d := by
  simp only [Block.winRead, Block.N, Block.head, h.W, h.headReg, h.win]

theorem setCursor (h : a.SameCore strict pre b) (x y : BitstreamState) : (a.setCursor x).SameCore strict pre (b.setCursor y) :=
  ⟨h.1, h.2, h.3, h.4, h.5, h.6, h.7, h.8, h.9, h.10⟩

theorem withState (h : a.SameCore strict pre b) (st : DecoderState) :
    Block.SameCore strict pre { a with state := st } { b with state := st } :=
  ⟨h.1, h.2, rfl, h.4, h.5, h.6, h.7, h.8, h.9, h.10⟩

theorem emitStore (h : a.SameCore strict pre b) (v : Byte) : (a.emitStore v).SameCore strict pre (b.emitStore v) where
  cfgW := h.cfgW
  cfgL := h.cfgL
  state := h.state
  outIndex := h.outIndex
  outCount := h.outCount
  headReg := by
    show BitVec.ofNat 15 ((a.head + 1) % a.N) = BitVec.ofNat 15 ((b.head + 1) % b.N)
    simp only [Block.head, Block.N, h.W, h.headReg]
  win := by
    show a.win.write a.head v = b.win.write b.head v
    simp only [Block.head, Block.N, h.W, h.headReg, h.win]
  fault := h.fault
  out := by
    show a.out ++ [v] = pre ++ (b.out ++ [v])
    rw [h.out, List.append_assoc]
  cap := fun hs e => by
    show (if a.out.length = a.outCap then 2 * a.outCap else a.outCap) =
      if b.out.length = b.outCap then 2 * b.outCap else b.outCap
    rw [h.out, e, h.cap hs e, List.nil_append]

theorem copyRun (n : Nat) {a b : Block} (h : a.SameCore strict pre b) : (a.copyRun n).SameCore strict pre (b.copyRun n) := by
  induction n generalizing a b with
  | zero => exact h
  | succ n ih =>
    rw [Block.copyRun, Block.copyRun, h.winRead, h.outIndex]
    exact ih (h.emitStore _)

theorem afterChunk (h : a.SameCore strict pre b) (v : Nat) : (a.afterChunk v).SameCore strict pre (b.afterChunk v) := by
  have hW := h.W
  have hL := h.L
  unfold Block.afterChunk
  rw [h.state]
  cases b.state
  case tagBit =>
    simp only [Block.afterTag, hW]
    split
    · exact h.withState _
    · split
      · exact h.withState _
      · exact ⟨h.1, h.2, rfl, rfl, h.5, h.6, h.7, h.8, h.9, h.10⟩
  case yieldLiteral => exact (h.emitStore _).withState _
  case backrefIndexMsb => exact ⟨h.1, h.2, rfl, rfl, h.5, h.6, h.7, h.8, h.9, h.10⟩
  case backrefIndexLsb =>
    simp only [Block.afterIndexLsb, hL, h.outIndex]
    exact ⟨h.1, h.2, rfl, rfl, rfl, h.6, h.7, h.8, h.9, h.10⟩
  case backrefCountMsb => exact ⟨h.1, h.2, rfl, h.4, rfl, h.6, h.7, h.8, h.9, h.10⟩
  case backrefCountLsb =>
    simp only [Block.afterCountLsb, h.outCount]
    exact ⟨h.1, h.2, rfl, h.4, rfl, h.6, h.7, h.8, h.9, h.10⟩
  case yieldBackref => exact h
  case code7 => exact h

end Block.SameCore

/-- `b` stands where `a` stands, but has the bytes `ys` still to get (R154). -/
structure Block.Lags (strict : Prop) (pre ys : List Byte) (a b : Block) : Prop where
  core : a.SameCore strict pre b
  stream : a.stream = b.stream ++ bytesBits ys
  last : strict → a.lastByte = ys.getLastD b.lastByte

/-- A progressing step of the block that has fewer bits is a step of the other too, and they stay alike (R153). -/
theorem Block.Lags.step {strict : Prop} {pre ys : List Byte} {a b b' : Block} (h : a.Lags strict pre ys b)
    (ha : a.Good) (hb : b.Good) (hp : b.Progresses b') : ∃ a', a.Progresses a' ∧ a'.Lags strict pre ys b' := by
  have fb := hb.progress_facts hp
  have hw := h.core.chunkWidth
  have hle : a.chunkWidth ≤ a.stream.length := by
    rw [hw, h.stream, List.length_append]
    have := fb.enough
    omega
  have key : ∃ a', a.fsmStep = .ran a' ∧ a'.SameCore strict pre b' := by
    rcases hb.inv.fsmStep_cases with ⟨-, hl, -⟩ | ⟨hy, hl, y, -, e, -⟩ | ⟨hy, e⟩
    · exact absurd fb.enough (by omega)
    · rw [hp.1] at e
      cases e
      rcases ha.inv.fsmStep_cases with ⟨-, hl', -⟩ | ⟨-, -, x, -, e', -⟩ | ⟨hy', -⟩
      · omega
      · refine ⟨_, e', ?_⟩
        have ev : a.stream.take a.chunkWidth = b.stream.take b.chunkWidth := by
          rw [hw, h.stream, List.take_append_of_le_length hl]
        rw [ev]
        exact (h.core.setCursor x y).afterChunk _
      · exact absurd (h.core.state ▸ hy') hy
    · rw [hp.1] at e
      cases e
      refine ⟨_, ha.inv.fsmStep_copy (h.core.state.trans hy), ?_⟩
      rw [h.core.outCount]
      exact (h.core.copyRun _).withState _
  obtain ⟨a', ea, hc⟩ := key
  have hpa : a.Progresses a' := by
    refine ⟨ea, ?_⟩
    have := hp.2
    simp only [progress, decide_eq_true_eq] at this ⊢
    rw [h.core.state, hc.state]
    exact this
  have fa := ha.progress_facts hpa
  refine ⟨a', hpa, hc, ?_, ?_⟩
  · rw [fa.stream, fb.stream, hw, h.stream, List.drop_append_of_le_length fb.enough]
  · intro hs
    rw [fa.last, fb.last, h.last hs]

/-- The same for a run of steps. -/
theorem Block.Lags.steps {strict : Prop} {pre ys : List Byte} {a b b' : Block} (h : a.Lags strict pre ys b)
    (ha : a.Good) (hb : b.Good) (hs : Relation.ReflTransGen Block.Progresses b b') :
    ∃ a', Relation.ReflTransGen Block.Progresses a a' ∧ a'.Lags strict pre ys b' := by
  induction hs with
  | refl => exact ⟨a, .refl, h⟩
  | tail hs hp ih =>
    obtain ⟨a1, h1, l1⟩ := ih
    obtain ⟨a2, p2, l2⟩ := l1.step (ha.of_steps h1) (hb.of_steps hs) hp
    exact ⟨a2, .tail h1 p2, l2⟩

/-- The bytes that come later come by SINK. -/
theorem Block.Lags.enqueue {strict : Prop} {pre xs ys : List Byte} {a b : Block} (h : a.Lags strict pre (xs ++ ys) b)
    (hq : b.inq.wf) (hr : b.bs.readIndex ≤ b.bs.size) : a.Lags strict pre ys (b.enqueue xs) where
  core := ⟨h.core.1, h.core.2, h.core.3, h.core.4, h.core.5, h.core.6, h.core.7, h.core.8, h.core.9, h.core.10⟩
  stream := by rw [h.stream, Block.stream_enqueue hq hr, bytesBits_append, List.append_assoc]
  last := fun hs => by
    rw [h.last hs, Block.lastByte_enqueue hq hr, getLastD_append]

/-- The bytes that come later are there already when SINK has taken them. -/
theorem Block.Good.lags_enqueue {b : Block} (h : b.Good) (strict : Prop) (ys : List Byte) :
    (b.enqueue ys).Lags strict [] ys b where
  core := ⟨rfl, rfl, rfl, rfl, rfl, rfl, rfl, rfl, fun _ => rfl, fun _ _ => rfl⟩
  stream := Block.stream_enqueue h.inv.inq.1 h.inv.readIndex_le ys
  last := fun _ => Block.lastByte_enqueue h.inv.inq.1 h.inv.readIndex_le ys

/-- The cursor of a parked block follows from its stream and the last byte it was given. -/
theorem Block.Parked.cursor_eq {c d : Block} (hc : c.Parked) (hd : d.Parked) (mc : c.bs.bitMask ∈ legalMasks)
    (md : d.bs.bitMask ∈ legalMasks) (hs : c.stream = d.stream) (hl : c.lastByte = d.lastByte) : c.bs = d.bs := by
  have uc : c.unread = [] := by simp [Block.unread, hc.size]
  have ud : d.unread = [] := by simp [Block.unread, hd.size]
  have h1 : ∀ b : Block, b.lastByte = b.unread.getLastD b.bs.currentByte := fun b => rfl
  rw [h1, h1, uc, ud] at hl
  have hlen : bitsLeft c.bs.bitMask = bitsLeft d.bs.bitMask := by
    have := congrArg List.length hs
    simpa [Block.stream, uc, ud] using this
  have hm : c.bs.bitMask = d.bs.bitMask := by rw [mask_of_bitsLeft mc, mask_of_bitsLeft md, hlen]
  have es : c.bs.size = d.bs.size := hc.size.trans hd.size.symm
  have er : c.bs.readIndex = d.bs.readIndex := hc.readIndex.trans hd.readIndex.symm
  have eb : c.bs.currentByte = d.bs.currentByte := hl
  generalize c.bs = x at *
  generalize d.bs = y at *
  cases x
  cases y
  simp_all

/-- Two blocks that stand alike end POLL alike (R154). -/
theorem Block.Lags.poll_same {strict : Prop} {pre : List Byte} {a b : Block} (h : a.Lags strict pre [] b)
    (ha : a.Good) (hb : b.Good) :
    ∃ c d, a.poll = .ok c ∧ b.poll = .ok d ∧ c.Lags strict pre [] d ∧ c.Good ∧ d.Good ∧ c.Parked ∧ d.Parked ∧
      (strict → c.bs = d.bs) := by
  obtain ⟨d, ed, gd, sd, fd⟩ := hb.poll_spec
  obtain ⟨c, sc, l⟩ := h.steps ha hb sd
  have gc := ha.of_steps sc
  have pd := gd.parked fd
  have hlen : c.stream = d.stream := by simpa using l.stream
  have fc : c.fsmStep = .ran c := by
    rcases gc.inv.fsmStep_cases with ⟨-, -, e⟩ | ⟨-, hl, -⟩ | ⟨hy, -⟩
    · exact e
    · have := pd.short
      rw [Block.avail_eq gd.inv.bsOk, ← hlen, ← l.core.chunkWidth] at this
      omega
    · exact absurd (l.core.state.symm.trans hy) pd.reads
  have pc := gc.parked fc
  exact ⟨c, d, ha.poll_of_steps sc fc, ed, l, gc, gd, pc, pd,
    fun hs => pc.cursor_eq pd gc.inv.mask gd.inv.mask hlen (l.last hs)⟩

/-! ### PROCESS -/

/-- What PROCESS does to a good block: it ends with the block parked, keeps what the state machine keeps, stores what it
emits, and a block that had all the bytes from the start makes the same steps (R173, R154). -/
structure Block.Processed (b : Block) (bytes : List Byte) (c : Block) : Prop where
  good : c.Good
  parked : c.Parked
  cfgW : c.cfgW = b.cfgW
  cfgL : c.cfgL = b.cfgL
  cfgQ : c.cfgQ = b.cfgQ
  fault : c.fault = b.fault
  emitted : ∃ o, b.Emitted c o
  sameSteps : ∀ (strict : Prop) (pre ys : List Byte) (a : Block), a.Good → a.Lags strict pre (bytes ++ ys) b →
    ∃ a', Relation.ReflTransGen Block.Progresses a a' ∧ a'.Lags strict pre ys c

/-- One round of PROCESS: SINK, then POLL. -/
theorem Block.Good.round_spec {b : Block} (h : b.Good) (bytes : List Byte) :
    ∃ c, (b.sink bytes).1.poll = .ok c ∧ (b.sink bytes).2 = bytes.length - (b.accepts bytes).length ∧
      b.Processed (b.accepts bytes) c := by
  obtain ⟨m, em, gm, -, -, rfl⟩ := h.sink_spec bytes
  obtain ⟨c, ec, gc, sc, fc⟩ := gm.poll_spec
  have fix := gm.steps_fixed sc
  obtain ⟨o, ho⟩ := gm.steps_emitted sc
  refine ⟨c, by rw [em]; exact ec, by rw [em], gc, gc.parked fc, fix.cfgW, fix.cfgL, fix.cfgQ, fix.fault, ⟨o, ?_⟩, ?_⟩
  · exact ⟨ho.out, ho.cap, ho.head, ho.recent, ho.frame⟩
  · intro strict pre ys a ha la
    exact (la.enqueue h.inv.inq.1 h.inv.readIndex_le).steps ha gm sc

theorem Block.Processed.trans {b c d : Block} {xs ys : List Byte} (h : b.Processed xs c) (k : c.Processed ys d) :
    b.Processed (xs ++ ys) d := by
  obtain ⟨o, ho⟩ := h.emitted
  obtain ⟨p, hp⟩ := k.emitted
  refine ⟨k.good, k.parked, k.cfgW.trans h.cfgW, k.cfgL.trans h.cfgL, k.cfgQ.trans h.cfgQ, k.fault.trans h.fault,
    ⟨o ++ p, ho.trans ?_ hp⟩, ?_⟩
  · rw [Block.N, Block.W, h.cfgW]; rfl
  · intro strict pre zs a ha la
    rw [List.append_assoc] at la
    obtain ⟨a1, s1, l1⟩ := h.sameSteps strict pre (ys ++ zs) a ha la
    obtain ⟨a2, s2, l2⟩ := k.sameSteps strict pre zs a1 (ha.of_steps s1) l1
    exact ⟨a2, s1.trans s2, l2⟩

/-- The loop of PROCESS, with fuel for the rounds it can need. -/
theorem Block.Good.processLoop_spec {fuel : Nat} {rest : List Byte} {b : Block} (h : b.Good)
    (hf : rest.length + (if b.bs.size = 0 then 0 else 1) ≤ fuel) (hf1 : 1 ≤ fuel) :
    ∃ c, b.processLoop fuel rest = .drive (.ok c) ∧ b.Processed rest c := by
  induction fuel generalizing b rest with
  | zero => omega
  | succ fuel ih =>
    obtain ⟨c, ec, er, hc⟩ := h.round_spec rest
    have hlen := b.accepts_length rest
    have hsplit : rest = b.accepts rest ++ rest.drop (b.accepts rest).length := by
      rw [hlen, Block.accepts]
      conv_lhs => rw [← List.take_append_drop (b.cfgQ - b.bs.size) rest]
      congr 1
      by_cases hq : b.cfgQ - b.bs.size ≤ rest.length
      · rw [min_eq_left hq]
      · rw [min_eq_right (by omega), List.drop_length, List.drop_eq_nil_of_le (by omega)]
    rw [Block.processLoop, ec]
    simp only [er]
    split
    · rename_i e0
      refine ⟨c, rfl, ?_⟩
      have : rest.drop (b.accepts rest).length = [] := List.drop_eq_nil_of_le (by omega)
      rw [this, List.append_nil] at hsplit
      rw [← hsplit] at hc
      exact hc
    · rename_i e0
      have hQ := h.inv.config.2.2.2.2
      rw [show rest.length - (rest.length - (b.accepts rest).length) = (b.accepts rest).length by omega]
      obtain ⟨d, ed, hd⟩ := ih (rest := rest.drop (b.accepts rest).length) hc.good
        (by
          rw [if_pos hc.parked.size, List.length_drop]
          split at hf
          · rename_i hs
            rw [hs] at hlen
            omega
          · omega)
        (by
          split at hf
          · rename_i hs
            rw [hs] at hlen
            omega
          · omega)
      refine ⟨d, ed, ?_⟩
      have := hc.trans hd
      rwa [← hsplit] at this

/-- PROCESS on a good block (R173). -/
theorem Block.Good.process_spec {b : Block} (h : b.Good) (bytes : List Byte) :
    ∃ c, b.process bytes = .drive (.ok c) ∧ b.Processed bytes c :=
  h.processLoop_spec (by split <;> omega) (by omega)

end Sys2Proof.Machine
end

