-- ==== Sys2Proof/Laws/PerInstr.lean ====
section
/-! SUPPORT. Statements made per instruction: how many bits each has (R81, R82, R85; a transaction and an internal operation
have none). -/

namespace Sys2Proof.Laws

/-- The bits an instruction takes in the stream: 9, or 1 + W + L, or none at all. -/
def bitLength (W L : Nat) : Instr → Option Nat
  | .lit _ => some 9
  | .bref _ _ => some (1 + W + L)
  | .new _ _ _ => none
  | .sink _ => none
  | .poll => none
  | .process _ => none
  | .isFinished => none
  | .getOutput => none
  | .reset => none
  | .getBits _ => none
  | .winStore _ => none
  | .winRead _ => none

namespace BitLength

/-- The encoding has exactly these bits, whatever the operands (R85). -/
def Statement (i : Instr) : Prop := ∀ W L : Nat, (encode W L i).map List.length = bitLength W L i

theorem lit (v : Byte) : Statement (.lit v) := fun W L => by simp [encode, bitLength]

theorem bref (idx cnt : Half) : Statement (.bref idx cnt) := fun W L => by
  simp [encode, bitLength]
  omega

theorem new (w l q : Int) : Statement (.new w l q) := fun _ _ => rfl

theorem sink (bytes : List Byte) : Statement (.sink bytes) := fun _ _ => rfl

theorem poll : Statement .poll := fun _ _ => rfl

theorem process (bytes : List Byte) : Statement (.process bytes) := fun _ _ => rfl

theorem isFinished : Statement .isFinished := fun _ _ => rfl

theorem getOutput : Statement .getOutput := fun _ _ => rfl

theorem reset : Statement .reset := fun _ _ => rfl

theorem getBits (count : Nat) : Statement (.getBits count) := fun _ _ => rfl

theorem winStore (v : Byte) : Statement (.winStore v) := fun _ _ => rfl

theorem winRead (d : Nat) : Statement (.winRead d) := fun _ _ => rfl

end BitLength

end Sys2Proof.Laws
end

