-- ==== Sys2Proof/Laws/Transactions.lean ====
section
/-! SUPPORT. What the three feeding transactions answer on a good block: in each case a next state, with the block that the
laws of SINK, of the drive loop and of PROCESS describe. -/

namespace Sys2Proof.Machine

theorem exec_sink {s : State} {b : Block} (hs : s.block = some b) (h : b.Good) (bytes : List Byte) :
    exec (.sink bytes) s = .next { s with
      block := some (b.enqueue (b.accepts bytes))
      reply := some (.ok (.notAccepted (bytes.length - (b.accepts bytes).length))) } := by
  simp [exec, execSink, State.withLiveBlock_live hs h.live, b.sink_eq bytes]

theorem exec_poll {s : State} {b c : Block} (hs : s.block = some b) (h : b.Good) (e : b.poll = .ok c) :
    exec .poll s = .next { s with block := some c, reply := some (.ok .nothing) } := by
  simp [exec, execPoll, State.withLiveBlock_live hs h.live, State.conclude, e]

theorem exec_process {s : State} {b : Block} (hs : s.block = some b) (h : b.Good) (bytes : List Byte) :
    ∃ c, b.Processed bytes c ∧
      exec (.process bytes) s = .next { s with block := some c, reply := some (.ok .nothing) } := by
  obtain ⟨c, e, p⟩ := h.process_spec bytes
  refine ⟨c, p, ?_⟩
  simp [exec, execProcess, State.withLiveBlock_live hs h.live, State.conclude, e]

end Sys2Proof.Machine
end

