-- ==== Sys2Proof/Laws/UnitEffects.lean ====
section
/-! SUPPORT. What a unit's chunks leave in the block, in closed form (R84, R155, R156): the accumulators hold the 1-based
numbers, and a literal is emitted and stored. -/

namespace Sys2Proof.Machine

/-- Two chunks assembled are the field plus one (R84). -/
theorem accumulate_split {n : Nat} {x : Half} (hn : n ≤ 15) (h8 : 8 < n) (hx : x.toNat < 2 ^ n) :
    accumulateLsb (accumulateMsb (x.toNat >>> 8)) (x.toNat % 2 ^ 8) = x + 1 := by
  have hpow : 2 ^ n = 2 ^ (n - 8) * 256 := by
    rw [show (256 : Nat) = 2 ^ 8 by decide, ← pow_add]; congr 1; omega
  have hle : 2 ^ n ≤ 2 ^ 15 := Nat.pow_le_pow_right (by decide) hn
  have h1 : x.toNat >>> 8 < 2 ^ (n - 8) := by rw [Nat.shiftRight_eq_div_pow]; omega
  obtain ⟨e, hlt⟩ := accumulateMsb_toNat hn h8 h1
  have h2 := (accumulateLsb_toNat (acc := accumulateMsb (x.toNat >>> 8)) (l := x.toNat % 2 ^ 8) hn
    (by rw [awaitsLsb, if_pos h8, e]; exact ⟨by omega, hlt⟩)
    (by rw [min_eq_right (by omega)]; exact Nat.mod_lt _ (by decide))).1
  apply BitVec.eq_of_toNat_eq
  rw [h2, e, Nat.shiftRight_eq_div_pow, BitVec.toNat_add]
  show x.toNat / 2 ^ 8 * 256 + x.toNat % 2 ^ 8 + 1 = (x.toNat + 1) % 65536
  omega

/-- One chunk assembled is the field plus one (R84). -/
theorem accumulate_single {n : Nat} {x : Half} (hn : n ≤ 8) (hx : x.toNat < 2 ^ n) : accumulateLsb 0 x.toNat = x + 1 := by
  have hle : 2 ^ n ≤ 2 ^ 8 := Nat.pow_le_pow_right (by decide) hn
  have h2 := (accumulateLsb_toNat (acc := 0) (l := x.toNat) (n := n) (by omega) (by rw [awaitsLsb, if_neg (by omega)])
    (by rw [min_eq_left (by omega)]; exact hx)).1
  apply BitVec.eq_of_toNat_eq
  rw [h2, BitVec.toNat_add]
  show 0 + x.toNat + 1 = (x.toNat + 1) % 65536
  omega

/-- The index chunks (R143, R144). -/
theorem Block.afterChunks_index {b : Block} {idx : Half} (hW : b.W ≤ 15) (hi : idx.toNat < 2 ^ b.W)
    (hs : b.state = if b.W > 8 then .backrefIndexMsb else .backrefIndexLsb) (h0 : b.W ≤ 8 → b.outIndex = 0) :
    b.afterChunks (fieldChunks b.W idx.toNat) =
      { b with outIndex := idx + 1, outCount := 0, state := if b.L > 8 then .backrefCountMsb else .backrefCountLsb } := by
  unfold fieldChunks
  by_cases h8 : b.W > 8
  · rw [if_pos h8] at hs
    rw [if_pos h8, Block.afterChunks_cons, Block.afterChunks_cons, Block.afterChunks_nil]
    simp only [Block.afterChunk, hs, Block.afterIndexMsb, Block.afterIndexLsb, accumulate_split hW h8 hi]
    rfl
  · rw [if_neg h8] at hs
    rw [if_neg h8, Block.afterChunks_cons, Block.afterChunks_nil]
    simp only [Block.afterChunk, hs, Block.afterIndexLsb, h0 (by omega), accumulate_single (by omega) hi]

/-- The count chunks (R145, R146). -/
theorem Block.afterChunks_count {b : Block} {cnt : Half} (hL : b.L ≤ 15) (hc : cnt.toNat < 2 ^ b.L)
    (hs : b.state = if b.L > 8 then .backrefCountMsb else .backrefCountLsb) (h0 : b.L ≤ 8 → b.outCount = 0) :
    b.afterChunks (fieldChunks b.L cnt.toNat) = { b with outCount := cnt + 1, state := .yieldBackref } := by
  unfold fieldChunks
  by_cases h8 : b.L > 8
  · rw [if_pos h8] at hs
    rw [if_pos h8, Block.afterChunks_cons, Block.afterChunks_cons, Block.afterChunks_nil]
    simp only [Block.afterChunk, hs, Block.afterCountMsb, Block.afterCountLsb, accumulate_split hL h8 hc]
  · rw [if_neg h8] at hs
    rw [if_neg h8, Block.afterChunks_cons, Block.afterChunks_nil]
    simp only [Block.afterChunk, hs, Block.afterCountLsb, h0 (by omega), accumulate_single (by omega) hc]

/-- The chunks of a BREF leave the offset and the count, and the copy still to do (R156). -/
theorem Block.Good.afterChunks_bref {b : Block} (h : b.Good) (ht : b.state = .tagBit) {idx cnt : Half}
    (hi : idx.toNat < 2 ^ b.W) (hc : cnt.toNat < 2 ^ b.L) :
    b.afterChunks (brefChunks b.W b.L idx cnt) =
      { b with outIndex := idx + 1, outCount := cnt + 1, state := .yieldBackref } := by
  obtain ⟨hW4, hW15, hL1, hLW, -⟩ := h.inv.config
  rw [brefChunks, Block.afterChunks_cons, Block.afterChunks_append]
  simp only [Block.afterChunk, ht, Block.afterTag, Nat.zero_ne_one, if_false]
  by_cases h8 : b.W > 8
  · rw [if_pos h8]
    have e := Block.afterChunks_index (b := { b with state := .backrefIndexMsb }) (idx := idx) hW15 hi
      (by simp only; rw [if_pos (by exact h8)]) (fun x => absurd x (by show ¬ b.W ≤ 8; omega))
    have e2 := Block.afterChunks_count (cnt := cnt)
      (b := { b with outIndex := idx + 1, outCount := 0,
                     state := if b.L > 8 then .backrefCountMsb else .backrefCountLsb })
      (by show b.L ≤ 15; omega) hc rfl (fun _ => rfl)
    exact (congrArg (fun c => c.afterChunks (fieldChunks b.L cnt.toNat)) e).trans e2
  · rw [if_neg h8]
    have e := Block.afterChunks_index (b := { b with outIndex := 0, state := .backrefIndexLsb }) (idx := idx) hW15 hi
      (by simp only; rw [if_neg (by exact h8)]) (fun _ => rfl)
    have e2 := Block.afterChunks_count (cnt := cnt)
      (b := { b with outIndex := idx + 1, outCount := 0,
                     state := if b.L > 8 then .backrefCountMsb else .backrefCountLsb })
      (by show b.L ≤ 15; omega) hc rfl (fun _ => rfl)
    exact (congrArg (fun c => c.afterChunks (fieldChunks b.L cnt.toNat)) e).trans e2

/-- The chunks of a LIT emit and store the byte and end in TagBit (R155). -/
theorem Block.afterChunks_lit {b : Block} (ht : b.state = .tagBit) (v : Byte) :
    b.afterChunks (litChunks v) = b.emitStore v := by
  have hb : b = { b with state := .tagBit } := by rw [← ht]
  conv_rhs => rw [hb]
  simp [litChunks, Block.afterChunk, Block.afterTag, ht, Block.afterLiteral]
  rfl

/-! ### A unit's run -/

/-- The chunks are the unit's bits (R83: "the two chunks together are the same big-endian field", R61). -/
theorem encode_unit {W L : Nat} {i : Instr} (hi : i.isUnit = true) :
    encode W L i = some (chunkBits (unitChunks W L i)) := by
  cases i <;> simp [Instr.isUnit] at hi
  · simp [encode, unitChunks, litChunks, chunkBits, bitsOfNat]
  · simp [encode, unitChunks, brefChunks, chunkBits_append, chunkBits_fieldChunks, bitsOfNat]

/-- The chunks are the ones the state machine asks for from TagBit on. -/
theorem tracks_unit {W L : Nat} {i : Instr} (hi : i.isUnit = true) (hw : i.wf W L = true) :
    Tracks W L .tagBit (unitChunks W L i) := by
  cases i <;> simp [Instr.isUnit, Instr.wf] at hi hw
  · exact tracks_lit W L _
  · exact tracks_bref hw.1 hw.2

/-- In TagBit of a good block a unit's meaning is the run of its chunks. -/
theorem exec_unit {s : State} {b : Block} {i : Instr} (hs : s.block = some b) (h : b.Good) (ht : b.state = .tagBit)
    (hi : i.isUnit = true) : exec i s = s.concludeUnit (Block.runChunks (unitChunks b.W b.L i) b) := by
  cases i <;> simp [Instr.isUnit] at hi
  · simp [exec, execLit, State.runUnit, State.withLiveBlock_live hs h.live, ht, unitChunks]
  · simp [exec, execBref, State.runUnit, State.withLiveBlock_live hs h.live, ht, unitChunks]

/-- How a whole unit ends: a LIT in the block that has consumed its chunks, a BREF in the copy that follows them. -/
inductive Block.UnitEnd (b m : Block) : Instr → Block → Prop where
  | lit (v : Byte) (h : m = (b.emitStore v).setCursor m.bs) : Block.UnitEnd b m (.lit v) m
  | bref (idx cnt : Half) (hm : m = { b with bs := m.bs, outIndex := idx + 1, outCount := cnt + 1, state := .yieldBackref })
      (hp : m.Progresses { m.copyRun m.outCount.toNat with state := .tagBit }) :
      Block.UnitEnd b m (.bref idx cnt) { m.copyRun m.outCount.toNat with state := .tagBit }

/-- A whole unit on a good block in TagBit: its chunks are consumed, it ends in TagBit with the rest of the stream, and the
state machine takes the same way when the bits are its own (R155, R156). -/
theorem Block.Good.runUnit_spec {b : Block} {i : Instr} (h : b.Good) (ht : b.state = .tagBit) (hi : i.isUnit = true)
    (hw : i.wf b.W b.L = true) (hl : chunkSum (unitChunks b.W b.L i) ≤ b.stream.length) :
    ∃ m c, b.Consumed (unitChunks b.W b.L i) m ∧
      (b.stream.take (chunkSum (unitChunks b.W b.L i)) = chunkBits (unitChunks b.W b.L i) →
        b.SameWay (unitChunks b.W b.L i) m) ∧
      Block.runChunks (unitChunks b.W b.L i) b = .ok c ∧ c.Good ∧ c.state = .tagBit ∧
      c.stream = b.stream.drop (chunkSum (unitChunks b.W b.L i)) ∧ b.UnitEnd m i c := by
  rcases h.runChunks_spec (by rw [ht]; exact tracks_unit hi hw) with ⟨hh, -⟩ | ⟨-, m, hm, way⟩
  · omega
  cases i <;> simp [Instr.isUnit] at hi
  · rename_i v
    have hsh := hm.shape
    simp only [unitChunks] at hsh
    rw [Block.afterChunks_lit ht] at hsh
    have hst : m.state = .tagBit := by rw [hsh]; exact ht
    refine ⟨m, m, hm, way, ?_, hm.good, hst, hm.stream, .lit v hsh⟩
    rw [hm.run, Block.endUnit, hst]
    simp
  · rename_i idx cnt
    have hsh := hm.shape
    simp only [Instr.wf, Bool.and_eq_true, decide_eq_true_eq] at hw
    simp only [unitChunks] at hsh
    rw [h.afterChunks_bref ht hw.1 hw.2] at hsh
    have hst : m.state = .yieldBackref := by rw [hsh]; rfl
    have hf := hm.good.inv.fsmStep_copy hst
    have hp : m.Progresses { m.copyRun m.outCount.toNat with state := .tagBit } := ⟨hf, by simp [progress, hst]⟩
    have pf := hm.good.progress_facts hp
    have hw0 : m.chunkWidth = 0 := by simp only [Block.chunkWidth, hst]
    refine ⟨m, _, hm, way, ?_, pf.good, rfl, by rw [pf.stream, hw0, List.drop_zero, hm.stream], .bref idx cnt hsh hp⟩
    rw [Block.fsmStep, hst] at hf
    rw [hm.run, Block.endUnit, if_pos hst, show m.stepYieldBackref = _ from hf]

end Sys2Proof.Machine
end

