-- ==== Sys2Proof/Tests/Slice0.lean ====
section
/-! SUPPORT. Tests: words written out bit by bit from the spec's encodings, terms the well-formedness check refuses, one-step
tests with results taken from 95_test_vectors.md, and for every statement with hypotheses a concrete witness that meets them. -/

open Sys2Proof Sys2Proof.Machine Sys2Proof.Certificates

namespace Sys2Proof.Tests

/-! ### Small states -/

/-- A block with these parameters, state, cursor and queue, W = 8, L = 4 and Q = 8 unless set otherwise. -/
def blk (st : DecoderState) (bs : BitstreamState) (inq : Memory) : Block where
  cfgW := 8
  cfgL := 4
  cfgQ := 8
  state := st
  bs := bs
  inq := inq
  outIndex := 0
  outCount := 0
  headReg := 0
  win := []
  out := []
  outCap := 16
  fault := { valid := false, kind := .corruptDataError, cause := 0x00 }

/-- `size / readIndex / currentByte / bitMask`, as 95_test_vectors.md writes the cursor. -/
def cur (size readIndex : Nat) (currentByte bitMask : Byte) : BitstreamState := ⟨size, readIndex, currentByte, bitMask⟩

/-- The state of a machine with this block. -/
def st (b : Block) : State := { block := some b, script := [], reply := none }

/-- A field of the block that an outcome leaves. -/
def after {α : Type} (o : StepOutcome) (f : Block → α) : Option α :=
  match o with
  | .next t => t.block.map f
  | .fault _ => none
  | .refused _ => none

/-- The outcome the host is told. -/
def told (o : StepOutcome) : Option CallOutcome :=
  match o with
  | .next t => t.reply
  | .fault _ => none
  | .refused _ => none

/-- Nothing queued, in TagBit: the state after construction. -/
def idle : Block := blk .tagBit (cur 0 0 0 0) []

/-- The first three bytes of V2: the LIT of 't', and the beginning of two more. -/
def ready : Block := blk .tagBit (cur 3 0 0 0) [(0, 0xba), (1, 0x5a), (2, 0x2d)]

/-- V1's queue. -/
def v1 : Block := blk .tagBit (cur 3 0 0 0) [(0, 0xAA), (1, 0xF0), (2, 0xCC)]

/-- W = 12, L = 10: both fields are split. -/
def wide (s : DecoderState) (bs : BitstreamState) (inq : Memory) (oi oc : Half) : Block :=
  { blk s bs inq with cfgW := 12, cfgL := 10, outIndex := oi, outCount := oc }

/-- W = 8, L = 4 with the accumulators set. -/
def narrow (s : DecoderState) (bs : BitstreamState) (inq : Memory) (oi oc : Half) : Block :=
  { blk s bs inq with outIndex := oi, outCount := oc }

/-- S14's block: W = 4, and a copy to do. -/
def copying (oi oc : Half) : Block := { blk .yieldBackref (cur 0 0 0 0) [] with cfgW := 4, cfgL := 3, outIndex := oi, outCount := oc }

/-- A faulted block (V24). -/
def faultedBlock : Block :=
  { copying 17 1 with fault := { valid := true, kind := .corruptDataError, cause := 0x10 } }

/-! ### Decoding is right: the words, bit by bit, from 30_encoding.md and 95_test_vectors.md -/

/-- R81: `1 llllllll`, u1 is `lit[7]`; V2's first unit `1 01110100` is 't'. -/
theorem test_decode_lit :
    decode 8 4 [true, false, true, true, true, false, true, false, false, true] = .ok (.lit 0x74, [true]) := by decide

/-- R82: `0 i{W} c{L}`; V2's `0 00000010 0010` is offset 3, count 3: idx 2, cnt 2. -/
theorem test_decode_bref : decode 8 4 [false, false, false, false, false, false, false, true, false, false, false, true, false] =
    .ok (.bref 2 2, []) := by decide

/-- P3: W = 12, L = 10, `0 0000 00000000 01 00101011` is BREF 1, 300. -/
theorem test_decode_bref_split : decode 12 10 [false, false, false, false, false, false, false, false, false, false, false,
    false, false, false, true, false, false, true, false, true, false, true, true] = .ok (.bref 0 299, []) := by decide

/-- R61: the first stream bit is bit 7 of the first byte; V19's byte 7f at W = 4, L = 3 is BREF 16, 8. -/
theorem test_decode_bytes : decodeBytes 4 3 [0x7f] = .ok (brefOf 16 8, []) := by decide

/-- R86: bits that end inside a unit are no unit, and the name says where they end. -/
theorem test_decode_incomplete : decode 8 4 [] = .error .incompleteTag ∧
    decode 8 4 [true, false] = .error .incompleteLiteral ∧ decode 8 4 [false, true] = .error .incompleteIndex ∧
    decode 8 4 (false :: List.replicate 11 true) = .error .incompleteCount := by decide

/-- R88: V16's program assembles to its bytes, `bc 5e 6f 40 26`. -/
theorem test_encode : packBytes 5 (assemble 8 4 [.lit 0x78, .lit 0x79, .lit 0x7a, brefOf 3 7]) =
    [0xbc, 0x5e, 0x6f, 0x40, 0x26] := by decide

/-- The table's bit 0 is the tag u0 and bit 1 is u1 = `lit[7]` (log 3): bits 1 and 3 set are `1 01000000`. -/
theorem test_table_word : decodeTableWord 9 0b101 = some (.lit 0x40) ∧ decodeTableWord 9 0b10 = some (.bref 0x80 0) := by
  decide

/-! ### Well-formedness refuses -/

/-- R82: an index of W bits is below 2^W. -/
theorem test_wf_index : (Instr.bref 256 0).wf 8 4 = false ∧ (Instr.bref 255 0).wf 8 4 = true := by decide

/-- R82: a count of L bits is below 2^L. -/
theorem test_wf_count : (Instr.bref 0 16).wf 8 4 = false ∧ (Instr.bref 0 15).wf 8 4 = true := by decide

/-- R5: the ranges of the parameters. -/
theorem test_wf_config : ¬LegalConfig 3 2 1 ∧ ¬LegalConfig 16 4 1 ∧ ¬LegalConfig 8 8 1 ∧ ¬LegalConfig 8 0 1 ∧ ¬LegalConfig 8 4 0 ∧
    LegalConfig 4 1 1 ∧ LegalConfig 15 14 1 := by decide

/-! ### The instructions, from 95_test_vectors.md -/

/-- V2's first unit: 't' is emitted, stored at `HEAD` = 0, and 9 of the 24 bits are consumed. -/
theorem test_lit : after (exec (.lit 0x74) (st ready)) (fun b => (b.out, b.win, b.headReg, b.bs)) =
    some ([0x74], [(0, 0x74)], 1, cur 3 2 0x5a 0x40) := by decide

/-- V19: BREF 16, 8 at W = 4, L = 3 after reset emits eight zeros and leaves `HEAD` = 8. -/
theorem test_bref_unwritten : after (exec (.bref 15 7) (st { blk .tagBit (cur 1 0 0 0) [(0, 0x7f)] with cfgW := 4, cfgL := 3 }))
    (fun b => (b.out, b.headReg, b.state, b.outIndex, b.outCount)) = some (List.replicate 8 0, 8, .tagBit, 16, 8) := by decide

/-- R156's example: after "ab", `0 00000001 0101` emits "ababab". -/
theorem test_bref_overlap : after (exec (.bref 1 5)
    (st { blk .tagBit (cur 2 0 0 0) [(0, 0x00), (1, 0xA8)] with win := [(0, 0x61), (1, 0x62)], headReg := 2 }))
    (fun b => (b.out, b.bs)) = some ([0x61, 0x62, 0x61, 0x62, 0x61, 0x62], cur 0 0 0xA8 0x04) := by decide

/-- V20: the first check that applies is the one raised. -/
theorem test_new_errors : told (exec (.new 0 0 1) (st idle)) = some (.error .configurationError 0x01) ∧
    told (exec (.new 20 10 (-5)) (st idle)) = some (.error .configurationError 0x02) ∧
    told (exec (.new 16 4 64) (st idle)) = some (.error .configurationError 0x03) ∧
    told (exec (.new 15 14 1) (st idle)) = some (.ok .newBlock) := by decide

/-- R170's example: NEW(8, 4, 64) has N = 256. -/
theorem test_new : after (exec (.new 8 4 64) (st idle)) (fun b => (b.N, b.cfgL, b.cfgQ, b.state)) = some (256, 4, 64, .tagBit) := by
  decide

/-- V21 step 5: with Q = 4 and three bytes queued, only 0x37 fits. -/
theorem test_sink : told (exec (.sink [0x37, 0x39]) (st { ready with cfgQ := 4 })) = some (.ok (.notAccepted 1)) ∧
    after (exec (.sink [0x37, 0x39]) (st { ready with cfgQ := 4 })) (fun b => (b.bs.size, b.inq.read 3)) = some (4, 0x37) := by
  decide

/-- V3's first row: after 0xba the block is parked in YieldLiteral with mask 0x40. -/
theorem test_poll : after (exec .poll (st (blk .tagBit (cur 1 0 0 0) [(0, 0xba)]))) (fun b => (b.state, b.bs, b.out)) =
    some (.yieldLiteral, cur 0 0 0xba 0x40, []) := by decide

/-- V17: LIT 'a'; BREF 1, 16 and two pad bits. -/
theorem test_process : after (exec (.process [0xb0, 0x80, 0x3c]) (st idle)) (fun b => (b.out, b.state, b.outIndex, b.outCount)) =
    some (List.replicate 17 0x61, .backrefIndexLsb, 0, 16) := by decide

/-- V4's first round: with Q = 4 the result is the same; here PROCESS of V17 with Q = 1. -/
theorem test_process_small_queue : after (exec (.process [0xb0, 0x80, 0x3c]) (st { idle with cfgQ := 1 })) (fun b => (b.out, b.bs)) =
    some (List.replicate 17 0x61, cur 0 0 0x3c 0x01) := by decide

/-- V21 steps 2 and 4. -/
theorem test_is_finished : told (exec .isFinished (st idle)) = some (.ok (.finished true)) ∧
    told (exec .isFinished (st ready)) = some (.ok (.finished false)) := by decide

/-- V22: GET_OUTPUT takes the output. -/
theorem test_get_output : told (exec .getOutput (st { idle with out := [0x74, 0x68] })) = some (.ok (.bytes [0x74, 0x68])) ∧
    after (exec .getOutput (st { idle with out := [0x74, 0x68] })) Block.outSize = some 0 := by decide

/-- V24's last line: RESET clears `FAULT`. -/
theorem test_reset : told (exec .reset (st faultedBlock)) = some (.ok .nothing) ∧
    after (exec .reset (st faultedBlock)) (fun b => (b.fault.valid, b.state, b.outIndex, b.cfgW)) = some (false, .tagBit, 0, 4) := by
  decide

/-- V1's first call, and V9's width check. -/
theorem test_get_bits : told (exec (.getBits 13) (st v1)) = some (.ok (.value 0x155E)) ∧
    after (exec (.getBits 13) (st v1)) Block.bs = some (cur 3 2 0xF0 0x04) ∧
    told (exec (.getBits 16) (st v1)) = some (.error .internalError 0x20) := by decide

/-- V12: 7 bits left, 8 asked for: NOBITS and nothing changes; and V1's last call, which compacts. -/
theorem test_get_bits_edge : exec (.getBits 8) (st (blk .tagBit (cur 0 0 0xA5 0x40) [])) =
      .next { st (blk .tagBit (cur 0 0 0xA5 0x40) []) with reply := some (.ok .nobits) } ∧
    after (exec (.getBits 11) (st { v1 with bs := cur 3 2 0xF0 0x04 })) Block.bs = some (cur 0 0 0xCC 0x00) := ⟨rfl, by decide⟩

/-- V13: the head wraps. -/
theorem test_win_store : after (exec (.winStore 0x41) (st { idle with cfgW := 4, cfgL := 3, headReg := 15 }))
    (fun b => (b.win.read 15, b.headReg)) = some (0x41, 0) := by decide

/-- V14: `read(2)` at `HEAD` = 0 reads `WIN[14]`. -/
theorem test_win_read : told (exec (.winRead 2) (st { idle with cfgW := 4, cfgL := 3, win := [(14, 0x61)] })) = some (.ok (.byte 0x61)) ∧
    told (exec (.winRead 16) (st { idle with cfgW := 4, cfgL := 3, win := [(0, 0x62)] })) = some (.ok (.byte 0x62)) := by decide

/-- S2, S3: a tag 0 clears `OUT_INDEX` only when W ≤ 8. -/
theorem test_step_tag : (narrow .tagBit (cur 1 0 0 0) [] 7 0).fsmStep =
      .ran (narrow .backrefIndexLsb (cur 0 0 0 0x40) [] 0 0) ∧
    (wide .tagBit (cur 1 0 0 0) [] 7 0).fsmStep = .ran (wide .backrefIndexMsb (cur 0 0 0 0x40) [] 7 0) := by decide

/-- S7, S10, S11, S12: the chunks of a split field. -/
theorem test_step_chunks : (wide .backrefIndexMsb (cur 1 0 0 0) [(0, 0x50)] 0 0).fsmStep =
      .ran (wide .backrefIndexLsb (cur 0 0 0x50 0x08) [(0, 0x50)] 0x500 0) ∧
    (wide .backrefIndexLsb (cur 1 0 0 0) [] 0 5).fsmStep = .ran (wide .backrefCountMsb (cur 0 0 0 0) [] 1 0) ∧
    (wide .backrefCountMsb (cur 0 0 0x03 0x02) [] 1 0).fsmStep = .ran (wide .backrefCountLsb (cur 0 0 0x03 0) [] 1 0x300) ∧
    (wide .backrefCountLsb (cur 0 0 0xFF 0x80) [] 1 0x300).fsmStep = .ran (wide .yieldBackref (cur 0 0 0xFF 0) [] 1 1024) := by
  decide

/-- V24: the offset is checked first, and FAULT records the cause. -/
theorem test_corrupt : told (exec .poll (st (copying 17 17))) = some (.error .corruptDataError 0x10) ∧
    told (exec .poll (st (copying 1 17))) = some (.error .corruptDataError 0x11) ∧
    after (exec .poll (st (copying 17 1))) (fun b => (b.fault, b.out)) = some (⟨true, .corruptDataError, 0x10⟩, []) := by decide

/-- V25: the internal checks. -/
theorem test_internal : told (exec .poll (st (blk .backrefIndexMsb (cur 0 0 0 0) []))) = some (.error .internalError 0x21) ∧
    told (exec .poll (st (blk .backrefCountMsb (cur 0 0 0 0) []))) = some (.error .internalError 0x22) ∧
    told (exec .poll (st (blk .code7 (cur 0 0 0 0) []))) = some (.error .internalError 0x23) := by decide

/-- The unit of a table word is what the step after `withFetchWord` runs: `1 01000000` emits 0x40. -/
theorem test_fetch : after (step (State.reset.withFetchWord 9 0b101)) (fun b => (b.out, b.state)) = some ([0x40], .tagBit) := by
  decide

/-! ### Good blocks -/

theorem idle_good : idle.Good := ⟨by constructor <;> decide, rfl⟩

theorem ready_good : ready.Good := ⟨by constructor <;> decide, rfl⟩

theorem v1_good : v1.Good := ⟨by constructor <;> decide, rfl⟩

theorem copying_good : (copying 16 8).Good := ⟨by constructor <;> decide, rfl⟩

/-- In YieldLiteral with 7 bits left (S6), and with 8. -/
theorem literal_good : (blk .yieldLiteral (cur 0 0 0x41 0x40) []).Good ∧ (blk .yieldLiteral (cur 0 0 0x41 0x80) []).Good :=
  ⟨⟨by constructor <;> decide, rfl⟩, ⟨by constructor <;> decide, rfl⟩⟩

/-- In each index state, one bit short and with exactly the bits. -/
theorem index_inv : (wide .backrefIndexMsb (cur 0 0 0x05 0x04) [] 7 0).Inv ∧
    (wide .backrefIndexMsb (cur 0 0 0x05 0x08) [] 7 0).Inv ∧ (wide .backrefIndexLsb (cur 0 0 0xFF 0x40) [] 0x500 0).Inv ∧
    (wide .backrefIndexLsb (cur 0 0 0xFF 0x80) [] 0x500 0).Inv ∧ (narrow .backrefIndexLsb (cur 0 0 0xFF 0x80) [] 0 0).Inv :=
  ⟨by constructor <;> decide, by constructor <;> decide, by constructor <;> decide, by constructor <;> decide,
    by constructor <;> decide⟩

/-- In each count state, one bit short and with exactly the bits. -/
theorem count_inv : (wide .backrefCountMsb (cur 0 0 0x03 0x01) [] 1 0).Inv ∧
    (wide .backrefCountMsb (cur 0 0 0x03 0x02) [] 1 0).Inv ∧ (wide .backrefCountLsb (cur 0 0 0xFF 0x40) [] 1 0x300).Inv ∧
    (wide .backrefCountLsb (cur 0 0 0xFF 0x80) [] 1 0x300).Inv ∧ (narrow .backrefCountLsb (cur 0 0 0x0F 0x08) [] 256 0).Inv :=
  ⟨by constructor <;> decide, by constructor <;> decide, by constructor <;> decide, by constructor <;> decide,
    by constructor <;> decide⟩

/-! ### Witnesses: for each statement with hypotheses, values that meet them all -/

/-- Both units, with every field at its largest value, in the smallest and the largest configuration. -/
theorem witness_DecodeOfEncodeIsTheUnit : (Instr.lit 0xFF).isUnit = true ∧ (Instr.lit 0xFF).wf 4 1 = true ∧
    (Instr.bref 15 1).isUnit = true ∧ (Instr.bref 15 1).wf 4 1 = true ∧ (Instr.bref 32767 16383).wf 15 14 = true := by decide

theorem witness_EncodeOfDecodeIsTheBits : 8 ≤ 16 ∧ 4 ≤ 16 ∧
    decode 8 4 [true, false, true, true, true, false, true, false, false, true] = .ok (.lit 0x74, [true]) := by decide

/-- The smallest and the largest configuration; each tag, whole and cut short. -/
theorem witness_UnitLengthFollowsFromTag : LegalConfig 4 1 1 ∧ LegalConfig 15 14 1 ∧
    decode 4 1 (false :: List.replicate 5 true) = .ok (.bref 15 1, []) ∧
    decode 4 1 (true :: List.replicate 8 true) = .ok (.lit 0xFF, []) := by decide

/-- Each clause's hypothesis, the fields at the largest value. -/
theorem witness_EveryBitStringIsUnitsAndATail : LegalConfig 4 1 1 ∧
    decode 4 1 (true :: List.replicate 8 true) = .ok (.lit 0xFF, []) ∧
    decode 4 1 (false :: List.replicate 5 true) = .ok (.bref 15 1, []) ∧ (15 : Half).toNat < 2 ^ 4 ∧
    (1 : Half).toNat < 2 ^ 1 := by decide

/-- The three configurations, each at its smallest p. -/
theorem witness_ZeroPaddingDecodesAsBref : (LegalConfig 4 1 1 ∧ 6 ≤ 7 ∧ 1 + 4 + 1 ≤ 6) ∧
    (LegalConfig 4 2 1 ∧ 7 ≤ 7 ∧ 1 + 4 + 2 ≤ 7) ∧ (LegalConfig 5 1 1 ∧ 7 ≤ 7 ∧ 1 + 5 + 1 ≤ 7) ∧
    decode 4 1 (List.replicate 6 false) = .ok (brefOf 1 1, []) := by decide

/-- The smallest and the largest width. -/
theorem witness_GetBitsTakesTheNextBits : (st v1).block = some v1 ∧ v1.Inv ∧ 1 ≤ v1.stream.length ∧ 15 ≤ v1.stream.length :=
  ⟨rfl, v1_good.inv, by decide, by decide⟩

/-- One bit short, at the smallest and the largest width. -/
theorem witness_GetBitsFailsAtomically : (st idle).block = some idle ∧ idle.bs.avail < (1 : Nat) ∧
    (cur 1 0 0xA5 0x20).avail < (15 : Nat) := ⟨rfl, by decide, by decide⟩

theorem witness_GetBitsWidthIsChecked : (st v1).block = some v1 ∧ (0 < 1 ∨ 0 > 15) ∧ (16 < 1 ∨ 16 > 15) :=
  ⟨rfl, by decide, by decide⟩

/-- Both cases: V1 between its calls (a = 3, r = 1), with count = a, a + 1 and a + 8 r. -/
theorem witness_GetBitsClosedForm : Block.Inv { v1 with bs := cur 3 2 0xF0 0x04 } ∧ 3 = bitsLeft (0x04 : Byte) ∧
    (1 ≤ 3 ∧ 3 ≤ 15 ∧ 3 ≤ 3 + 8 * 1) ∧ (4 - 3 = 1 ∧ 1 = (1 + 7) / 8 ∧ 4 ≤ 3 + 8 * 1) ∧
    (11 - 3 = 8 ∧ 1 = (8 + 7) / 8 ∧ 8 = 8 - 8 * (1 - 1) ∧ 11 ≤ 3 + 8 * 1) :=
  ⟨by constructor <;> decide, by decide, by decide, by decide, by decide⟩

/-- An empty queue with bits left and without; an unread byte; NOBITS at width 9; a step that runs. -/
theorem witness_NoBitsInTermsOfTheQueue : idle.Inv ∧ idle.bs.size = 0 ∧ ready.Inv ∧ ready.bs.size ≠ 0 ∧
    Block.Inv { v1 with bs := cur 3 2 0xF0 0x00 } ∧ Block.getBits { v1 with bs := cur 3 2 0xF0 0x00 } 9 = .nobits ∧
    ready.fsmStep = .ran { ready with state := .yieldLiteral, bs := cur 3 1 0xba 0x40 } :=
  ⟨idle_good.inv, rfl, ready_good.inv, by decide, by constructor <;> decide, by decide, by decide⟩

/-- V1's queue as an explicit byte sequence: the bytes at 0, 1 and 2. -/
theorem witness_UnitGetBitsAgreesWithTheBlock : v1.Inv ∧
    ∀ a, a < 3 → ([0xAA, 0xF0, 0xCC] : List Byte)[a]? = some (v1.inq.read a) := ⟨v1_good.inv, by decide⟩

/-- V13's block: `HEAD` = N − 1. -/
theorem witness_StoreWritesAtHead : (st { idle with cfgW := 4, cfgL := 3, headReg := 15 }).block =
      some { idle with cfgW := 4, cfgL := 3, headReg := 15 } ∧
    Block.Inv { idle with cfgW := 4, cfgL := 3, headReg := 15 } := ⟨rfl, by constructor <;> decide⟩

theorem witness_ReadIsRelativeToHead : (st { idle with cfgW := 4, cfgL := 3, win := [(14, 0x61)] }).block =
      some { idle with cfgW := 4, cfgL := 3, win := [(14, 0x61)] } ∧
    Block.Inv { idle with cfgW := 4, cfgL := 3, win := [(14, 0x61)] } := ⟨rfl, by constructor <;> decide⟩

/-- 17 stores at W = 4 go once round the window (V18); distances 1 and N, and one that no store has reached. -/
theorem witness_WindowHoldsTheLastStores : LegalConfig (4 : BitVec 4).toNat (3 : BitVec 4).toNat 1 ∧
    List.replicate 17 (0x41 : Byte) ≠ [] ∧ (storeAll (Block.init 4 3 1) [0x41]).winRead 1 = 0x41 ∧
    (storeAll (Block.init 4 3 1) [0x41]).winRead 16 = 0x00 ∧ (storeAll (Block.init 4 3 1) [0x41]).winRead 2 = 0x00 := by
  decide

/-- A unit, a POLL and a PROCESS that answer with a block. -/
theorem witness_WindowMirrorsOutput : (st ready).block = some ready ∧ ready.Good ∧ (Instr.lit 0x74).wf ready.W ready.L = true ∧
    (Instr.lit 0x74).isUnit = true ∧ (after (exec (.lit 0x74) (st ready)) Block.outSize).isSome = true ∧
    (after (exec .poll (st ready)) Block.outSize).isSome = true ∧
    (after (exec (.process [0x00]) (st ready)) Block.outSize).isSome = true :=
  ⟨rfl, ready_good, by decide, by decide, by decide, by decide, by decide⟩

/-- No bit; and a tag. -/
theorem witness_TagBitStep : idle.Inv ∧ idle.state = .tagBit ∧ idle.stream = [] ∧ ready.Inv ∧ ready.state = .tagBit ∧
    ready.stream = true :: ready.stream.tail := ⟨idle_good.inv, rfl, rfl, ready_good.inv, rfl, by decide⟩

/-- Seven bits (S6), and eight. -/
theorem witness_YieldLiteralStep : (blk .yieldLiteral (cur 0 0 0x41 0x40) []).Inv ∧
    (blk .yieldLiteral (cur 0 0 0x41 0x40) []).stream.length < 8 ∧ (blk .yieldLiteral (cur 0 0 0x41 0x80) []).Inv ∧
    8 ≤ (blk .yieldLiteral (cur 0 0 0x41 0x80) []).stream.length :=
  ⟨literal_good.1.inv, by decide, literal_good.2.inv, by decide⟩

/-- Each clause one bit short and with exactly its bits: W − 8 = 4 and min(W, 8) = 8 at W = 12. -/
theorem witness_IndexChunkSteps : (wide .backrefIndexMsb (cur 0 0 0x05 0x04) [] 7 0).Inv ∧
    (wide .backrefIndexMsb (cur 0 0 0x05 0x04) [] 7 0).stream.length < 12 - 8 ∧
    (wide .backrefIndexMsb (cur 0 0 0x05 0x08) [] 7 0).Inv ∧
    12 - 8 ≤ (wide .backrefIndexMsb (cur 0 0 0x05 0x08) [] 7 0).stream.length ∧
    (wide .backrefIndexLsb (cur 0 0 0xFF 0x40) [] 0x500 0).Inv ∧
    (wide .backrefIndexLsb (cur 0 0 0xFF 0x40) [] 0x500 0).stream.length < min 12 8 ∧
    (wide .backrefIndexLsb (cur 0 0 0xFF 0x80) [] 0x500 0).Inv ∧
    min 12 8 ≤ (wide .backrefIndexLsb (cur 0 0 0xFF 0x80) [] 0x500 0).stream.length ∧
    (narrow .backrefIndexLsb (cur 0 0 0xFF 0x80) [] 0 0).Inv ∧
    min 8 8 ≤ (narrow .backrefIndexLsb (cur 0 0 0xFF 0x80) [] 0 0).stream.length :=
  ⟨index_inv.1, by decide, index_inv.2.1, by decide, index_inv.2.2.1, by decide, index_inv.2.2.2.1, by decide,
    index_inv.2.2.2.2, by decide⟩

/-- The same for the count: L − 8 = 2 and min(L, 8) = 8 at L = 10, and min(L, 8) = 4 at L = 4. -/
theorem witness_CountChunkSteps : (wide .backrefCountMsb (cur 0 0 0x03 0x01) [] 1 0).Inv ∧
    (wide .backrefCountMsb (cur 0 0 0x03 0x01) [] 1 0).stream.length < 10 - 8 ∧
    (wide .backrefCountMsb (cur 0 0 0x03 0x02) [] 1 0).Inv ∧
    10 - 8 ≤ (wide .backrefCountMsb (cur 0 0 0x03 0x02) [] 1 0).stream.length ∧
    (wide .backrefCountLsb (cur 0 0 0xFF 0x40) [] 1 0x300).Inv ∧
    (wide .backrefCountLsb (cur 0 0 0xFF 0x40) [] 1 0x300).stream.length < min 10 8 ∧
    (wide .backrefCountLsb (cur 0 0 0xFF 0x80) [] 1 0x300).Inv ∧
    min 10 8 ≤ (wide .backrefCountLsb (cur 0 0 0xFF 0x80) [] 1 0x300).stream.length ∧
    (narrow .backrefCountLsb (cur 0 0 0x0F 0x08) [] 256 0).Inv ∧
    min 4 8 ≤ (narrow .backrefCountLsb (cur 0 0 0x0F 0x08) [] 256 0).stream.length :=
  ⟨count_inv.1, by decide, count_inv.2.1, by decide, count_inv.2.2.1, by decide, count_inv.2.2.2.1, by decide,
    count_inv.2.2.2.2, by decide⟩

/-- The offset is N, the largest it can be. -/
theorem witness_YieldBackrefStep : (copying 16 8).Inv ∧ (copying 16 8).state = .yieldBackref ∧
    (copying 16 8).outIndex.toNat = (copying 16 8).N := ⟨copying_good.inv, rfl, by decide⟩

/-- A step without progress, and one with. -/
theorem witness_NoProgressIsNoBits : idle.fsmStep = .ran idle ∧ progress idle idle = false ∧
    ready.fsmStep = .ran { ready with state := .yieldLiteral, bs := cur 3 1 0xba 0x40 } := by decide

/-- A good block in each of the bit-reading states. -/
theorem witness_WidthsAskedOfGetBits : idle.Inv ∧ (blk .yieldLiteral (cur 0 0 0x41 0x80) []).Inv ∧
    (wide .backrefIndexMsb (cur 0 0 0x05 0x08) [] 7 0).Inv ∧ (wide .backrefIndexLsb (cur 0 0 0xFF 0x80) [] 0x500 0).Inv ∧
    (wide .backrefCountMsb (cur 0 0 0x03 0x02) [] 1 0).Inv ∧ (narrow .backrefCountLsb (cur 0 0 0x0F 0x08) [] 256 0).Inv :=
  ⟨idle_good.inv, literal_good.2.inv, index_inv.2.1, index_inv.2.2.2.1, count_inv.2.1, count_inv.2.2.2.2⟩

/-- A progressing step in TagBit, one in YieldBackref, and a trace of one step. -/
theorem witness_PollTerminates : ready.Good ∧
    Block.Progresses ready { ready with state := .yieldLiteral, bs := cur 3 1 0xba 0x40 } ∧ ready.state ≠ .yieldBackref ∧
    (copying 16 8).Good ∧ (copying 16 8).state = .yieldBackref ∧
    Block.Progresses (copying 16 8) { copying 16 8 with state := .tagBit, headReg := 8, out := List.replicate 8 0 } :=
  ⟨ready_good, ⟨by decide, by decide⟩, by decide, copying_good, rfl, ⟨by decide, by decide⟩⟩

/-- Exactly 9 bits in the stream. -/
theorem witness_LitEffect : (st { ready with bs := cur 2 1 0x01 0x01 }).block = some { ready with bs := cur 2 1 0x01 0x01 } ∧
    Block.Good { ready with bs := cur 2 1 0x01 0x01 } ∧ Block.state { ready with bs := cur 2 1 0x01 0x01 } = .tagBit ∧
    9 ≤ (Block.stream { ready with bs := cur 2 1 0x01 0x01 }).length :=
  ⟨rfl, ⟨by constructor <;> decide, rfl⟩, rfl, by decide⟩

/-- V19's block: exactly 1 + W + L = 8 bits, the fields at their largest. -/
theorem witness_BrefEffect : (st { blk .tagBit (cur 1 0 0 0) [(0, 0x7f)] with cfgW := 4, cfgL := 3 }).block =
      some { blk .tagBit (cur 1 0 0 0) [(0, 0x7f)] with cfgW := 4, cfgL := 3 } ∧
    Block.Good { blk .tagBit (cur 1 0 0 0) [(0, 0x7f)] with cfgW := 4, cfgL := 3 } ∧ (Instr.bref 15 7).wf 4 3 = true ∧
    1 + 4 + 3 ≤ (Block.stream { blk .tagBit (cur 1 0 0 0) [(0, 0x7f)] with cfgW := 4, cfgL := 3 }).length :=
  ⟨rfl, ⟨by constructor <;> decide, rfl⟩, by decide, by decide⟩

/-- Eight bits, one fewer than a LIT has, and they are the unit's own. -/
theorem witness_ShortUnitParks : (st (blk .tagBit (cur 1 0 0 0) [(0, 0xba)])).block = some (blk .tagBit (cur 1 0 0 0) [(0, 0xba)]) ∧
    (blk .tagBit (cur 1 0 0 0) [(0, 0xba)]).Good ∧ (Instr.lit 0x74).isUnit = true ∧ (Instr.lit 0x74).wf 8 4 = true ∧
    (encode 8 4 (.lit 0x74)).map List.length = some 9 ∧ (blk .tagBit (cur 1 0 0 0) [(0, 0xba)]).stream.length < 9 ∧
    encode 8 4 (.lit 0x74) = some ((blk .tagBit (cur 1 0 0 0) [(0, 0xba)]).stream ++ [false]) :=
  ⟨rfl, ⟨by constructor <;> decide, rfl⟩, by decide, by decide, by decide, by decide, by decide⟩

theorem witness_StateMachineRefinesUnits : (st ready).block = some ready ∧ ready.Good ∧ ready.state = .tagBit ∧
    decode ready.W ready.L ready.stream = .ok (.lit 0x74, ready.stream.drop 9) := ⟨rfl, ready_good, rfl, by decide⟩

theorem witness_PollRunsTheUnitsOfTheStream : (st ready).block = some ready ∧ ready.Good ∧ ready.state = .tagBit ∧
    decode ready.W ready.L ready.stream = .ok (.lit 0x74, ready.stream.drop 9) ∧
    exec (.lit 0x74) (st ready) = .next { st ready with
      block := some { ready with bs := cur 3 2 0x5a 0x40, win := [(0, 0x74)], headReg := 1, out := [0x74] } } :=
  ⟨rfl, ready_good, rfl, by decide, rfl⟩

/-- Each clause at a boundary: l = w; q = 0; w = 3 and w = 16; w = 4 and w = 15. -/
theorem witness_NewChecksThenBuilds : ((8 : Int) ≥ 8) ∧ ((4 : Int) < 8 ∧ ((4 : Int) ≤ 0 ∨ (8 : Int) ≤ 0 ∨ (0 : Int) ≤ 0)) ∧
    ((2 : Int) < 3 ∧ (0 : Int) < 2 ∧ (0 : Int) < 1 ∧ ((3 : Int) < 4 ∨ (3 : Int) > 15)) ∧
    ((4 : Int) < 16 ∧ ((16 : Int) < 4 ∨ (16 : Int) > 15)) ∧ ((1 : Int) < 4 ∧ (0 : Int) < 1 ∧ (4 : Int) ≤ 4 ∧ (4 : Int) ≤ 15) ∧
    ((14 : Int) < 15 ∧ (4 : Int) ≤ 15 ∧ (15 : Int) ≤ 15) := by decide

theorem witness_ValuesAfterReset : ((4 : Int) ≤ 15 ∧ (15 : Int) ≤ 15 ∧ (0 : Int) < 14 ∧ (14 : Int) < 15 ∧ (0 : Int) < 1) ∧
    (st faultedBlock).block = some faultedBlock := ⟨by decide, rfl⟩

theorem witness_ResetRestoresConstruction : (st faultedBlock).block = some faultedBlock ∧ faultedBlock.fault.valid = true :=
  ⟨rfl, rfl⟩

/-- Three bytes queued of Q = 8: two bytes fit whole, nine do not. -/
theorem witness_SinkAppendsWhatFits : (st ready).block = some ready ∧ ready.Good ∧ 2 = min (8 - 3) 2 ∧ 5 = min (8 - 3) 9 :=
  ⟨rfl, ready_good, by decide, by decide⟩

theorem witness_PollParksMidField : (st ready).block = some ready ∧ ready.Good ∧
    Block.Progresses ready { ready with state := .yieldLiteral, bs := cur 3 1 0xba 0x40 } :=
  ⟨rfl, ready_good, by decide, by decide⟩

theorem witness_PollFrame : (st (copying 16 8)).block = some (copying 16 8) ∧ (copying 16 8).Good := ⟨rfl, copying_good⟩

/-- Parked with no bit, and with 7 bits where 8 are asked for. -/
theorem witness_PollOfParkedChangesNothing : idle.Good ∧ idle.Parked ∧ (blk .yieldLiteral (cur 0 0 0x41 0x40) []).Good ∧
    (blk .yieldLiteral (cur 0 0 0x41 0x40) []).Parked :=
  ⟨idle_good, by constructor <;> decide, literal_good.1, by constructor <;> decide⟩

/-- At Q = 1 each round accepts one byte, so three bytes take three rounds and the second leaves the third byte. -/
theorem witness_ProcessAcceptsAll : (st ready).block = some ready ∧ ready.Good ∧ (st { idle with cfgQ := 1 }).block =
      some { idle with cfgQ := 1 } ∧ Block.Good { idle with cfgQ := 1 } ∧
    (sinkRounds 2 [0xb0, 0x80, 0x3c] (st { idle with cfgQ := 1 })).map (·.1) = some [0x3c] :=
  ⟨rfl, ready_good, rfl, ⟨by constructor <;> decide, rfl⟩, by decide⟩

/-- V17's bytes at once, and in two pieces with a POLL between. -/
theorem witness_ChunkingDoesNotMatter : (st idle).block = some idle ∧ idle.Good ∧
    (runFeeds [.process [0xb0, 0x80, 0x3c]] (st idle)).map (·.2) = some [0xb0, 0x80, 0x3c] ∧
    (runFeeds [.sink [0xb0], .poll, .sink [0x80, 0x3c]] (st idle)).map (·.2) = some [0xb0, 0x80, 0x3c] :=
  ⟨rfl, idle_good, by decide, by decide⟩

theorem witness_OutputTakenInPiecesIsTheSame : (st idle).block = some idle ∧ idle.Good := ⟨rfl, idle_good⟩

/-- The smallest other capacity that holds the three queued bytes. -/
theorem witness_ResultDoesNotDependOnQ : (st ready).block = some ready ∧ ready.Good ∧ ready.bs.size ≤ 3 ∧ 1 ≤ 3 ∧
    ready.inq.inRange 3 ∧ (st { ready with cfgQ := 3 }).block = some { ready with cfgQ := 3 } :=
  ⟨rfl, ready_good, by decide, by decide, by decide, rfl⟩

theorem witness_IsFinishedCountsUnreadBytes : (st ready).block = some ready ∧ ready.Good ∧ (st idle).block = some idle ∧
    idle.Good := ⟨rfl, ready_good, rfl, idle_good⟩

theorem witness_GetOutputTakesTheOutput : (st { idle with out := [0x74] }).block = some { idle with out := [0x74] } ∧
    Block.faulted { idle with out := [0x74] } = false := ⟨rfl, rfl⟩

/-- The block POLL leaves, from one that has nothing to do. -/
theorem witness_BackpressureDrains : (st idle).block = some idle ∧ idle.Good ∧
    exec .poll (st idle) = .next { st idle with reply := some (.ok .nothing) } := ⟨rfl, idle_good, rfl⟩

theorem witness_NoBlockNoTransaction : ({ st idle with block := none } : State).block = none ∧
    ∀ w l q, Instr.poll ≠ .new w l q := ⟨rfl, fun _ _ _ h => by cases h⟩

theorem witness_FaultedRefusesTransactionsButResetAndNew : (st faultedBlock).block = some faultedBlock ∧ faultedBlock.fault.valid = true ∧
    (Instr.lit 0).isUnit = true := ⟨rfl, rfl, rfl⟩

/-- V24: N + 1 in each accumulator. -/
theorem witness_CorruptDataEntersTheFault : (st (copying 17 1)).block = some (copying 17 1) ∧
    (copying 17 1).fault.valid = false ∧ (copying 17 1).state = .yieldBackref ∧ (copying 17 1).outIndex.toNat > (copying 17 1).N ∧
    (copying 16 17).outIndex.toNat ≤ (copying 16 17).N ∧ (copying 16 17).outCount.toNat > (copying 16 17).N :=
  ⟨rfl, rfl, rfl, by decide, by decide, by decide⟩

/-- V25: W = 8, the largest that the index check stops; L = 8; and code 7. -/
theorem witness_InternalStateErrors : (blk .backrefIndexMsb (cur 0 0 0 0) []).W ≤ 8 ∧
    (blk .backrefIndexMsb (cur 0 0 0 0) []).fault.valid = false ∧
    Block.L { blk .backrefCountMsb (cur 0 0 0 0) [] with cfgW := 12, cfgL := 8 } ≤ 8 ∧
    (blk .code7 (cur 0 0 0 0) []).state = .code7 ∧ idle.Good := ⟨by decide, rfl, by decide, rfl, idle_good⟩

theorem witness_ErrorsArePrecise : (st (copying 17 1)).block = some (copying 17 1) ∧ (copying 17 1).fault.valid = false ∧
    exec .poll (st (copying 17 1)) =
      .next { st faultedBlock with reply := some (.error .corruptDataError 0x10) } := ⟨rfl, rfl, rfl⟩

/-- SINK takes the bytes, and the POLL after it raises. -/
theorem witness_ProcessEndsWithTheErrorOfItsPoll :
    exec (.sink []) (st (copying 17 1)) = .next { st (copying 17 1) with reply := some (.ok (.notAccepted 0)) } ∧
    exec .poll { st (copying 17 1) with reply := some (.ok (.notAccepted 0)) } =
      .next { st faultedBlock with reply := some (.error .corruptDataError 0x10) } := ⟨rfl, rfl⟩

/-- A good state; a call that errs from it, of each kind; and a driven unit. -/
theorem witness_OnlyNewAndUnitGetBitsCanFail : (st ready).Good ∧
    told (step { st ready with script := [.call (.new 8 8 1)] }) = some (.error .configurationError 0x01) ∧
    told (step { st ready with script := [.call (.getBits 0)] }) = some (.error .internalError 0x20) ∧
    after (step { st ready with script := [.drive] }) Block.out = some [0x74] :=
  ⟨fun b h => by cases h; exact ready_good, by decide, by decide, by decide⟩

theorem witness_StepKeepsGood : (st ready).Good ∧ step (st ready) = .next (st ready) ∧
    after (step { st ready with script := [.call .poll] }) Block.out = some [0x74, 0x68] :=
  ⟨fun b h => by cases h; exact ready_good, rfl, by decide⟩

theorem witness_ConfigurationIsImmutable : (st ready).block = some ready ∧ (∀ w l q, Instr.reset ≠ .new w l q) ∧
    after (exec .reset (st ready)) Block.cfgQ = some 8 := ⟨rfl, fun _ _ _ h => (by cases h), by decide⟩

/-- Two blocks with the same stream that differ in `BS_CURBYTE` and in a stale queue byte. -/
theorem witness_StaleBytesDoNotMatter : ready.Good ∧
    Block.Good { ready with bs := cur 3 0 0x55 0, inq := [(0, 0xba), (1, 0x5a), (2, 0x2d), (5, 0x77)] } ∧
    ready.stream = Block.stream { ready with bs := cur 3 0 0x55 0, inq := [(0, 0xba), (1, 0x5a), (2, 0x2d), (5, 0x77)] } :=
  ⟨ready_good, ⟨by constructor <;> decide, rfl⟩, by decide⟩

/-- A whole unit at the cursor; a unit in progress; and a unit cut short. -/
theorem witness_StepRunsTheFetchedUnit : ({ st ready with script := [.drive] } : State).script = .drive :: [] ∧
    ready.state = .tagBit ∧ decode ready.W ready.L ready.stream = .ok (.lit 0x74, ready.stream.drop 9) ∧
    (copying 16 8).state ≠ .tagBit ∧ decode idle.W idle.L idle.stream = .error .incompleteTag :=
  ⟨rfl, rfl, by decide, by decide, by decide⟩

theorem witness_StepPerformsTheNextCall : ({ st ready with script := [.call .poll] } : State).script = .call .poll :: [] ∧
    Instr.poll.isUnit = false ∧ (Instr.lit 0).isUnit = true ∧ (st ready).script = [] := by decide

theorem witness_PlacedUnitIsRunNext : (∀ b, State.reset.block = some b → b.cfgW = Config.resetW ∧ b.cfgL = Config.resetL ∧ b.inq.wf) ∧
    decodeTableWord 9 0b101 = some (.lit 0x40) :=
  ⟨fun b h => by cases h; exact ⟨rfl, rfl, Memory.wf_nil⟩, by decide⟩

end Sys2Proof.Tests
end

/-! PROOFS. The statements of 10_state: the values after NEW and RESET, the frame of POLL, that stale bytes never matter, and
that every step keeps a good state good. -/

namespace Sys2Proof

/-! ### What decodes -/

/-- What a successful decode has read (R81, R82, R86). -/
theorem decode_ok_cases {W L : Nat} {bits rest : List Bool} {i : Instr} (h : decode W L bits = .ok (i, rest)) :
    (∃ tail v, bits = true :: tail ∧ takeField 8 tail = some (v, rest) ∧ i = .lit (BitVec.ofNat 8 v)) ∨
    (∃ tail x mid c, bits = false :: tail ∧ takeField W tail = some (x, mid) ∧ takeField L mid = some (c, rest) ∧
      i = .bref (BitVec.ofNat 16 x) (BitVec.ofNat 16 c)) := by
  match bits with
  | [] => simp [decode] at h
  | true :: tail =>
    rw [decode, decodeLit] at h
    cases e : takeField 8 tail with
    | none => simp [e] at h
    | some p =>
      simp only [e, Except.ok.injEq, Prod.mk.injEq] at h
      obtain ⟨rfl, rfl⟩ := h
      exact .inl ⟨tail, p.1, rfl, e, rfl⟩
  | false :: tail =>
    rw [decode, decodeBref] at h
    cases e : takeField W tail with
    | none => simp [e] at h
    | some p =>
      simp only [e] at h
      cases e' : takeField L p.2 with
      | none => simp [e'] at h
      | some r =>
        simp only [e', Except.ok.injEq, Prod.mk.injEq] at h
        obtain ⟨rfl, rfl⟩ := h
        exact .inr ⟨tail, p.1, p.2, r.1, rfl, e, e', rfl⟩

theorem takeField_lt {n v : Nat} {bits rest : List Bool} (h : takeField n bits = some (v, rest)) : v < 2 ^ n := by
  obtain ⟨hl, rfl, -⟩ := takeField_eq_some.1 h
  exact Machine.natOfBits_take_lt hl

/-- Storing a field in a 16-bit operand never makes it larger, so what decodes is a well-formed unit (R82, R86). -/
theorem decode_ok_wf {W L : Nat} {bits rest : List Bool} {i : Instr} (h : decode W L bits = .ok (i, rest)) :
    i.isUnit = true ∧ i.wf W L = true := by
  have fits {n v : Nat} (hv : v < 2 ^ n) : (BitVec.ofNat 16 v).toNat < 2 ^ n :=
    ((BitVec.toNat_ofNat v 16).trans_le (Nat.mod_le v _)).trans_lt hv
  rcases decode_ok_cases h with ⟨_, _, _, _, rfl⟩ | ⟨_, x, _, c, _, hx, hc, rfl⟩
  · exact ⟨rfl, rfl⟩
  · refine ⟨rfl, ?_⟩
    rw [Instr.wf, Bool.and_eq_true, decide_eq_true_eq, decide_eq_true_eq]
    exact ⟨fits (takeField_lt hx), fits (takeField_lt hc)⟩

end Sys2Proof

namespace Sys2Proof.Machine

open Sys2Proof.Certificates

/-! ### NEW and RESET -/

/-- NEW's three checks let exactly the legal parameters through (R5, R170). -/
theorem newCause_eq_none_iff (w l q : Int) :
    newCause w l q = none ↔ 4 ≤ w ∧ w ≤ 15 ∧ 0 < l ∧ l < w ∧ 0 < q := by
  unfold newCause
  split_ifs <;> simp <;> omega

/-- A checked parameter fits the 4 bits of its configuration register (R21). -/
theorem ofInt_four_toNat {x : Int} (h0 : 0 ≤ x) (h15 : x ≤ 15) : ((BitVec.ofInt 4 x).toNat : Int) = x := by
  rw [BitVec.toNat_ofInt]
  omega

/-- The configuration of the block that NEW builds from checked operands is the operands (R170). -/
theorem newBlock_config {w l q : Int} (h : newCause w l q = none) :
    ((newBlock w l q).cfgW.toNat : Int) = w ∧ ((newBlock w l q).cfgL.toNat : Int) = l ∧
      ((newBlock w l q).cfgQ : Int) = q := by
  obtain ⟨hw4, hw15, hl0, hlw, hq⟩ := (newCause_eq_none_iff w l q).1 h
  exact ⟨ofInt_four_toNat (by omega) hw15, ofInt_four_toNat (by omega) (by omega), Int.toNat_of_nonneg (by omega)⟩

theorem newBlock_good {w l q : Int} (h : newCause w l q = none) : (newBlock w l q).Good := by
  obtain ⟨ew, el, eq⟩ : ((BitVec.ofInt 4 w).toNat : Int) = w ∧ ((BitVec.ofInt 4 l).toNat : Int) = l ∧
      (q.toNat : Int) = q := newBlock_config h
  obtain ⟨hw4, hw15, hl0, hlw, hq⟩ := (newCause_eq_none_iff w l q).1 h
  exact Block.init_good ⟨by omega, by omega, by omega, by omega, by omega⟩

theorem Block.Good.reinit {b : Block} (h : b.Good) : b.reinit.Good := Block.init_good h.inv.config

theorem exec_new {w l q : Int} (h : newCause w l q = none) (s : State) :
    exec (.new w l q) s = .next { s with block := some (newBlock w l q), reply := some (.ok .newBlock) } := by
  simp [exec, execNew, h]

theorem exec_reset {s : State} {b : Block} (hs : s.block = some b) :
    exec .reset s = .next { s with block := some b.reinit, reply := some (.ok .nothing) } := by
  simp [exec, execReset, State.withBlock_some hs]

/-- A block just built holds the values of R39's table. -/
theorem Block.init_fresh (w l : BitVec 4) (q : Nat) : Fresh (Block.init w l q) where
  state := ⟨rfl, rfl⟩
  size := rfl
  readIndex := rfl
  curByte := rfl
  bitMask := rfl
  outIndex := rfl
  outCount := rfl
  head := Nat.zero_mod _
  win _ := rfl
  inq _ := rfl
  outSize := ⟨rfl, rfl⟩
  outCap := ⟨rfl, Nat.le_add_left 1 _⟩
  fault := rfl

/-! ### Outcomes that keep a good state -/

/-- Whatever state the outcome leads to is good; a stop leads to none. -/
def LeadsToGood (o : StepOutcome) : Prop := ∀ t, o = .next t → t.Good

theorem leadsToGood_next {t : State} (h : t.Good) : LeadsToGood (.next t) := by
  rintro _ ⟨⟩
  exact h

theorem leadsToGood_refused (r : Refusal) : LeadsToGood (.refused r) := by rintro _ ⟨⟩

theorem State.good_of_block {t : State} {b : Block} (ht : t.block = some b) (h : b.Good) : t.Good := by
  intro c hc
  rw [ht] at hc
  cases hc
  exact h

theorem leadsToGood_answer (s : State) {b : Block} (h : b.Good) (r : CallOutcome) : LeadsToGood (s.answer b r) :=
  leadsToGood_next (State.good_of_block rfl h)

theorem leadsToGood_concludeUnit (s : State) {b : Block} (h : b.Good) : LeadsToGood (s.concludeUnit (.ok b)) :=
  leadsToGood_next (State.good_of_block rfl h)

/-- A call keeps a good state when it does so from every good block. -/
theorem State.Good.leadsToGood_withBlock {s : State} (hs : s.Good) {f : Block → StepOutcome}
    (hf : ∀ b : Block, b.Good → LeadsToGood (f b)) : LeadsToGood (s.withBlock f) := by
  cases e : s.block with
  | none =>
    rw [State.withBlock_none e]
    exact leadsToGood_refused _
  | some b =>
    rw [State.withBlock_some e]
    exact hf b (hs b e)

/-- The same for the calls a faulted block refuses: a good block is live. -/
theorem State.Good.leadsToGood_withLiveBlock {s : State} (hs : s.Good) {f : Block → StepOutcome}
    (hf : ∀ b : Block, b.Good → LeadsToGood (f b)) : LeadsToGood (s.withLiveBlock f) := by
  refine hs.leadsToGood_withBlock fun b hb => ?_
  rw [if_neg (by rw [hb.live]; decide)]
  exact hf b hb

/-! ### Each call keeps a good state -/

/-- GETBITS leaves a cursor inside the queue, or changes nothing (R110 to R113, R204). -/
theorem State.Good.leadsToGood_getBits {s : State} (hs : s.Good) (count : Nat) : LeadsToGood (execGetBits count s) := by
  refine hs.leadsToGood_withBlock fun b hb => ?_
  by_cases hc : count < 1 ∨ 15 < count
  · rw [Block.getBits, BitstreamState.getBits_width hc]
    exact leadsToGood_answer s hb _
  · rcases Block.getBits_spec hb.inv.bsOk (n := count) (by omega) (by omega) with ⟨-, e⟩ | ⟨-, bs, e, ok, -⟩
    · rw [e]
      exact leadsToGood_answer s hb _
    · rw [e]
      exact leadsToGood_answer s ⟨hb.inv.withCursor ok, hb.live⟩ _

/-- NEW builds a good block from checked operands, and otherwise leaves the block there is (R170, R209). -/
theorem State.Good.leadsToGood_new {s : State} (hs : s.Good) (w l q : Int) : LeadsToGood (execNew w l q s) := by
  unfold execNew
  cases e : newCause w l q with
  | some c => exact leadsToGood_next hs
  | none => exact leadsToGood_answer s (newBlock_good e) _

/-- No call of the host, transaction or internal operation, leads from a good state to one that is not. -/
theorem State.Good.leadsToGood_call {s : State} (hs : s.Good) {i : Instr} (hi : i.isUnit = false) :
    LeadsToGood (exec i s) := by
  cases i with
  | lit v => simp [Instr.isUnit] at hi
  | bref idx cnt => simp [Instr.isUnit] at hi
  | new w l q => exact hs.leadsToGood_new w l q
  | sink bytes =>
    refine hs.leadsToGood_withLiveBlock fun b hb => ?_
    obtain ⟨c, e, hc, -⟩ := hb.sink_spec bytes
    rw [e]
    exact leadsToGood_answer s hc _
  | poll =>
    refine hs.leadsToGood_withLiveBlock fun b hb => ?_
    obtain ⟨c, e, hc, -⟩ := hb.poll_spec
    rw [e]
    exact leadsToGood_answer s hc _
  | process bytes =>
    refine hs.leadsToGood_withLiveBlock fun b hb => ?_
    obtain ⟨c, e, hc⟩ := hb.process_spec bytes
    rw [e]
    exact leadsToGood_answer s hc.good _
  | isFinished => exact hs.leadsToGood_withLiveBlock fun b hb => leadsToGood_answer s hb _
  | getOutput => exact hs.leadsToGood_withLiveBlock fun b hb => leadsToGood_answer s hb.takeOutput _
  | reset => exact hs.leadsToGood_withBlock fun b hb => leadsToGood_answer s hb.reinit _
  | getBits count => exact hs.leadsToGood_getBits count
  | winStore v => exact hs.leadsToGood_withBlock fun b hb => leadsToGood_answer s (hb.store v) _
  | winRead d => exact hs.leadsToGood_withBlock fun b hb => leadsToGood_answer s hb _

/-! ### The drive action keeps a good state -/

theorem Block.fetch_eq_some {b : Block} {i : Instr} (h : b.fetch = some i) :
    b.state = .tagBit ∧ ∃ rest, decode b.W b.L b.stream = .ok (i, rest) := by
  unfold Block.fetch at h
  split at h
  next ht =>
    refine ⟨ht, ?_⟩
    cases e : decode b.W b.L b.stream with
    | error r => simp [e] at h
    | ok p =>
      simp only [e, Option.some.injEq] at h
      exact ⟨p.2, by rw [← h]⟩
  next => cases h

/-- A well-formed unit ends in a good block, whether its bits are all there or run out inside it (R153, R155, R156). -/
theorem Block.Good.runChunks_unit {b : Block} {i : Instr} (h : b.Good) (ht : b.state = .tagBit)
    (hi : i.isUnit = true) (hw : i.wf b.W b.L = true) :
    ∃ c, Block.runChunks (unitChunks b.W b.L i) b = .ok c ∧ c.Good := by
  rcases h.runChunks_spec (by rw [ht]; exact tracks_unit hi hw) with ⟨-, c, _, _, e, hc⟩ | ⟨hl, -⟩
  · exact ⟨c, e, hc.good⟩
  · obtain ⟨_, c, -, -, e, hc, -⟩ := h.runUnit_spec ht hi hw hl
    exact ⟨c, e, hc⟩

/-- The host driving one unit keeps a good state: the fetched unit is well formed, and where none is there the state
machine's own steps keep the block good (R149, log 5). -/
theorem State.Good.leadsToGood_driveUnit {s : State} (hs : s.Good) : LeadsToGood s.driveUnit := by
  unfold State.driveUnit
  cases e : s.block.bind Block.fetch with
  | some i =>
    obtain ⟨b, hb, hf⟩ := Option.bind_eq_some_iff.1 e
    obtain ⟨ht, rest, hd⟩ := Block.fetch_eq_some hf
    obtain ⟨hi, hw⟩ := decode_ok_wf hd
    obtain ⟨c, er, hc⟩ := (hs b hb).runChunks_unit ht hi hw
    show LeadsToGood (exec i s)
    rw [exec_unit hb (hs b hb) ht hi, er]
    exact leadsToGood_concludeUnit s hc
  | none =>
    refine hs.leadsToGood_withLiveBlock fun b hb => ?_
    obtain ⟨c, e, hc, -⟩ := hb.finishUnit_spec (n := 6)
    rw [e]
    exact leadsToGood_concludeUnit s hc

/-- Every step from a good state leads to a good state: the invariants I1 to I9 of R40 are inductive. -/
theorem State.Good.leadsToGood_step {s : State} (hs : s.Good) : LeadsToGood (step s) := by
  unfold step
  match s.script with
  | [] => exact leadsToGood_next hs
  | .call i :: rest =>
    show LeadsToGood (if i.isUnit then _ else _)
    split
    next => exact leadsToGood_refused _
    next hi => exact State.Good.leadsToGood_call (s := { s with script := rest }) hs (by simpa using hi)
  | .drive :: rest => exact State.Good.leadsToGood_driveUnit (s := { s with script := rest }) hs

end Sys2Proof.Machine

namespace Sys2Proof.Proofs

open Sys2Proof.Machine Sys2Proof.Certificates

/-- Settles O31: both calls leave the block of `Block.init`, with the checked operands or with the old configuration. -/
theorem valuesAfterReset : Obligations.ValuesAfterReset := by
  refine ⟨fun s w l q hw4 hw15 hl0 hlw hq => ?_, fun s b hs => ?_⟩
  · have h := (newCause_eq_none_iff w l q).2 ⟨hw4, hw15, hl0, hlw, hq⟩
    obtain ⟨ew, el, eq⟩ := newBlock_config h
    exact ⟨_, newBlock w l q, exec_new h s, rfl, ew, el, eq, Block.init_fresh _ _ _⟩
  · exact ⟨_, b.reinit, exec_reset hs, rfl, rfl, rfl, rfl, Block.init_fresh _ _ _⟩

/-- Settles O35: POLL is a run of progressing steps, each of which keeps what no step writes and stores what it emits. -/
theorem pollFrame : Obligations.PollFrame := by
  intro s b hs h
  obtain ⟨c, e, -, steps, -⟩ := h.poll_spec
  have fixed := h.steps_fixed steps
  obtain ⟨o, emitted⟩ := h.steps_emitted steps
  exact ⟨c, o, exec_poll hs h e, emitted, fixed.inq, fixed.cfgW, fixed.cfgL, fixed.cfgQ, fixed.fault⟩

/-- Settles O54: two blocks that agree in all but stale bytes make the same steps. The comparison is not strict, since
`OUT_CAP` and `FAULT` may differ, and no bytes are outstanding. -/
theorem staleBytesDoNotMatter : Obligations.StaleBytesDoNotMatter := by
  intro s t a b hs ht ha hb hstream hW hL hstate hindex hcount hhead hwin hout
  have alike : a.Lags False [] [] b :=
    { core := ⟨hW, hL, hstate, hindex, hcount, hhead, hwin, hout, False.elim, False.elim⟩
      stream := by simpa using hstream
      last := False.elim }
  obtain ⟨c, d, ec, ed, after, -⟩ := alike.poll_same ha hb
  obtain ⟨-, -, hstate, hindex, hcount, hhead, hwin, hout, -, -⟩ := after.core
  exact ⟨_, _, c, d, exec_poll hs ha ec, exec_poll ht hb ed, rfl, rfl, rfl, by simpa using after.stream, hstate, hindex,
    hcount, hhead, hwin, hout⟩

/-- Settles O52, by the case of the host's next action: a call, a driven unit, or none. -/
theorem stepKeepsGood : Obligations.StepKeepsGood := fun _ t hs e => hs.leadsToGood_step t e

end Sys2Proof.Proofs

/-! PROOFS. The statement of 20_memory: whatever a unit, POLL or PROCESS emits is stored in the window in the same order. -/

namespace Sys2Proof.Machine

/-! ### What a unit emits -/

/-- Between blocks with the same configuration, output and window, nothing was emitted. -/
theorem Block.Emitted.of_quiet {b c : Block} (hfix : b.SameFixed c) (hout : c.out = b.out) (hcap : c.outCap = b.outCap)
    (hwin : c.win = b.win) (hreg : c.headReg = b.headReg) : b.Emitted c [] := by
  have hhead : c.head = b.head := by rw [Block.head, Block.head, hreg, hfix.N]
  exact (Block.Emitted.refl b).congr hout hcap hwin hhead fun d => by
    rw [Block.winRead, Block.winRead, hfix.N, hwin, hhead]

/-- A whole LIT stores its byte as it emits it (R142); a whole BREF emits nothing before its copy step, which is a step of
the state machine (R147). -/
theorem Block.UnitEnd.emitted {b m c : Block} {i : Instr} (hend : b.UnitEnd m i c) (hb : b.Good) (hm : m.Good)
    (hfix : b.SameFixed m) : ∃ o, b.Emitted c o := by
  cases hend with
  | lit v hshape =>
    rw [hshape]
    exact ⟨[v], (Block.Emitted.emitStore hb.inv.windowOk v).congr rfl rfl rfl rfl fun _ => rfl⟩
  | bref idx cnt hshape hcopy =>
    have quiet : b.Emitted m [] := .of_quiet hfix (by rw [hshape]) (by rw [hshape]) (by rw [hshape]) (by rw [hshape])
    obtain ⟨o, copied⟩ := (hm.progress_facts hcopy).emitted
    exact ⟨[] ++ o, quiet.trans hfix.N copied⟩

/-- A well-formed unit stores what it emits: it parks before it has emitted anything, or it runs to its end (R153, R155,
R156). -/
theorem Block.Good.runChunks_emitted {b : Block} {i : Instr} (h : b.Good) (ht : b.state = .tagBit)
    (hi : i.isUnit = true) (hw : i.wf b.W b.L = true) :
    ∃ c, Block.runChunks (unitChunks b.W b.L i) b = .ok c ∧ ∃ o, b.Emitted c o := by
  rcases h.runChunks_spec (by rw [ht]; exact tracks_unit hi hw) with ⟨-, c, _, _, e, parked⟩ | ⟨hl, -⟩
  · obtain ⟨hout, hcap, hwin, hreg⟩ := parked.quiet
    exact ⟨c, e, [], .of_quiet parked.fixed hout hcap hwin hreg⟩
  · obtain ⟨m, c, consumed, -, e, -, -, -, hend⟩ := h.runUnit_spec ht hi hw hl
    exact ⟨c, e, hend.emitted h consumed.good consumed.fixed⟩

/-- A unit has no meaning inside another unit (R155, R156, log 11). -/
theorem exec_unit_inProgress {s : State} {b : Block} {i : Instr} (hs : s.block = some b) (h : b.Good)
    (ht : b.state ≠ .tagBit) (hi : i.isUnit = true) : exec i s = .refused .unitInProgress := by
  have refuses (chunks : Block → List Chunk) : s.runUnit chunks = .refused .unitInProgress := by
    rw [State.runUnit, State.withLiveBlock_live hs h.live, if_neg ht]
  cases i with
  | lit v => exact refuses _
  | bref idx cnt => exact refuses _
  | _ => cases hi

end Sys2Proof.Machine

namespace Sys2Proof.Proofs

open Sys2Proof.Machine Sys2Proof.Certificates

/-- Settles O16: a unit runs from TagBit only, and POLL and PROCESS are runs of steps, each of which stores what it emits. -/
theorem windowMirrorsOutput : Obligations.WindowMirrorsOutput := by
  intro s t b c i hs h hw hi e hc
  rcases hi with hi | rfl | ⟨bytes, rfl⟩
  · by_cases ht : b.state = .tagBit
    · obtain ⟨d, run, emitted⟩ := h.runChunks_emitted ht hi hw
      rw [exec_unit hs h ht hi, run] at e
      cases e
      cases hc
      exact emitted
    · rw [exec_unit_inProgress hs h ht hi] at e
      cases e
  · obtain ⟨d, ed, -, steps, -⟩ := h.poll_spec
    rw [exec_poll hs h ed] at e
    cases e
    cases hc
    exact h.steps_emitted steps
  · obtain ⟨d, processed, ed⟩ := exec_process hs h bytes
    rw [ed] at e
    cases e
    cases hc
    exact processed.emitted

end Sys2Proof.Proofs

/-! PROOFS. The statements of 30_encoding: decoding and encoding agree both ways, the length of a unit follows from its tag,
and every bit string is units and a tail. -/

namespace Sys2Proof

/-! ### A field's bits, taken and put back -/

/-- A value that fits its field is read back from its bits, whatever follows. -/
theorem takeField_bitsOfNat_append {n v : Nat} (hv : v < 2 ^ n) (rest : List Bool) :
    takeField n (bitsOfNat n v ++ rest) = some (v, rest) :=
  takeField_eq_some.2
    ⟨by simp, by rw [natOfBits_take_append, Nat.mod_eq_of_lt hv], (drop_bitsOfNat_append n v rest).symm⟩

theorem eq_bitsOfNat_append_of_takeField {n v : Nat} {bits rest : List Bool} (h : takeField n bits = some (v, rest)) :
    bits = bitsOfNat n v ++ rest := by
  obtain ⟨hl, rfl, rfl⟩ := takeField_eq_some.1 h
  rw [bitsOfNat_take hl, List.take_append_drop]

theorem takeField_length {n v : Nat} {bits rest : List Bool} (h : takeField n bits = some (v, rest)) :
    bits.length = n + rest.length := by
  rw [eq_bitsOfNat_append_of_takeField h, List.length_append, bitsOfNat_length]

theorem exists_takeField {n : Nat} {bits : List Bool} (h : n ≤ bits.length) : ∃ v rest, takeField n bits = some (v, rest) :=
  ⟨_, _, takeField_eq_some.2 ⟨h, rfl, rfl⟩⟩

/-- A field is kept whole by an operand that is at least as wide: it is zero-extended, not cut (R84). -/
theorem takeField_toNat_ofNat {n v w : Nat} {bits rest : List Bool} (h : takeField n bits = some (v, rest)) (hn : n ≤ w) :
    (BitVec.ofNat w v).toNat = v := by
  rw [BitVec.toNat_ofNat, Nat.mod_eq_of_lt ((takeField_lt h).trans_le (Nat.pow_le_pow_right Nat.two_pos hn))]

/-! ### Decoding what was encoded -/

/-- The decoder's equation for tag 1 (R80, R81): the value of the next eight bits is the literal. -/
theorem decode_true_of_takeField (W L : Nat) {tail rest : List Bool} {v : Nat} (h : takeField 8 tail = some (v, rest)) :
    decode W L (true :: tail) = .ok (.lit (BitVec.ofNat 8 v), rest) := by
  rw [decode, decodeLit, h]

/-- The decoder's equation for tag 0 (R80, R82): the index field, then the count field. -/
theorem decode_false_of_takeField {W L : Nat} {tail mid rest : List Bool} {x c : Nat}
    (hx : takeField W tail = some (x, mid)) (hc : takeField L mid = some (c, rest)) :
    decode W L (false :: tail) = .ok (.bref (BitVec.ofNat 16 x) (BitVec.ofNat 16 c), rest) := by
  simp only [decode, decodeBref, hx, hc]

theorem decode_litBits_append (W L : Nat) (v : Byte) (rest : List Bool) :
    decode W L (true :: (bitsOfNat 8 v.toNat ++ rest)) = .ok (.lit v, rest) := by
  rw [decode_true_of_takeField W L (takeField_bitsOfNat_append v.isLt rest), BitVec.ofNat_toNat, BitVec.setWidth_eq]

theorem decode_brefBits_append {W L : Nat} {idx cnt : Half} (hi : idx.toNat < 2 ^ W) (hc : cnt.toNat < 2 ^ L)
    (rest : List Bool) :
    decode W L (false :: (bitsOfNat W idx.toNat ++ (bitsOfNat L cnt.toNat ++ rest))) = .ok (.bref idx cnt, rest) := by
  rw [decode_false_of_takeField (takeField_bitsOfNat_append hi _) (takeField_bitsOfNat_append hc rest)]
  simp only [BitVec.ofNat_toNat, BitVec.setWidth_eq]

/-- Every unit has an encoding, and a well-formed one is decoded from it (R80 to R84). -/
theorem decode_encode {W L : Nat} {i : Instr} (hi : i.isUnit = true) (hw : i.wf W L = true) :
    ∃ bits, encode W L i = some bits ∧ ∀ rest, decode W L (bits ++ rest) = .ok (i, rest) := by
  cases i with
  | lit v => exact ⟨_, rfl, fun rest => decode_litBits_append W L v rest⟩
  | bref idx cnt =>
    rw [Instr.wf, Bool.and_eq_true, decide_eq_true_eq, decide_eq_true_eq] at hw
    refine ⟨_, rfl, fun rest => ?_⟩
    rw [List.cons_append, List.append_assoc]
    exact decode_brefBits_append hw.1 hw.2 rest
  | _ => cases hi

/-! ### Encoding what was decoded -/

theorem encode_decode {W L : Nat} {bits rest : List Bool} {i : Instr} (hW : W ≤ 16) (hL : L ≤ 16)
    (h : decode W L bits = .ok (i, rest)) : ∃ e, encode W L i = some e ∧ bits = e ++ rest := by
  rcases decode_ok_cases h with ⟨tail, v, rfl, hv, rfl⟩ | ⟨tail, x, mid, c, rfl, hx, hc, rfl⟩
  · refine ⟨_, rfl, ?_⟩
    rw [takeField_toNat_ofNat hv le_rfl, List.cons_append, ← eq_bitsOfNat_append_of_takeField hv]
  · refine ⟨_, rfl, ?_⟩
    rw [takeField_toNat_ofNat hx hW, takeField_toNat_ofNat hc hL, List.cons_append, List.append_assoc,
      ← eq_bitsOfNat_append_of_takeField hc, ← eq_bitsOfNat_append_of_takeField hx]

/-! ### The tag selects the unit and its length -/

theorem decode_true_ok {W L : Nat} {more rest : List Bool} {i : Instr} (h : decode W L (true :: more) = .ok (i, rest)) :
    ∃ v, i = .lit v := by
  rcases decode_ok_cases h with ⟨_, v, -, -, hi⟩ | ⟨_, _, _, _, tag, -⟩
  · exact ⟨_, hi⟩
  · cases tag

theorem decode_false_ok {W L : Nat} {more rest : List Bool} {i : Instr} (h : decode W L (false :: more) = .ok (i, rest)) :
    ∃ idx cnt, i = .bref idx cnt := by
  rcases decode_ok_cases h with ⟨_, _, tag, -⟩ | ⟨_, _, _, _, -, -, -, hi⟩
  · cases tag
  · exact ⟨_, _, hi⟩

/-- The bits a unit with this tag takes (R85). -/
theorem decode_ok_length {W L : Nat} {tag : Bool} {more rest : List Bool} {i : Instr}
    (h : decode W L (tag :: more) = .ok (i, rest)) :
    (tag :: more).length = (if tag then 9 else 1 + W + L) + rest.length := by
  rcases decode_ok_cases h with ⟨tail, v, e, hv, -⟩ | ⟨tail, x, mid, c, e, hx, hc, -⟩
  · cases e
    rw [List.length_cons, takeField_length hv, if_pos rfl]
    omega
  · cases e
    rw [List.length_cons, takeField_length hx, takeField_length hc, if_neg Bool.false_ne_true]
    omega

/-- Nothing but missing bits keeps a unit from decoding (R85, R86). -/
theorem exists_decode_of_length_le {W L : Nat} {tag : Bool} {more : List Bool}
    (h : (if tag then 9 else 1 + W + L) ≤ (tag :: more).length) : ∃ i rest, decode W L (tag :: more) = .ok (i, rest) := by
  rw [List.length_cons] at h
  cases tag with
  | true =>
    rw [if_pos rfl] at h
    obtain ⟨v, rest, hv⟩ := exists_takeField (n := 8) (bits := more) (by omega)
    exact ⟨_, _, decode_true_of_takeField W L hv⟩
  | false =>
    rw [if_neg Bool.false_ne_true] at h
    obtain ⟨x, mid, hx⟩ := exists_takeField (n := W) (bits := more) (by omega)
    have := takeField_length hx
    obtain ⟨c, rest, hc⟩ := exists_takeField (n := L) (bits := mid) (by omega)
    exact ⟨_, _, decode_false_of_takeField hx hc⟩

/-- A decoded unit takes at least its tag. -/
theorem decode_ok_rest_lt {W L : Nat} {bits rest : List Bool} {i : Instr} (h : decode W L bits = .ok (i, rest)) :
    rest.length < bits.length := by
  cases bits with
  | nil => cases h
  | cons tag more =>
    rw [decode_ok_length h]
    split_ifs <;> omega

/-! ### A bit string as units and a tail -/

theorem assemble_cons_of_encode {W L : Nat} {i : Instr} {e : List Bool} (h : encode W L i = some e) (units : List Instr) :
    assemble W L (i :: units) = e ++ assemble W L units := by
  rw [assemble, List.flatMap_cons, h, Option.getD_some, assemble]

/-- Decoding unit after unit until none is whole splits any bit string into the encodings of well-formed units and an
undecodable tail (R86). -/
theorem exists_units_tail {W L : Nat} (hW : W ≤ 16) (hL : L ≤ 16) (bits : List Bool) :
    ∃ units tail, (∀ i ∈ units, i.isUnit = true ∧ i.wf W L = true) ∧
      bits = assemble W L units ++ tail ∧ ∃ e, decode W L tail = .error e := by
  cases h : decode W L bits with
  | error r => exact ⟨[], bits, by simp, rfl, r, h⟩
  | ok p =>
    obtain ⟨i, rest⟩ := p
    have hlt := decode_ok_rest_lt h
    obtain ⟨e, he, hbits⟩ := encode_decode hW hL h
    obtain ⟨units, tail, hunits, hrest, hend⟩ := exists_units_tail hW hL rest
    refine ⟨i :: units, tail, List.forall_mem_cons.2 ⟨decode_ok_wf h, hunits⟩, ?_, hend⟩
    rw [assemble_cons_of_encode he, List.append_assoc, ← hrest, hbits]
termination_by bits.length

end Sys2Proof

namespace Sys2Proof.Proofs

/-- Settles O2, by the kind of unit: each field is read back from its own bits. -/
theorem decodeOfEncodeIsTheUnit : Obligations.DecodeOfEncodeIsTheUnit := fun _ _ _ hi hw => decode_encode hi hw

/-- Settles O3: the fields that decode read are the fields that encode writes. -/
theorem encodeOfDecodeIsTheBits : Obligations.EncodeOfDecodeIsTheBits := by
  intro W L bits rest i hW hL h
  obtain ⟨hi, hw⟩ := decode_ok_wf h
  exact ⟨hi, hw, encode_decode hW hL h⟩

/-- Settles O4: the tag fixes which fields are taken, and a field is taken exactly when its bits are there. -/
theorem unitLengthFollowsFromTag : Obligations.UnitLengthFollowsFromTag := by
  rintro W L Q tag more ⟨hW4, hW15, hL1, hLW, -⟩
  refine ⟨fun i rest => decode_ok_length, ⟨fun ⟨i, rest, h⟩ => ?_, exists_decode_of_length_le⟩, by omega, by omega⟩
  rw [decode_ok_length h]
  exact Nat.le_add_right _ _

/-- Settles O5: each field value is decoded from its own bits, and the units of a bit string are found by decoding from its
front while a unit is whole. -/
theorem everyBitStringIsUnitsAndATail : Obligations.EveryBitStringIsUnitsAndATail := by
  rintro W L Q ⟨hW4, hW15, hL1, hLW, -⟩
  exact ⟨fun _ _ _ => decode_true_ok, fun _ _ _ => decode_false_ok, fun v => ⟨_, decode_litBits_append W L v []⟩,
    fun idx cnt hi hc => ⟨_, decode_brefBits_append hi hc []⟩, exists_units_tail (by omega) (by omega)⟩

/-- Settles O1: the decoder run on the seven bit strings of R89. -/
theorem specExampleBitsDecode : Obligations.SpecExampleBitsDecode := by
  unfold Obligations.SpecExampleBitsDecode
  decide

end Sys2Proof.Proofs

/-! PROOFS. The statements of 40_bitstream_reader: what a successful `getBits` takes and leaves, register by register, and
when it answers NOBITS. -/

namespace Sys2Proof

/-! ### The value of a front part -/

/-- The first `n` bits of a run are its value without the bits behind them (R61). -/
theorem natOfBits_take (bits : List Bool) (n : Nat) :
    natOfBits (bits.take n) = natOfBits bits / 2 ^ (bits.length - n) := by
  have hlt := natOfBits_lt (bits.drop n)
  have e := natOfBits_append (bits.take n) (bits.drop n)
  rw [List.take_append_drop] at e
  rw [e, ← List.length_drop, Nat.add_comm, Nat.add_mul_div_right _ _ (Nat.two_pow_pos _), Nat.div_eq_of_lt hlt,
    Nat.zero_add]

/-- Bits that follow others go below them. -/
theorem natOfBits_append_eq_or (xs ys : List Bool) :
    natOfBits (xs ++ ys) = natOfBits xs <<< ys.length ||| natOfBits ys := by
  rw [natOfBits_append, ← Nat.shiftLeft_eq, Nat.shiftLeft_add_eq_or_of_lt (natOfBits_lt ys)]

theorem bytesBits_take (m : Nat) (vs : List Byte) : bytesBits (vs.take m) = (bytesBits vs).take (8 * m) := by
  rcases Nat.le_total m vs.length with h | h
  · have e := bytesBits_append (vs.take m) (vs.drop m)
    rw [List.take_append_drop] at e
    rw [e, List.take_left' (by simp [h])]
  · rw [List.take_of_length_le h, List.take_of_length_le (by simp [h])]

end Sys2Proof

namespace Sys2Proof.Machine

/-! ### The cursor after `n` bits (R116) -/

/-- R116's mask `0x80 >> u` as O10 spells it, a shifted number, and as the register takes it, a shifted byte. -/
theorem natCast_shiftRight_loaded (u : Nat) : ((0x80 >>> u : Nat) : Byte) = (0x80 : Byte) >>> u := by
  have hle : 0x80 >>> u ≤ 0x80 := Nat.shiftRight_le 0x80 u
  apply BitVec.eq_of_toNat_eq
  rw [BitVec.toNat_ushiftRight]
  exact Nat.mod_eq_of_lt (by omega)

/-- The cursor once `k ≥ 1` bits have been taken from newly loaded bytes: ⌈k / 8⌉ bytes were loaded, and the queue is
compacted when they were its last. -/
def BitstreamState.afterLoads (mem : Nat → Byte) (k : Nat) (bs : BitstreamState) : BitstreamState where
  size := if bs.readIndex + (k + 7) / 8 = bs.size then 0 else bs.size
  readIndex := if bs.readIndex + (k + 7) / 8 = bs.size then 0 else bs.readIndex + (k + 7) / 8
  currentByte := mem (bs.readIndex + (k + 7) / 8 - 1)
  bitMask := (0x80 : Byte) >>> (k - 8 * ((k + 7) / 8 - 1))

/-- The cursor after `n` bits: what is left of `BS_CURBYTE` is taken first. -/
def BitstreamState.afterBits (mem : Nat → Byte) (n : Nat) (bs : BitstreamState) : BitstreamState :=
  if n ≤ bitsLeft bs.bitMask then { bs with bitMask := bs.bitMask >>> n }
  else bs.afterLoads mem (n - bitsLeft bs.bitMask)

/-- Up to eight bits come from one loaded byte. -/
theorem BitstreamState.afterLoads_of_le {mem : Nat → Byte} {n : Nat} (h : n ≤ 7) (bs : BitstreamState) :
    bs.afterLoads mem (n + 1) = { bs.loadByte (mem bs.readIndex) with bitMask := (0x80 : Byte) >>> (n + 1) } := by
  have hm : (n + 1 + 7) / 8 = 1 := by omega
  rw [BitstreamState.afterLoads, BitstreamState.loadByte, hm]
  split <;> rfl

/-- More than eight bits are eight from one loaded byte, and the rest from the bytes after it. -/
theorem BitstreamState.afterLoads_add_eight {mem : Nat → Byte} {k : Nat} {bs : BitstreamState} (hk : 1 ≤ k)
    (h : bs.readIndex + 1 ≠ bs.size) (v : Byte) :
    bs.afterLoads mem (k + 8) = (bs.loadByte v).advance.afterLoads mem k := by
  have hm : (k + 8 + 7) / 8 = (k + 7) / 8 + 1 := by omega
  have hu : k + 8 - 8 * ((k + 7) / 8 + 1 - 1) = k - 8 * ((k + 7) / 8 - 1) := by omega
  rw [BitstreamState.loadByte, if_neg h, BitstreamState.advance, BitstreamState.afterLoads, BitstreamState.afterLoads, hm, hu]
  simp only [Nat.add_assoc, Nat.add_comm 1]

theorem BitstreamState.afterBits_succ_of_loaded {mem : Nat → Byte} {bs : BitstreamState} (hm : bs.bitMask ∈ legalMasks)
    (h : bs.bitMask ≠ 0x00) (n : Nat) : bs.afterBits mem (n + 1) = bs.advance.afterBits mem n := by
  have hleft : bitsLeft bs.bitMask = bitsLeft bs.advance.bitMask + 1 := bitsLeft_shift hm h
  rw [BitstreamState.afterBits, BitstreamState.afterBits, hleft, Nat.add_sub_add_right]
  by_cases hle : n ≤ bitsLeft bs.advance.bitMask
  · rw [if_pos hle, if_pos (by omega), Nat.add_comm, BitVec.shiftRight_add]
    rfl
  · rw [if_neg hle, if_neg (by omega)]
    rfl

theorem BitstreamState.afterBits_succ_of_load {mem : Nat → Byte} {bs : BitstreamState} {n : Nat} (h : bs.bitMask = 0x00)
    (hn : n + 1 ≤ 8 * (bs.size - bs.readIndex)) :
    bs.afterBits mem (n + 1) = (bs.loadByte (mem bs.readIndex)).advance.afterBits mem n := by
  have h0 : bitsLeft bs.bitMask = 0 := by rw [h]; decide
  have hmask : (bs.loadByte (mem bs.readIndex)).advance.bitMask = (0x80 : Byte) >>> 1 := by
    rw [BitstreamState.loadByte]
    split <;> rfl
  have h7 : bitsLeft ((0x80 : Byte) >>> 1) = 7 := by decide
  rw [BitstreamState.afterBits, h0, if_neg (by omega), Nat.sub_zero, BitstreamState.afterBits, hmask, h7]
  by_cases hle : n ≤ 7
  · rw [if_pos hle, BitstreamState.afterLoads_of_le hle, Nat.add_comm, BitVec.shiftRight_add]
    rfl
  · rw [if_neg hle, ← BitstreamState.afterLoads_add_eight (by omega) (by omega)]
    congr 1
    omega

theorem BitstreamState.streamOf_length (mem : Nat → Byte) (bs : BitstreamState) :
    (bs.streamOf mem).length = bitsLeft bs.bitMask + 8 * (bs.size - bs.readIndex) := by
  simp [BitstreamState.streamOf, BitstreamState.unreadOf]

/-- One round of the loop of R110, load and advance, moves the cursor by one bit. -/
theorem BitstreamState.afterBits_succ {rd : Nat → Option Byte} {mem : Nat → Byte} {q n : Nat} {bs bs' : BitstreamState}
    (hok : bs.Ok q) (hs : bs.Sees rd mem) (hn : n + 1 ≤ (bs.streamOf mem).length) (e : bs.ensureLoaded rd = .ok bs') :
    bs.afterBits mem (n + 1) = bs'.advance.afterBits mem n := by
  rw [BitstreamState.ensureLoaded] at e
  by_cases hm : bs.bitMask = 0x00
  · have h0 : bitsLeft bs.bitMask = 0 := by rw [hm]; decide
    rw [BitstreamState.streamOf_length, h0, Nat.zero_add] at hn
    rw [if_pos hm, hs _ le_rfl (by omega)] at e
    cases e
    exact BitstreamState.afterBits_succ_of_load hm hn
  · rw [if_neg hm] at e
    cases e
    exact BitstreamState.afterBits_succ_of_loaded hok.mask hm n

theorem BitstreamState.afterBits_zero (mem : Nat → Byte) (bs : BitstreamState) : bs.afterBits mem 0 = bs := by
  rw [BitstreamState.afterBits, if_pos (Nat.zero_le _), BitVec.ushiftRight_zero]

/-- Where the loop of R110 leaves the cursor when its bits are there. -/
theorem getBitsLoop_cursor {rd : Nat → Option Byte} {mem : Nat → Byte} {q n acc v : Nat} {bs c : BitstreamState}
    (hok : bs.Ok q) (hs : bs.Sees rd mem) (hn : n ≤ (bs.streamOf mem).length)
    (e : getBitsLoop rd n acc bs = .ok (v, c)) : c = bs.afterBits mem n := by
  induction n generalizing acc bs with
  | zero =>
    cases e
    rw [BitstreamState.afterBits_zero]
  | succ n ih =>
    obtain ⟨b1, e1, ok1, sees1, hm1, hst1, -⟩ :=
      BitstreamState.ensureLoaded_spec hok hs (List.ne_nil_of_length_pos (by omega))
    obtain ⟨hst, ok2, -⟩ := BitstreamState.advance_spec (mem := mem) ok1 hm1
    have hlen : n ≤ (b1.advance.streamOf mem).length := by
      rw [← hst1, hst, List.length_cons] at hn
      omega
    rw [getBitsLoop, e1] at e
    rw [BitstreamState.afterBits_succ hok hs hn e1]
    exact ih ok2 sees1 hlen e

/-! ### `getBits` in terms of the registers -/

theorem Block.stream_length (b : Block) :
    b.stream.length = bitsLeft b.bs.bitMask + 8 * (b.bs.size - b.bs.readIndex) :=
  b.bs.streamOf_length b.inq.read

/-- With a legal width and its bits there, `getBits` gives them and moves the cursor past them (R111, R116). -/
theorem Block.getBits_eq_value {b : Block} (hok : b.bs.Ok b.cfgQ) {n : Nat} (h1 : 1 ≤ n) (h15 : n ≤ 15)
    (h : n ≤ b.stream.length) :
    b.getBits n = .value (natOfBits (b.stream.take n)) (b.bs.afterBits b.inq.read n) := by
  have sees := Block.sees hok.size_le
  obtain ⟨c, e, -⟩ := getBitsLoop_spec n 0 b.bs hok sees h
  rw [Block.getBits, BitstreamState.getBits, if_neg (by omega), Block.avail_eq hok, if_neg (by omega), e,
    getBitsLoop_cursor hok sees h e, Nat.zero_mul, Nat.zero_add, b.stream_eq]

/-- The bits of `BS_CURBYTE` alone, when they are enough. -/
theorem Block.take_stream_of_le {b : Block} {n : Nat} (h : n ≤ bitsLeft b.bs.bitMask) :
    natOfBits (b.stream.take n) =
      b.bs.currentByte.toNat % 2 ^ bitsLeft b.bs.bitMask / 2 ^ (bitsLeft b.bs.bitMask - n) := by
  rw [Block.stream, List.take_append_of_le_length (by simpa using h), natOfBits_take,
    natOfBits_bitsOfNat, bitsOfNat_length]

/-- All bits of `BS_CURBYTE`, and below them the first `k` bits of the next `m` bytes. -/
theorem Block.take_stream_of_lt {b : Block} {k m : Nat} (hk : k ≤ 8 * m) (hm : m ≤ b.bs.size - b.bs.readIndex) :
    natOfBits (b.stream.take (bitsLeft b.bs.bitMask + k)) =
      (b.bs.currentByte.toNat % 2 ^ bitsLeft b.bs.bitMask) <<< k |||
        natOfBits (bytesBits (b.unread.take m)) >>> (8 * m - k) := by
  have hlen : (bytesBits (b.unread.take m)).length = 8 * m := by simp [Block.unread, hm]
  have hfront : (bytesBits b.unread).take k = (bytesBits (b.unread.take m)).take k := by
    rw [bytesBits_take, List.take_take, min_eq_left hk]
  have hsplit : b.stream.take (bitsLeft b.bs.bitMask + k) =
      bitsOfNat (bitsLeft b.bs.bitMask) b.bs.currentByte.toNat ++ (bytesBits (b.unread.take m)).take k := by
    rw [← hfront, Block.stream, List.take_append, bitsOfNat_length, Nat.add_sub_cancel_left,
      List.take_of_length_le (by simp)]
  rw [hsplit, natOfBits_append_eq_or, natOfBits_bitsOfNat, natOfBits_take, List.length_take,
    hlen, min_eq_left hk, Nat.shiftRight_eq_div_pow]

/-- A value takes exactly its bits off AVAIL (R116). -/
theorem Block.getBits_value_avail {b : Block} (hok : b.bs.Ok b.cfgQ) {n v : Nat} {bs : BitstreamState} (h1 : 1 ≤ n)
    (h15 : n ≤ 15) (e : b.getBits n = .value v bs) : bs.avail = b.bs.avail - n := by
  rcases Block.getBits_spec hok h1 h15 with ⟨-, e'⟩ | ⟨hn, c, e', ok, hst, -⟩
  · rw [e'] at e
    cases e
  · rw [e'] at e
    cases e
    have hc : bs.avail = (b.setCursor bs).stream.length := BitstreamState.avail_eq ok
    rw [hc, Block.avail_eq hok, hst, List.length_drop]
    omega

/-! ### NOBITS in terms of the queue (R113, R117) -/

theorem Block.getBits_of_avail_lt {b : Block} {n : Nat} (h1 : 1 ≤ n) (h15 : n ≤ 15) (h : b.bs.avail < n) :
    b.getBits n = .nobits := by
  rw [Block.getBits, BitstreamState.getBits, if_neg (by omega), if_pos h]

theorem Block.getBits_eq_nobits_iff {b : Block} (hok : b.bs.Ok b.cfgQ) (n : Nat) :
    b.getBits n = .nobits ↔ (1 ≤ n ∧ n ≤ 15) ∧ b.stream.length < n := by
  by_cases hw : n < 1 ∨ 15 < n
  · rw [Block.getBits, BitstreamState.getBits_width hw]
    refine iff_of_false GetBitsResult.noConfusion fun hr => ?_
    omega
  · rcases Block.getBits_spec hok (n := n) (by omega) (by omega) with ⟨hlt, e⟩ | ⟨hle, bs, e, -⟩
    · exact iff_of_true e ⟨by omega, hlt⟩
    · rw [e]
      exact iff_of_false GetBitsResult.noConfusion fun hlt => by omega

/-- A mask is below `1 << (n − 1)` exactly when it leaves fewer than `n` bits. -/
theorem mask_lt_iff_bitsLeft_lt {m : Byte} (hm : m ∈ legalMasks) {n : Nat} (h1 : 1 ≤ n) :
    m.toNat < 1 <<< (n - 1) ↔ bitsLeft m < n := by
  have hle := bitsLeft_le m
  have e := mask_of_bitsLeft hm
  rw [Nat.one_shiftLeft]
  by_cases h0 : bitsLeft m = 0
  · rw [if_pos h0] at e
    rw [h0, e]
    exact iff_of_true (Nat.two_pow_pos _) h1
  · rw [if_neg h0] at e
    have hval : m.toNat = 2 ^ (bitsLeft m - 1) := by
      rw [e, BitVec.toNat_ofNat, ← e]
      exact Nat.mod_eq_of_lt (Nat.pow_lt_pow_right (by decide) (by omega))
    rw [hval, Nat.pow_lt_pow_iff_right (by decide)]
    omega

theorem Block.stream_length_of_empty {b : Block} (h0 : b.bs.size = 0) :
    b.stream.length = bitsLeft b.bs.bitMask := by
  rw [b.stream_length, h0, Nat.zero_sub, Nat.mul_zero, Nat.add_zero]

/-- A queue that is not compacted holds an unread byte (R40 I2), so eight bits are there. -/
theorem Block.Inv.eight_le_stream_length {b : Block} (h : b.Inv) (h0 : b.bs.size ≠ 0) : 8 ≤ b.stream.length := by
  have hle := h.readIndex_le
  have hne : b.bs.readIndex ≠ b.bs.size := fun e => h0 (h.drained e)
  rw [b.stream_length]
  omega

theorem Block.Inv.chunkWidth_le {b : Block} (h : b.Inv) : b.chunkWidth ≤ 8 := by
  by_cases hy : b.state = .yieldBackref
  · simp [Block.chunkWidth, hy]
  · exact (h.chunkWidth_range hy).2

/-- A step that has its bits, or needs none, moves to another state (R148). -/
theorem Block.Inv.progress_of_chunkWidth_le {b c : Block} (h : b.Inv) (hw : b.chunkWidth ≤ b.stream.length)
    (e : b.fsmStep = .ran c) : progress b c = true := by
  rw [progress, decide_eq_true_eq]
  rcases h.fsmStep_cases with ⟨-, hlt, -⟩ | ⟨hy, -, bs, -, e', -⟩ | ⟨hy, e'⟩
  · omega
  · rw [e'] at e
    cases e
    exact ((b.setCursor bs).afterChunk_progress _ hy h.state).symm
  · rw [e'] at e
    cases e
    rw [hy]
    exact DecoderState.noConfusion

/-! ### GETBITS as a call -/

theorem exec_getBits_of_value {s : State} {b : Block} {n v : Nat} {bs : BitstreamState} (hs : s.block = some b)
    (e : b.getBits n = .value v bs) :
    exec (.getBits n) s = .next { s with block := some (b.setCursor bs), reply := some (.ok (.value v)) } := by
  simp only [exec, execGetBits, State.withBlock_some hs, e, State.answer_eq]

theorem exec_getBits_of_nobits {s : State} {b : Block} {n : Nat} (hs : s.block = some b) (e : b.getBits n = .nobits) :
    exec (.getBits n) s = .next { s with reply := some (.ok .nobits) } := by
  simp only [exec, execGetBits, State.withBlock_some hs, e, State.answer_eq, ← hs]

end Sys2Proof.Machine

namespace Sys2Proof.Proofs

open Sys2Proof.Machine

/-- Settles O7: the law of `getBits`, whose cursor lies inside the queue (R40 I2). -/
theorem getBitsTakesTheNextBits : Obligations.GetBitsTakesTheNextBits := by
  intro s b n hs h h1 h15 hn
  rcases Block.getBits_spec h.bsOk h1 h15 with ⟨hlt, -⟩ | ⟨-, bs, e, ok, hst, -⟩
  · omega
  · exact ⟨bs, exec_getBits_of_value hs e, hst, fun heq => ⟨ok.drained heq, heq.trans (ok.drained heq)⟩⟩

/-- Settles O10: the value is that of the next bits, split where `BS_CURBYTE` ends, and the cursor moves bit by bit. -/
theorem getBitsClosedForm : Obligations.GetBitsClosedForm := by
  rintro b count a r k m u h rfl rfl h1 h15 hle hk hm hu
  have e := Block.getBits_eq_value h.bsOk h1 h15 (by rw [b.stream_length]; exact hle)
  refine ⟨fun hin => ?_, fun hout => ?_, fun v bs => Block.getBits_value_avail h.bsOk h1 h15⟩
  · rw [e, Block.take_stream_of_le hin, BitstreamState.afterBits, if_pos hin]
  · have hcount : count = bitsLeft b.bs.bitMask + k := by omega
    have hrest : 8 * m - k = 8 - u := by omega
    rw [e, BitstreamState.afterBits, if_neg (by omega), ← hk, BitstreamState.afterLoads, ← hm, ← hu, hcount,
      Block.take_stream_of_lt (m := m) (by omega) (by omega), hrest, natCast_shiftRight_loaded]

/-- Settles O11: AVAIL is `bitsLeft` of the mask with an empty queue and at least 8 with an unread byte, and no step asks
for more than 8 bits. -/
theorem noBitsInTermsOfTheQueue : Obligations.NoBitsInTermsOfTheQueue := by
  refine fun b h => ⟨fun h0 n h1 h15 => ?_, fun h0 n h1 h8 => ?_, fun h0 n e => ?_, fun h0 c e => ?_⟩
  · rw [Block.getBits_eq_nobits_iff h.bsOk, Block.stream_length_of_empty h0, mask_lt_iff_bitsLeft_lt h.mask h1]
    exact and_iff_right ⟨h1, h15⟩
  · exact ⟨_, _, Block.getBits_eq_value h.bsOk h1 (by omega) (h8.trans (h.eight_le_stream_length h0))⟩
  · have hlen := h.eight_le_stream_length h0
    rw [Block.getBits_eq_nobits_iff h.bsOk] at e
    omega
  · exact h.progress_of_chunkWidth_le (h.chunkWidth_le.trans (h.eight_le_stream_length h0)) e

/-- Settles O8: the availability test precedes every effect, and the block the call leaves is the one it met. -/
theorem getBitsFailsAtomically : Obligations.GetBitsFailsAtomically := by
  intro s b n hs h1 h15 h
  have e := Block.getBits_of_avail_lt h1 h15 h
  exact ⟨exec_getBits_of_nobits hs e, exec_getBits_of_nobits (s := { s with reply := _ }) hs e⟩

end Sys2Proof.Proofs

/-! PROOFS. The statements of 41_window: what WIN_STORE writes, where WIN_READ reads, and that the window holds the bytes
stored last. -/

namespace Sys2Proof.Machine

open Sys2Proof.Certificates

/-! ### WIN_STORE and WIN_READ as calls -/

theorem exec_winStore {s : State} {b : Block} (hs : s.block = some b) (v : Byte) :
    exec (.winStore v) s = .next { s with block := some (b.store v), reply := some (.ok .nothing) } := by
  simp only [exec, execWinStore, State.withBlock_some hs, State.answer_eq]

theorem exec_winRead {s : State} {b : Block} (hs : s.block = some b) (d : Nat) :
    exec (.winRead d) s = .next { s with reply := some (.ok (.byte (b.winRead d))) } := by
  simp only [exec, execWinRead, State.withBlock_some hs, State.answer_eq, ← hs]

/-! ### Distances -/

theorem Block.winRead_zero (b : Block) : b.winRead 0 = b.win.read b.head := by
  rw [Block.winRead_eq b (Nat.zero_le _), if_pos (Nat.zero_le _), Nat.sub_zero]

theorem Block.winRead_mod (b : Block) (d : Nat) : b.winRead (d % b.N) = b.winRead d := by
  rw [Block.winRead, Block.winRead, readUnit, readUnit, Int.natCast_emod, Int.sub_emod_emod]

/-- Distance N aliases to distance 0 (R131). -/
theorem Block.winRead_N (b : Block) : b.winRead b.N = b.win.read b.head := by
  rw [← b.winRead_mod, Nat.mod_self, b.winRead_zero]

/-! ### A run of stores -/

theorem storeAll_cons (b : Block) (v : Byte) (vs : List Byte) : storeAll b (v :: vs) = storeAll (b.store v) vs := rfl

theorem storeAll_head (b : Block) (vs : List Byte) : (storeAll b vs).head = (b.head + vs.length) % b.N := by
  induction vs generalizing b with
  | nil => exact (Nat.mod_eq_of_lt b.head_lt).symm
  | cons v vs ih =>
    rw [storeAll_cons, ih, b.store_head, b.store_N, Nat.mod_add_mod, List.length_cons, Nat.add_assoc, Nat.add_comm 1]

/-- A run of stores is the window's last bytes, and moves what was stored before it back by its length (R132). -/
theorem storeAll_winRead {b : Block} (h : b.WindowOk) (vs : List Byte) {d : Nat} (h1 : 1 ≤ d) (hd : d ≤ b.N) :
    (storeAll b vs).winRead d =
      if d ≤ vs.length then vs.getD (vs.length - d) 0 else b.winRead (d - vs.length) := by
  induction vs generalizing b with
  | nil => exact (if_neg (Nat.not_le.2 h1)).symm
  | cons v vs ih =>
    rw [storeAll_cons, ih (Block.store_windowOk h v) hd, List.length_cons]
    rcases lt_trichotomy d (vs.length + 1) with hlt | rfl | hgt
    · rw [if_pos (by omega), if_pos (by omega), Nat.succ_sub (by omega), List.getD_cons_succ]
    · rw [if_neg (by omega), if_pos le_rfl, Nat.add_sub_cancel_left, Block.winRead_store h v le_rfl b.N_pos, if_pos rfl,
        Nat.sub_self, List.getD_cons_zero]
    · rw [if_neg (by omega), if_neg (by omega), Block.winRead_store h v (by omega) (by omega), if_neg (by omega),
        Nat.sub_sub]

end Sys2Proof.Machine

namespace Sys2Proof.Proofs

open Sys2Proof.Machine Sys2Proof.Certificates

/-- Settles O13: the call leaves the block of `store`, which writes one cell and moves HEAD on by one. -/
theorem storeWritesAtHead : Obligations.StoreWritesAtHead := fun _ b v hs h =>
  ⟨(b.store v).win, (b.store v).headReg, exec_winStore hs v, b.store_headReg_toNat v, Block.store_read h.windowOk v⟩

/-- Settles O14: the address depends on the distance modulo N only, and a store leaves its byte one below the new HEAD. -/
theorem readIsRelativeToHead : Obligations.ReadIsRelativeToHead := fun _ b d hs h =>
  ⟨exec_winRead hs d, b.winRead_N, b.winRead_zero, (b.winRead_mod d).symm,
    fun v => Block.winRead_store h.windowOk v le_rfl b.N_pos⟩

/-- Settles O15: a run of stores on a fresh block, whose HEAD is 0 and whose window reads 0x00 at every distance. -/
theorem windowHoldsTheLastStores : Obligations.WindowHoldsTheLastStores := by
  intro w l q vs hc _
  have fresh : Fresh (Block.init w l q) := Block.init_fresh w l q
  refine ⟨?_, fun d h1 hd => ?_⟩
  · rw [storeAll_head, fresh.head, Nat.zero_add]
    rfl
  · rw [storeAll_winRead (Block.init_good hc).inv.windowOk vs h1 hd, Block.winRead, readUnit, fresh.win]

end Sys2Proof.Proofs

/-! PROOFS. The statements of 42_decoder_fsm: the steps of the state machine, the units, POLL and feeding. -/

/-! ## The steps: what each state does with its chunk, and when a step makes no progress (R141 to R151) -/

namespace Sys2Proof.Machine

/-! ### The accumulators, as numbers (R84) -/

theorem accumulateMsb_eq_ofNat (m : Nat) : accumulateMsb m = BitVec.ofNat 16 (m * 256) := by
  apply BitVec.eq_of_toNat_eq
  rw [accumulateMsb, BitVec.toNat_shiftLeft, BitVec.toNat_ofNat, BitVec.toNat_ofNat, Nat.shiftLeft_eq, Nat.mod_mul_mod]

/-- Above cleared low bits the or is a sum. -/
theorem accumulateLsb_eq_ofNat {acc : Half} {l n : Nat} (hn : n ≤ 15) (ha : awaitsLsb n acc) (hl : l < 2 ^ min n 8) :
    accumulateLsb acc l = BitVec.ofNat 16 (acc.toNat + l + 1) := by
  rw [← (accumulateLsb_toNat hn ha hl).1, BitVec.ofNat_toNat, BitVec.setWidth_eq]

/-! ### The steps -/

/-- Where a tag bit leads (R141). -/
theorem Block.afterTag_toNat (t : Bool) (b : Block) :
    Block.afterTag t.toNat b = { b with
      state := if t then .yieldLiteral else if b.W > 8 then .backrefIndexMsb else .backrefIndexLsb
      outIndex := if t = false ∧ b.W ≤ 8 then 0 else b.outIndex } := by
  cases t with
  | true => rfl
  | false =>
    by_cases h8 : b.W > 8
    · simp [Block.afterTag, h8]
    · simp [Block.afterTag, h8, Nat.not_lt.1 h8]

theorem Block.chunkWidth_of_state (b : Block) {st : DecoderState} (hs : b.state = st) :
    b.chunkWidth = widthIn b.W b.L st := by
  rw [b.chunkWidth_eq, hs]

/-- The step of a bit-reading state: with too few bits nothing changes (R113, R148), else the chunk comes off the stream and
is handed to the state (R141 to R146). -/
theorem Block.Inv.fsmStep_chunk {b : Block} (h : b.Inv) {st : DecoderState} (hs : b.state = st) (hy : st ≠ .yieldBackref) :
    (b.stream.length < widthIn b.W b.L st → b.fsmStep = .ran b) ∧
    (widthIn b.W b.L st ≤ b.stream.length → ∃ bs, (b.setCursor bs).stream = b.stream.drop (widthIn b.W b.L st) ∧
      b.fsmStep = .ran ((b.afterChunk (natOfBits (b.stream.take (widthIn b.W b.L st)))).setCursor bs)) := by
  rw [← b.chunkWidth_of_state hs]
  rcases h.fsmStep_cases with ⟨-, hl, e⟩ | ⟨-, hl, bs, -, e, -, hst, -⟩ | ⟨hy', -⟩
  · exact ⟨fun _ => e, fun hl' => by omega⟩
  · exact ⟨fun hl' => by omega, fun _ => ⟨bs, hst, by rw [e, Block.afterChunk_setCursor]⟩⟩
  · exact absurd (hs.symm.trans hy') hy

/-- The copy of YieldBackref emits and stores the run of its distance (R147, R157). -/
theorem Block.Inv.copyRun_spec {b : Block} (h : b.Inv) (hy : b.state = .yieldBackref) :
    ∃ o, o.length = b.outCount.toNat ∧
      b.Emitted { b.copyRun b.outCount.toNat with state := .tagBit } o ∧ b.IsRun b.outIndex.toNat o := by
  obtain ⟨h1, hN⟩ := h.index (.inr (.inr hy))
  obtain ⟨o, hlen, emitted, run⟩ := Block.copyRun_spec b.outCount.toNat h.windowOk h1 hN
  exact ⟨o, hlen, emitted.congr rfl rfl rfl rfl fun _ => rfl, run⟩

/-- A step that runs, from whatever block: it copies a run, or its chunk is not there, or its chunk is handed on. -/
theorem Block.fsmStep_ran_inv {b c : Block} (e : b.fsmStep = .ran c) :
    (b.state = .yieldBackref ∧ c.state = .tagBit) ∨
    (b.state ≠ .yieldBackref ∧ b.getBits b.chunkWidth = .nobits ∧ c = b) ∨
    (b.state ≠ .yieldBackref ∧ b.state ≠ .code7 ∧
      ∃ v bs, b.getBits b.chunkWidth = .value v bs ∧ c = (b.setCursor bs).afterChunk v) := by
  by_cases hy : b.state = .yieldBackref
  · refine .inl ⟨hy, ?_⟩
    rw [Block.fsmStep, hy] at e
    simp only [Block.stepYieldBackref] at e
    split_ifs at e
    cases e
    rfl
  · have hc : b.state ≠ .code7 := fun hc => by simp [Block.fsmStep, hc] at e
    have hi : b.state = .backrefIndexMsb → 8 < b.W := fun hi => by
      by_contra hW
      simp [Block.fsmStep, hi, Block.stepBackrefIndexMsb, Nat.not_lt.1 hW] at e
    have hm : b.state = .backrefCountMsb → 8 < b.L := fun hm => by
      by_contra hL
      simp [Block.fsmStep, hm, Block.stepBackrefCountMsb, Nat.not_lt.1 hL] at e
    rw [b.fsmStep_reads hy hc hi hm, Block.readChunk] at e
    cases hg : b.getBits b.chunkWidth with
    | value v bs =>
      rw [hg] at e
      cases e
      exact .inr (.inr ⟨hy, hc, v, bs, rfl, rfl⟩)
    | nobits =>
      rw [hg] at e
      cases e
      exact .inr (.inl ⟨hy, rfl, rfl⟩)
    | widthError => simp [hg] at e
    | noAddress a => simp [hg] at e

/-- A step of a block that meets the invariants raises nothing. -/
theorem Block.Inv.fsmStep_ran {b : Block} (h : b.Inv) : ∃ c, b.fsmStep = .ran c := by
  rcases h.fsmStep_cases with ⟨-, -, e⟩ | ⟨-, -, _, -, e, -⟩ | ⟨-, e⟩ <;> exact ⟨_, e⟩

/-! ### POLL: how many steps it makes, and a step that raises -/

/-- Each of a run of progressing steps lowers the measure by at least one (R151). -/
theorem Block.Good.progresses_le_measure {trace : Nat → Block} (h : (trace 0).Good) (n : Nat)
    (hp : ∀ k, k < n → (trace k).Progresses (trace (k + 1))) :
    (trace n).Good ∧ n + (trace n).measure ≤ (trace 0).measure := by
  induction n with
  | zero => exact ⟨h, by omega⟩
  | succ n ih =>
    obtain ⟨hn, hle⟩ := ih fun k hk => hp k (by omega)
    have hlast := hp n (by omega)
    have := hn.measure_lt hlast
    exact ⟨(hn.progress_facts hlast).good, by omega⟩

/-- A raising step ends POLL at once (R207). -/
theorem Block.poll_of_raised {b : Block} {e : Cause} (h : b.fsmStep = .raised e) : b.poll = .raised (b.raise e) e := by
  rw [Block.poll, Block.driveLoop, h]

theorem exec_poll_of_raised {s : State} {b : Block} {e : Cause} (hs : s.block = some b) (hl : b.fault.valid = false)
    (h : b.fsmStep = .raised e) :
    exec .poll s = .next { s with block := some (b.raise e), reply := some e.outcome } := by
  simp only [exec, execPoll, State.withLiveBlock_live hs hl, Block.poll_of_raised h, State.conclude, State.answer_eq]

end Sys2Proof.Machine

namespace Sys2Proof.Proofs

open Sys2Proof.Machine

/-- Settles O17: the chunk is one bit, and the state it leads to follows from its value. -/
theorem tagBitStep : Obligations.TagBitStep := by
  intro b h ht
  obtain ⟨short, enough⟩ := h.fsmStep_chunk ht (by decide)
  refine ⟨fun hs => short (by rw [hs]; exact Nat.one_pos), fun t rest hs => ?_⟩
  obtain ⟨bs, hst, e⟩ := enough (by rw [hs]; exact Nat.le_add_left 1 _)
  rw [hs] at hst e
  have tag : natOfBits ((t :: rest).take (widthIn b.W b.L .tagBit)) = t.toNat := by simp [widthIn, natOfBits]
  simp only [tag, Block.afterChunk, ht, Block.afterTag_toNat] at e
  exact ⟨bs, hst, e⟩

/-- Settles O18: the chunk is the byte, and its state emits it and stores it. -/
theorem yieldLiteralStep : Obligations.YieldLiteralStep := by
  intro b h hs
  refine (h.fsmStep_chunk hs (by decide)).imp_right fun enough hl => ?_
  obtain ⟨bs, hst, e⟩ := enough hl
  have hread := Block.store_read h.windowOk (BitVec.ofNat 8 (natOfBits (b.stream.take 8)))
  simp only [Block.afterChunk, hs] at e
  exact ⟨_, e, rfl, hst, (Block.Emitted.emitStore h.windowOk _).congr rfl rfl rfl rfl fun _ => rfl,
    (hread b.head).trans (if_pos rfl), fun a ha => (hread a).trans (if_neg ha), rfl, rfl, rfl, rfl, rfl, rfl, rfl⟩

/-- Settles O19: the LSB chunk finds the low bits of `OUT_INDEX` clear, so that the or is a sum. -/
theorem indexChunkSteps : Obligations.IndexChunkSteps := by
  intro b h
  obtain ⟨-, hW15, -⟩ := h.config
  refine ⟨fun hs => ?_, fun hs => ?_⟩
  · refine (h.fsmStep_chunk hs (by decide)).imp_right fun enough hl => ?_
    obtain ⟨bs, hst, e⟩ := enough hl
    simp only [Block.afterChunk, hs, Block.afterIndexMsb, accumulateMsb_eq_ofNat] at e
    exact ⟨bs, hst, e⟩
  · refine (h.fsmStep_chunk hs (by decide)).imp_right fun enough hl => ?_
    obtain ⟨bs, hst, e⟩ := enough hl
    have sum := accumulateLsb_eq_ofNat hW15 (h.indexLsb hs) (natOfBits_take_lt hl)
    simp only [Block.afterChunk, hs, Block.afterIndexLsb] at e
    exact ⟨bs, hst, by rw [e, ← sum]; rfl⟩

/-- Settles O20: the count is assembled as the index is. -/
theorem countChunkSteps : Obligations.CountChunkSteps := by
  intro b h
  obtain ⟨-, hW15, -, hLW, -⟩ := h.config
  refine ⟨fun hs => ?_, fun hs => ?_⟩
  · refine (h.fsmStep_chunk hs (by decide)).imp_right fun enough hl => ?_
    obtain ⟨bs, hst, e⟩ := enough hl
    simp only [Block.afterChunk, hs, Block.afterCountMsb, accumulateMsb_eq_ofNat] at e
    exact ⟨bs, hst, e⟩
  · refine (h.fsmStep_chunk hs (by decide)).imp_right fun enough hl => ?_
    obtain ⟨bs, hst, e⟩ := enough hl
    have sum := accumulateLsb_eq_ofNat (by omega) (h.countLsb hs) (natOfBits_take_lt hl)
    simp only [Block.afterChunk, hs, Block.afterCountLsb] at e
    exact ⟨bs, hst, by rw [e, ← sum]; rfl⟩

/-- Settles O21: the copy loop's run, and what the loop leaves. -/
theorem yieldBackrefStep : Obligations.YieldBackrefStep := by
  intro b h hs
  obtain ⟨o, hlen, emitted, run⟩ := h.copyRun_spec hs
  have frame := b.copyRun_frame b.outCount.toNat
  exact ⟨_, o, h.fsmStep_copy hs, rfl, hlen, emitted, run, frame.bs, frame.inq, frame.outIndex, frame.outCount,
    frame.fault, frame.cfgW, frame.cfgL, frame.cfgQ⟩

/-- Settles O22: a copy and a chunk handed on change the state; NOBITS changes nothing. -/
theorem noProgressIsNoBits : Obligations.NoProgressIsNoBits := by
  intro b c e
  rcases Block.fsmStep_ran_inv e with ⟨hy, ht⟩ | ⟨hy, hg, rfl⟩ | ⟨hy, hc, v, bs, hg, rfl⟩
  · have hp : progress b c = true := by simp [progress, hy, ht]
    simp [hp, hy]
  · simp [progress, hy, hg]
  · have hp : progress b ((b.setCursor bs).afterChunk v) = true :=
      decide_eq_true ((b.setCursor bs).afterChunk_progress v hy hc).symm
    simp [hp, hg]

/-- Settles O23: the widths follow from `4 ≤ W ≤ 15` and `1 ≤ L < W`, and no step of a block that meets the invariants
raises. -/
theorem widthsAskedOfGetBits : Obligations.WidthsAskedOfGetBits := by
  intro b h
  obtain ⟨hW4, hW15, hL1, hLW, -⟩ := h.config
  refine ⟨fun hs => ?_, fun hs => ?_, fun hs => ?_, fun hs => ?_, fun hs => ?_, fun hs => ?_, fun e => ?_⟩
  · have hw : b.chunkWidth = 1 := b.chunkWidth_of_state hs
    exact ⟨hw, by rw [hw, Block.fsmStep, hs]; rfl⟩
  · have hw : b.chunkWidth = 8 := b.chunkWidth_of_state hs
    exact ⟨hw, by rw [hw, Block.fsmStep, hs]; rfl⟩
  · have h8 := h.indexMsb hs
    have hw : b.chunkWidth = b.W - 8 := b.chunkWidth_of_state hs
    have e : b.fsmStep = b.stepBackrefIndexMsb := by rw [Block.fsmStep, hs]
    exact ⟨h8, hw, by omega, by omega, by rw [hw, e, Block.stepBackrefIndexMsb, if_neg (by omega)]; rfl⟩
  · have hw : b.chunkWidth = min b.W 8 := b.chunkWidth_of_state hs
    exact ⟨hw, by omega, by omega, by rw [hw, Block.fsmStep, hs]; rfl⟩
  · have h8 := h.countMsb hs
    have hw : b.chunkWidth = b.L - 8 := b.chunkWidth_of_state hs
    have e : b.fsmStep = b.stepBackrefCountMsb := by rw [Block.fsmStep, hs]
    exact ⟨h8, hw, by omega, by omega, by rw [hw, e, Block.stepBackrefCountMsb, if_neg (by omega)]; rfl⟩
  · have hw : b.chunkWidth = min b.L 8 := b.chunkWidth_of_state hs
    exact ⟨hw, by omega, by omega, by rw [hw, Block.fsmStep, hs]; rfl⟩
  · obtain ⟨c, e'⟩ := h.fsmStep_ran
    rw [e'] at e
    cases e

/-- Settles O24: a bit-reading step takes its chunk off the stream, and the measure that every progressing step lowers is at
most 2A + 1. -/
theorem pollTerminates : Obligations.PollTerminates := by
  refine ⟨fun b c h hp hy => ?_, fun b c h hp => (h.progress_facts hp).after, fun trace n h hp => ?_⟩
  · have facts := h.progress_facts hp
    have hw := (h.inv.chunkWidth_range hy).1
    have hle := facts.enough
    rw [Block.avail_eq h.inv.bsOk, Block.avail_eq facts.good.inv.bsOk, facts.stream, List.length_drop]
    omega
  · have hle := (h.progresses_le_measure n hp).2
    have hfuel := h.measure_lt_fuel
    omega

/-- Settles O46: the two checks precede the copy, the offset's first, and a raising step ends POLL. -/
theorem corruptDataEntersTheFault : Obligations.CorruptDataEntersTheFault := by
  intro s b hs hl hy
  have e : b.fsmStep = b.stepYieldBackref := by rw [Block.fsmStep, hy]
  refine ⟨fun hi => exec_poll_of_raised hs hl (e := .corruptOffset) ?_,
    fun hi hc => exec_poll_of_raised hs hl (e := .corruptCount) ?_⟩
  · rw [e, Block.stepYieldBackref, if_pos hi]
  · rw [e, Block.stepYieldBackref, if_neg (Nat.not_lt.2 hi), if_pos hc]

end Sys2Proof.Proofs

/-! ## The units: what LIT and BREF leave, where a short unit parks, and that the state machine takes the same way as a
unit's meaning (R152 to R157) -/

namespace Sys2Proof.Machine

/-! ### How many bits and steps a unit takes -/

theorem chunkSum_brefChunks (W L : Nat) (idx cnt : Half) : chunkSum (brefChunks W L idx cnt) = 1 + W + L := by
  rw [brefChunks, chunkSum_cons, chunkSum_append, chunkSum_fieldChunks, chunkSum_fieldChunks, Nat.add_assoc]

theorem fieldChunks_length_le (n v : Nat) : (fieldChunks n v).length ≤ 2 := by
  unfold fieldChunks
  split <;> simp

/-- A unit has a tag and at most four more chunks (R83). -/
theorem unitChunks_length {W L : Nat} {i : Instr} (hi : i.isUnit = true) :
    unitChunks W L i ≠ [] ∧ (unitChunks W L i).length ≤ 5 := by
  cases i with
  | lit v => exact ⟨List.cons_ne_nil _ _, Nat.le_add_right 2 3⟩
  | bref idx cnt =>
    have hidx := fieldChunks_length_le W idx.toNat
    have hcnt := fieldChunks_length_le L cnt.toNat
    refine ⟨List.cons_ne_nil _ _, ?_⟩
    rw [unitChunks, brefChunks, List.length_cons, List.length_append]
    omega
  | _ => cases hi

/-- A field's number, made 1-based, still fits the accumulator (R84, R35). -/
theorem toNat_add_one {x : Half} {n : Nat} (hn : n ≤ 15) (hx : x.toNat < 2 ^ n) : (x + 1).toNat = x.toNat + 1 := by
  have hle : 2 ^ n ≤ 2 ^ 15 := Nat.pow_le_pow_right (by decide) hn
  rw [BitVec.toNat_add]
  exact Nat.mod_eq_of_lt (by show x.toNat + 1 < 2 ^ 16; omega)

/-! ### A unit as a call -/

theorem exec_unit_of_runChunks {s : State} {b c : Block} {i : Instr} (hs : s.block = some b) (h : b.Good)
    (ht : b.state = .tagBit) (hi : i.isUnit = true) (e : Block.runChunks (unitChunks b.W b.L i) b = .ok c) :
    exec i s = .next { s with block := some c } := by
  rw [exec_unit hs h ht hi, e, State.concludeUnit]

/-- A decoded unit is well formed, and its chunks are the front of the stream (R83). -/
theorem Block.Good.decoded {b : Block} {i : Instr} {rest : List Bool} (h : b.Good)
    (hd : decode b.W b.L b.stream = .ok (i, rest)) :
    i.isUnit = true ∧ i.wf b.W b.L = true ∧ b.stream = chunkBits (unitChunks b.W b.L i) ++ rest := by
  obtain ⟨-, hW15, -, hLW, -⟩ := h.inv.config
  obtain ⟨hi, hw⟩ := decode_ok_wf hd
  obtain ⟨bits, he, hbits⟩ := encode_decode (by omega) (by omega) hd
  rw [encode_unit hi] at he
  cases he
  exact ⟨hi, hw, hbits⟩

/-- A decoded unit on a good block in TagBit: its meaning and the state machine's run through it end in the same block. -/
structure Block.RanUnit (b : Block) (i : Instr) (rest : List Bool) (c : Block) : Prop where
  run : Block.runChunks (unitChunks b.W b.L i) b = .ok c
  steps : Relation.ReflTransGen Block.Progresses b c
  finish : b.finishUnit 6 = .ok c
  stream : c.stream = rest
  good : c.Good
  state : c.state = .tagBit

/-- The unit's chunks are the ones the state machine reads off the stream; a BREF's copy step is one more step. -/
theorem Block.Good.ranUnit {b : Block} {i : Instr} {rest : List Bool} (h : b.Good) (ht : b.state = .tagBit)
    (hd : decode b.W b.L b.stream = .ok (i, rest)) : ∃ c, b.RanUnit i rest c := by
  obtain ⟨hi, hw, hbits⟩ := h.decoded hd
  obtain ⟨hne, hlen⟩ := unitChunks_length (W := b.W) (L := b.L) hi
  have hsum : chunkSum (unitChunks b.W b.L i) = (chunkBits (unitChunks b.W b.L i)).length := (chunkBits_length _).symm
  have hfront : b.stream.take (chunkSum (unitChunks b.W b.L i)) = chunkBits (unitChunks b.W b.L i) := by
    rw [hsum, hbits, List.take_left]
  have hrest : b.stream.drop (chunkSum (unitChunks b.W b.L i)) = rest := by
    rw [hsum, hbits, List.drop_left]
  obtain ⟨m, c, -, way, run, hgood, hstate, hstream, hend⟩ :=
    h.runUnit_spec ht hi hw (by rw [hsum, hbits, List.length_append]; exact Nat.le_add_right _ _)
  obtain ⟨steps, finish⟩ := way hfront
  obtain ⟨n, hn⟩ : ∃ n, 6 = (unitChunks b.W b.L i).length + (n + 1) := ⟨5 - (unitChunks b.W b.L i).length, by omega⟩
  have finish6 := finish (n + 1)
  rw [← hn] at finish6
  cases hend with
  | lit v hm => exact ⟨m, run, steps, by rw [finish6, if_pos ⟨hne, hstate⟩], hstream.trans hrest, hgood, hstate⟩
  | bref idx cnt hm copy =>
    have hy : m.state ≠ .tagBit := by rw [hm]; exact DecoderState.noConfusion
    exact ⟨_, run, steps.tail copy, by rw [finish6, if_neg fun hc => hy hc.2, copy.finishUnit, if_pos rfl],
      hstream.trans hrest, hgood, rfl⟩

end Sys2Proof.Machine

namespace Sys2Proof.Proofs

open Sys2Proof.Machine

/-- Settles O28: the decoded unit's chunks are the stream's front, so each chunk consumed is a step of the state machine. -/
theorem stateMachineRefinesUnits : Obligations.StateMachineRefinesUnits := by
  intro s b i rest hs h ht hd
  obtain ⟨c, ran⟩ := h.ranUnit ht hd
  exact ⟨c, exec_unit_of_runChunks hs h ht (h.decoded hd).1 ran.run, ran.finish, ran.stream, ran.good, ran.state⟩

/-- Settles O29: the unit's meaning leads along the steps POLL takes, and POLL gives the same from every block on its way. -/
theorem pollRunsTheUnitsOfTheStream : Obligations.PollRunsTheUnitsOfTheStream := by
  intro s b c i rest hs h ht hd e
  obtain ⟨d, ran⟩ := h.ranUnit ht hd
  rw [exec_unit_of_runChunks hs h ht (h.decoded hd).1 ran.run] at e
  cases e
  obtain ⟨p, ep, -⟩ := ran.good.poll_spec
  rw [exec_poll hs h ((h.poll_steps_eq ran.steps).trans ep), exec_poll rfl ran.good ep]

/-- Settles O25: the chunks of LIT leave the block of `emitStore`, with the cursor moved past nine bits. -/
theorem litEffect : Obligations.LitEffect := by
  intro s b v hs h ht hl
  obtain ⟨m, c, -, -, run, -, -, hstream, hend⟩ := h.runUnit_spec (i := .lit v) ht rfl rfl hl
  cases hend with
  | lit v hm =>
    rw [hm] at run hstream
    exact ⟨m.bs, (b.emitStore v).win, (b.emitStore v).headReg, exec_unit_of_runChunks hs h ht rfl run, hstream,
      b.store_headReg_toNat v, Block.store_read h.inv.windowOk v⟩

/-- Settles O26: the chunks of BREF leave the 1-based numbers in the accumulators and nothing else but the cursor; the copy
step that follows emits and stores the run. -/
theorem brefEffect : Obligations.BrefEffect := by
  intro s b idx cnt hs h ht hw hl
  have hfit := hw
  rw [Instr.wf, Bool.and_eq_true, decide_eq_true_eq, decide_eq_true_eq] at hfit
  obtain ⟨-, hW15, -, hLW, -⟩ := h.inv.config
  obtain ⟨m, c, consumed, -, run, -, -, hstream, hend⟩ :=
    h.runUnit_spec (i := .bref idx cnt) ht rfl hw ((chunkSum_brefChunks b.W b.L idx cnt).trans_le hl)
  have e := exec_unit_of_runChunks hs h ht rfl run
  rw [unitChunks, chunkSum_brefChunks] at hstream
  cases hend with
  | bref _ _ hm =>
    obtain ⟨o, hlen, emitted, isRun⟩ := consumed.good.inv.copyRun_spec (by rw [hm])
    have frame := m.copyRun_frame m.outCount.toNat
    have hidx : m.outIndex.toNat = idx.toNat + 1 := by rw [hm]; exact toNat_add_one hW15 hfit.1
    have hcnt : m.outCount.toNat = cnt.toNat + 1 := by rw [hm]; exact toNat_add_one (by omega) hfit.2
    have quiet : b.Emitted m [] :=
      .of_quiet consumed.fixed (by rw [hm]) (by rw [hm]) (by rw [hm]) (by rw [hm])
    obtain ⟨hcW, hcL, hcQ, hinq, hfault⟩ := consumed.fixed
    refine ⟨_, o, e, hstream, (congrArg BitVec.toNat frame.outIndex).trans hidx,
      (congrArg BitVec.toNat frame.outCount).trans hcnt, hlen.trans hcnt, quiet.trans consumed.fixed.N emitted, ?_, rfl,
      frame.inq.trans hinq, frame.fault.trans hfault, frame.cfgW.trans hcW, frame.cfgL.trans hcL, frame.cfgQ.trans hcQ⟩
    rw [← hidx]
    intro j h1 hj
    rw [isRun j h1 hj, hm]
    rfl

/-- Settles O27: the run of a unit's chunks parks at the first one that is not all there, before the literal byte or the copy,
and the state machine stops there too. -/
theorem shortUnitParks : Obligations.ShortUnitParks := by
  intro s b i hs h ht hi hw hshort
  have hlt := hshort _ (encode_unit hi)
  rw [chunkBits_length] at hlt
  rcases h.runChunks_spec (by rw [ht]; exact tracks_unit hi hw) with ⟨-, c, front, short, run, parked⟩ | ⟨hle, -⟩
  · obtain ⟨rest, hsplit⟩ := parked.split
    obtain ⟨hout, hcap, hwin, hreg⟩ := parked.quiet
    obtain ⟨hcW, hcL, hcQ, hinq, hfault⟩ := parked.fixed
    have havail : c.bs.avail < short.width := by
      rw [Block.avail_eq parked.good.inv.bsOk]
      exact_mod_cast parked.short
    have hstuck := (parked.good.inv.fsmStep_chunk rfl parked.reads).1
      (by rw [← c.chunkWidth_eq, parked.width]; exact parked.short)
    refine ⟨front, short, rest, c, hsplit, exec_unit_of_runChunks hs h ht hi run, parked.shape, parked.stream,
      parked.enough, parked.width, havail, hstuck, fun bits he hpre => ?_, hout, hcap, hwin, hreg, hinq, hfault, hcW, hcL,
      hcQ⟩
    rw [encode_unit hi] at he
    cases he
    exact (parked.sameWay hpre).2 6 ((unitChunks_length hi).2.trans (Nat.le_succ 5))
  · omega

end Sys2Proof.Proofs

/-! ## POLL and feeding: where a POLL parks (R152), and that a good block decodes the same however its bytes come and
whenever its output is taken (R154) -/

namespace Sys2Proof.Machine

open Sys2Proof.Certificates

/-! ### A block that has all its bytes at once -/

/-- Whatever the capacity of `b`, a good block has all of `ys` queued already and stands where `b` stands (R154). -/
theorem Block.Good.exists_ahead {b : Block} (h : b.Good) (ys : List Byte) : ∃ a : Block, a.Good ∧ a.Lags True [] ys b := by
  have hroom := h.inv.size_le
  obtain ⟨-, -, -, -, hQ⟩ := h.inv.config
  obtain ⟨-, inRange⟩ := h.inv.inq
  have wide : Block.Good { b with cfgQ := b.cfgQ + ys.length } :=
    h.withCapacity (hQ.trans (Nat.le_add_right _ _)) (hroom.trans (Nat.le_add_right _ _))
      fun p hp => (inRange p hp).trans_le (Nat.le_add_right _ _)
  obtain ⟨⟨hW, hL, hst, hidx, hcnt, hreg, hwin, hout, hfault, hcap⟩, hstream, hlast⟩ := wide.lags_enqueue True ys
  exact ⟨_, wide.enqueue (Nat.add_le_add_right hroom _),
    ⟨⟨hW, hL, hst, hidx, hcnt, hreg, hwin, hout, hfault, hcap⟩, hstream, hlast⟩⟩

/-- A parked block stands where every block ends that has made its steps and has no byte to come (R154, R172). -/
theorem Block.Lags.poll_of_parked {pre : List Byte} {a b : Block} (h : a.Lags True pre [] b) (ha : a.Good) (hb : b.Good)
    (pb : b.Parked) : ∃ e, a.poll = .ok e ∧ e.SameCore True pre b ∧ e.bs = b.bs := by
  obtain ⟨e, b', ea, eb, after, -, -, -, -, hbs⟩ := h.poll_same ha hb
  rw [hb.poll_of_steps .refl (hb.stuck_of_parked pb)] at eb
  cases eb
  exact ⟨e, ea, after.core, hbs trivial⟩

/-- Two parked blocks whose steps `a` has made both agree with the one block that the POLL of `a` ends in (R154). -/
theorem Block.Good.parked_alike {a x y b c : Block} {pre qre : List Byte} (ha : a.Good)
    (sx : Relation.ReflTransGen Block.Progresses a x) (lx : x.Lags True pre [] b) (hb : b.Good) (pb : b.Parked)
    (sy : Relation.ReflTransGen Block.Progresses a y) (ly : y.Lags True qre [] c) (hc : c.Good) (pc : c.Parked) :
    ∃ e : Block, (e.SameCore True pre b ∧ e.bs = b.bs) ∧ (e.SameCore True qre c ∧ e.bs = c.bs) := by
  obtain ⟨e, ex, alikeb⟩ := lx.poll_of_parked (ha.of_steps sx) hb pb
  obtain ⟨e', ey, alikec⟩ := ly.poll_of_parked (ha.of_steps sy) hc pc
  rw [← ha.poll_steps_eq sx] at ex
  rw [← ha.poll_steps_eq sy, ex] at ey
  cases ey
  exact ⟨e, alikeb, alikec⟩

/-- Taking the output of `b` puts it in front of what `b` will still emit. -/
theorem Block.Lags.takeOutput {ys : List Byte} {a b : Block} (h : a.Lags True [] ys b) :
    a.Lags True b.out ys { b with out := [] } where
  core :=
    ⟨h.core.cfgW, h.core.cfgL, h.core.state, h.core.outIndex, h.core.outCount, h.core.headReg, h.core.win,
      h.core.out.trans (List.append_nil _).symm, h.core.fault, fun hs _ => h.core.cap hs rfl⟩
  stream := h.stream
  last := h.last

/-- GET_OUTPUT on a good block (R175). -/
theorem exec_getOutput {s : State} {b : Block} (hs : s.block = some b) (h : b.Good) :
    exec .getOutput s = .next { s with block := some { b with out := [] }, reply := some (.ok (.bytes b.out)) } := by
  simp only [exec, execGetOutput, State.withLiveBlock_live hs h.live, State.answer_eq]

/-- Two blocks that agree with a third, its cursor included, agree in all but the queue memory. -/
theorem Block.SameCore.sameButQueueBytes {e c d : Block} (hc : e.SameCore True [] c) (hd : e.SameCore True [] d)
    (bsc : e.bs = c.bs) (bsd : e.bs = d.bs) (hq : c.cfgQ = d.cfgQ) : c.SameButQueueBytes d where
  cfgW := hc.cfgW.symm.trans hd.cfgW
  cfgL := hc.cfgL.symm.trans hd.cfgL
  cfgQ := hq
  state := hc.state.symm.trans hd.state
  bs := bsc.symm.trans bsd
  outIndex := hc.outIndex.symm.trans hd.outIndex
  outCount := hc.outCount.symm.trans hd.outCount
  head := hc.headReg.symm.trans hd.headReg
  win := hc.win.symm.trans hd.win
  out := hc.out.symm.trans hd.out
  outCap := (hc.cap trivial rfl).symm.trans (hd.cap trivial rfl)
  fault := (hc.fault trivial).symm.trans (hd.fault trivial)

/-! ### Feeding -/

/-- What feeding does to a good block: the capacity stays, and a block that had all the bytes from the start makes the
same steps (R153, R154). -/
structure Block.Fed (b : Block) (bytes : List Byte) (c : Block) : Prop where
  good : c.Good
  cfgQ : c.cfgQ = b.cfgQ
  sameSteps : ∀ (ys : List Byte) (a : Block), a.Good → a.Lags True [] (bytes ++ ys) b →
    ∃ a', Relation.ReflTransGen Block.Progresses a a' ∧ a'.Lags True [] ys c

theorem Block.Good.fed_nil {b : Block} (h : b.Good) : b.Fed [] b := ⟨h, rfl, fun _ a _ la => ⟨a, .refl, la⟩⟩

theorem Block.Fed.trans {b c d : Block} {xs ys : List Byte} (h : b.Fed xs c) (k : c.Fed ys d) : b.Fed (xs ++ ys) d where
  good := k.good
  cfgQ := k.cfgQ.trans h.cfgQ
  sameSteps zs a ha la := by
    rw [List.append_assoc] at la
    obtain ⟨a1, s1, l1⟩ := h.sameSteps (ys ++ zs) a ha la
    obtain ⟨a2, s2, l2⟩ := k.sameSteps zs a1 (ha.of_steps s1) l1
    exact ⟨a2, s1.trans s2, l2⟩

theorem Block.Good.fed_sink {b : Block} (h : b.Good) (bytes : List Byte) :
    b.Fed (b.accepts bytes) (b.enqueue (b.accepts bytes)) := by
  obtain ⟨c, -, hc, -, -, rfl⟩ := h.sink_spec bytes
  exact ⟨hc, rfl, fun _ a _ la => ⟨a, .refl, la.enqueue h.inv.inq.1 h.inv.readIndex_le⟩⟩

theorem Block.Good.fed_of_steps {b c : Block} (h : b.Good) (hs : Relation.ReflTransGen Block.Progresses b c) :
    b.Fed [] c :=
  ⟨h.of_steps hs, (h.steps_fixed hs).cfgQ, fun _ _ ha la => la.steps ha h hs⟩

theorem Block.Processed.fed {b c : Block} {bytes : List Byte} (h : b.Processed bytes c) : b.Fed bytes c :=
  ⟨h.good, h.cfgQ, h.sameSteps True []⟩

/-- A feed of a good block is answered, and feeds it the bytes that the answer says were accepted (R171 to R173). -/
theorem exec_feed {s : State} {b : Block} (hs : s.block = some b) (h : b.Good) (f : Feed) :
    ∃ t c, exec f.call s = .next t ∧ t.block = some c ∧ b.Fed (f.accepted t.reply) c := by
  cases f with
  | sink bytes =>
    have hlen := b.accepts_length bytes
    have haccepted : bytes.take (bytes.length - (bytes.length - (b.accepts bytes).length)) = b.accepts bytes := by
      rw [Nat.sub_sub_self (by omega), hlen, Block.accepts, List.take_eq_take_iff]
      omega
    refine ⟨_, _, exec_sink hs h bytes, rfl, ?_⟩
    rw [Feed.accepted, haccepted]
    exact h.fed_sink bytes
  | poll =>
    obtain ⟨c, e, -, steps, -⟩ := h.poll_spec
    exact ⟨_, c, exec_poll hs h e, rfl, h.fed_of_steps steps⟩
  | process bytes =>
    obtain ⟨c, processed, e⟩ := exec_process hs h bytes
    exact ⟨_, c, e, rfl, processed.fed⟩

theorem runFeeds_spec {fs : List Feed} {s t : State} {b : Block} {bytes : List Byte} (hs : s.block = some b) (h : b.Good)
    (e : runFeeds fs s = some (t, bytes)) : ∃ c, t.block = some c ∧ b.Fed bytes c := by
  induction fs generalizing s b bytes with
  | nil =>
    cases e
    exact ⟨b, hs, h.fed_nil⟩
  | cons f fs ih =>
    obtain ⟨u, m, eu, hu, fed⟩ := exec_feed hs h f
    rw [runFeeds, eu] at e
    obtain ⟨⟨v, later⟩, er, ev⟩ := Option.map_eq_some_iff.1 e
    cases ev
    obtain ⟨c, hc, fed'⟩ := ih hu fed.good er
    exact ⟨c, hc, fed.trans fed'⟩

end Sys2Proof.Machine

namespace Sys2Proof.Proofs

open Sys2Proof.Machine Sys2Proof.Certificates

/-- Settles O34: POLL ends in a block that a step does not change, and a progressing step takes its chunk. -/
theorem pollParksMidField : Obligations.PollParksMidField := by
  intro s b hs h
  obtain ⟨c, e, hc, steps, stuck⟩ := h.poll_spec
  exact ⟨⟨c, exec_poll hs h e, hc.parked stuck, hc, stuck, steps⟩, fun x y hx hp => (hx.progress_facts hp).stream⟩

/-- Settles O38: one block that has all the bytes from the start makes the steps of both feedings and of their final POLLs,
which therefore end where its own POLL ends. -/
theorem chunkingDoesNotMatter : Obligations.ChunkingDoesNotMatter := by
  intro s b fs gs t u bytes hs h et eu
  obtain ⟨c, ht, fedc⟩ := runFeeds_spec hs h et
  obtain ⟨d, hu, fedd⟩ := runFeeds_spec hs h eu
  obtain ⟨c', ec, hc, stepsc, stuckc⟩ := fedc.good.poll_spec
  obtain ⟨d', ed, hd, stepsd, stuckd⟩ := fedd.good.poll_spec
  have toC := fedc.trans (fedc.good.fed_of_steps stepsc)
  have toD := fedd.trans (fedd.good.fed_of_steps stepsd)
  have parked := hc.parked stuckc
  obtain ⟨a, ha, la⟩ := h.exists_ahead (bytes ++ [] ++ [])
  obtain ⟨x, sx, lx⟩ := toC.sameSteps [] a ha la
  obtain ⟨y, sy, ly⟩ := toD.sameSteps [] a ha la
  obtain ⟨e, ⟨kc, bsc⟩, kd, bsd⟩ := ha.parked_alike sx lx hc parked sy ly hd (hd.parked stuckd)
  exact ⟨_, _, c', d', exec_poll ht fedc.good ec, exec_poll hu fedd.good ed, rfl, rfl,
    kc.sameButQueueBytes kd bsc bsd (toC.cfgQ.trans toD.cfgQ.symm), parked.size, parked.readIndex⟩

/-- Settles O39: one block that has all the bytes from the start makes the steps of both ways; taking the output on the way
only moves it out of the block. -/
theorem outputTakenInPiecesIsTheSame : Obligations.OutputTakenInPiecesIsTheSame := by
  intro s b xs ys hs h
  obtain ⟨m, toM, e1⟩ := exec_process hs h xs
  obtain ⟨c, toC, e3⟩ := exec_process
    (s := { s with block := some { m with out := [] }, reply := some (.ok (.bytes m.out)) }) rfl toM.good.takeOutput ys
  obtain ⟨d, toD, e4⟩ := exec_process hs h (xs ++ ys)
  obtain ⟨a, ha, la⟩ := h.exists_ahead (xs ++ ys ++ [])
  obtain ⟨x, sx, lx⟩ := toM.sameSteps True [] (ys ++ []) a ha (by rwa [← List.append_assoc])
  obtain ⟨y, sy, ly⟩ := toC.sameSteps True m.out [] x (ha.of_steps sx) lx.takeOutput
  obtain ⟨z, sz, lz⟩ := toD.sameSteps True [] [] a ha la
  obtain ⟨e, ⟨kc, bsc⟩, kd, bsd⟩ := ha.parked_alike (sx.trans sy) ly toC.good toC.parked sz lz toD.good toD.parked
  exact ⟨_, _, _, _, c, d, m.out, e1, exec_getOutput rfl toM.good, rfl, e3, e4, rfl, rfl, kc.out.symm.trans kd.out,
    kc.state.symm.trans kd.state, bsc.symm.trans bsd, kc.outIndex.symm.trans kd.outIndex,
    kc.outCount.symm.trans kd.outCount, kc.headReg.symm.trans kd.headReg, kc.win.symm.trans kd.win,
    (kc.fault trivial).symm.trans (kd.fault trivial)⟩

end Sys2Proof.Proofs

/-! PROOFS. The statements of 43_host_interface: what each host transaction answers and leaves, that PROCESS is the rounds of
SINK and POLL that leave nothing, and that what it decodes does not depend on the capacity of the queue. -/

namespace Sys2Proof.Machine

open Sys2Proof.Certificates

/-! ### GETBITS_UNIT (R178) -/

/-- `getBits` depends on a queue memory through the unread bytes alone (R111, R116). -/
theorem BitstreamState.getBits_congr {rd rd' : Nat → Option Byte} {mem : Nat → Byte} {q : Nat} {bs : BitstreamState}
    (hok : bs.Ok q) (hs : bs.Sees rd mem) (hs' : bs.Sees rd' mem) (n : Nat) : bs.getBits rd n = bs.getBits rd' n := by
  by_cases hw : n < 1 ∨ 15 < n
  · rw [BitstreamState.getBits_width hw, BitstreamState.getBits_width hw]
  · have havail := BitstreamState.avail_eq (mem := mem) hok
    rw [BitstreamState.getBits, BitstreamState.getBits, if_neg hw, if_neg hw]
    by_cases hn : bs.avail < n
    · rw [if_pos hn, if_pos hn]
    · have hlen : n ≤ (bs.streamOf mem).length := by omega
      obtain ⟨c, e, -⟩ := getBitsLoop_spec n 0 bs hok hs hlen
      obtain ⟨c', e', -⟩ := getBitsLoop_spec n 0 bs hok hs' hlen
      have hc : c = c' := (getBitsLoop_cursor hok hs hlen e).trans (getBitsLoop_cursor hok hs' hlen e').symm
      rw [if_neg hn, if_neg hn, e, e', hc]

/-! ### NEW (R170) -/

/-- NEW with a failed check (R170, R209). -/
theorem exec_new_of_cause {w l q : Int} {c : Cause} (h : newCause w l q = some c) (s : State) :
    exec (.new w l q) s = .next { s with reply := some c.outcome } := by
  simp only [exec, execNew, h]

theorem newCause_of_le {w l q : Int} (h : l ≥ w) : newCause w l q = some .cfgLookaheadNotSmaller := by
  rw [newCause, if_pos h]

theorem newCause_of_not_positive {w l q : Int} (hlw : l < w) (h : l ≤ 0 ∨ w ≤ 0 ∨ q ≤ 0) :
    newCause w l q = some .cfgNotPositive := by
  rw [newCause, if_neg (by omega), if_pos h]

theorem newCause_of_window_range {w l q : Int} (hlw : l < w) (hl : 0 < l) (hw : 0 < w) (hq : 0 < q)
    (h : w < 4 ∨ w > 15) : newCause w l q = some .cfgWindowRange := by
  rw [newCause, if_neg (by omega), if_neg (by omega), if_pos h]

/-! ### SINK (R171) -/

theorem Block.accepts_eq_take (b : Block) (bytes : List Byte) :
    b.accepts bytes = bytes.take (min (b.cfgQ - b.bs.size) bytes.length) := by
  rw [Block.accepts, List.take_eq_take_iff]
  omega

/-- What the queue memory holds after `k` bytes of an argument were counted in. -/
theorem Block.read_enqueue_take {b : Block} (h : b.inq.wf) {bytes : List Byte} {k : Nat} (hk : k ≤ bytes.length)
    (a : Nat) : (b.enqueue (bytes.take k)).inq.read a =
      if b.bs.size ≤ a ∧ a < b.bs.size + k then bytes.getD (a - b.bs.size) 0 else b.inq.read a := by
  have hread : (b.enqueue (bytes.take k)).inq.read a = _ := Memory.read_writeBytes h b.bs.size a (bytes.take k)
  rw [hread, List.length_take_of_le hk]
  refine ite_congr rfl (fun hin => ?_) fun _ => rfl
  rw [List.getD_eq_getElem?_getD, List.getD_eq_getElem?_getD, List.getElem?_take_of_lt (by omega)]

/-! ### POLL, IS_FINISHED and GET_OUTPUT (R172, R174, R175) -/

/-- A parked block is where its own POLL ends (R172). -/
theorem Block.Good.poll_of_parked {b : Block} (h : b.Good) (parked : b.Parked) : b.poll = .ok b :=
  h.poll_of_steps .refl (h.stuck_of_parked parked)

theorem exec_isFinished {s : State} {b : Block} (hs : s.block = some b) (hl : b.fault.valid = false) :
    exec .isFinished s = .next { s with reply := some (.ok (.finished b.finished)) } := by
  simp only [exec, execIsFinished, State.withLiveBlock_live hs hl, State.answer_eq, ← hs]

/-- The queue is compacted when its last byte is loaded, so an empty queue and no unread byte are the same (R40 I2). -/
theorem Block.Inv.unreadCount_eq_zero_iff {b : Block} (h : b.Inv) : b.bs.unreadCount = 0 ↔ b.bs.size = 0 := by
  have hle := h.readIndex_le
  have hdrained := h.drained
  rw [BitstreamState.unreadCount]
  omega

theorem Block.Inv.unread_eq_nil_iff {b : Block} (h : b.Inv) : b.unread = [] ↔ b.bs.unreadCount = 0 := by
  have hle := h.readIndex_le
  rw [Block.unread, List.map_eq_nil_iff, List.range_eq_nil, BitstreamState.unreadCount]
  omega

/-- GET_OUTPUT on a block that is not faulted (R175). -/
theorem exec_getOutput_of_live {s : State} {b : Block} (hs : s.block = some b) (hl : b.fault.valid = false) :
    exec .getOutput s = .next { s with block := some { b with out := [] }, reply := some (.ok (.bytes b.out)) } := by
  simp only [exec, execGetOutput, State.withLiveBlock_live hs hl, State.answer_eq]

/-! ### Rounds of SINK and POLL (R173, R179) -/

/-- The state a POLL or a PROCESS that ends ok leaves. -/
def State.endedWith (s : State) (c : Block) : State := { s with block := some c, reply := some (.ok .nothing) }

@[simp] theorem State.endedWith_block (s : State) (c : Block) : (s.endedWith c).block = some c := rfl

@[simp] theorem State.endedWith_endedWith (s : State) (c d : Block) : (s.endedWith c).endedWith d = s.endedWith d := rfl

/-- What SINK leaves of its argument (R171). -/
def Block.rejects (b : Block) (bytes : List Byte) : List Byte := bytes.drop (b.accepts bytes).length

theorem Block.rejects_length (b : Block) (bytes : List Byte) :
    (b.rejects bytes).length = bytes.length - (b.cfgQ - b.bs.size) := by
  rw [Block.rejects, List.length_drop, Block.accepts_length]
  omega

/-- SINK answers how many bytes it leaves (R171). -/
theorem Block.sink_count (b : Block) (bytes : List Byte) : (b.sink bytes).2 = (b.rejects bytes).length := by
  rw [b.sink_eq, Block.rejects, List.length_drop]

/-- What is left of the argument, as the loops of PROCESS and of the host name it. -/
theorem Block.drop_sink_count (b : Block) (bytes : List Byte) :
    bytes.drop (bytes.length - (b.sink bytes).2) = b.rejects bytes := by
  have hlen := b.accepts_length bytes
  rw [b.sink_eq, Block.rejects, Nat.sub_sub_self (by omega)]

/-- One round of the host on a good block, and the rounds after it. -/
theorem sinkRounds_succ {s : State} {b c : Block} {rest : List Byte} (hs : s.block = some b) (h : b.Good)
    (e : (b.sink rest).1.poll = .ok c) (k : Nat) :
    sinkRounds (k + 1) rest s = sinkRounds k (b.rejects rest) (s.endedWith c) := by
  obtain ⟨m, em, hm, -, -, rfl⟩ := h.sink_spec rest
  rw [em] at e
  rw [sinkRounds, exec_sink hs h rest]
  simp only
  rw [exec_poll rfl hm e]
  simp only [← b.drop_sink_count rest, b.sink_eq rest]
  rfl

/-- One round of PROCESS on a block, and the rounds after it. -/
theorem Block.processLoop_succ {b c : Block} {rest : List Byte} (e : (b.sink rest).1.poll = .ok c) (fuel : Nat) :
    b.processLoop (fuel + 1) rest =
      if b.rejects rest = [] then .drive (.ok c) else c.processLoop fuel (b.rejects rest) := by
  rw [Block.processLoop, e]
  simp only [b.drop_sink_count rest]
  simp only [b.sink_count rest, List.length_eq_zero_iff]

/-- `k` rounds of SINK and POLL leave the block `c` and nothing of `rest`, and the rounds before leave something. -/
structure DrainsIn (s : State) (rest : List Byte) (k : Nat) (c : Block) : Prop where
  pos : 1 ≤ k
  drained : sinkRounds k rest s = some ([], s.endedWith c)
  earlier : ∀ j, 1 ≤ j → j < k → ∃ left u, sinkRounds j rest s = some (left, u) ∧ left ≠ []

/-- PROCESS makes the rounds of SINK and POLL until nothing is left (R173). -/
theorem Block.Good.drainsIn_of_processLoop {fuel : Nat} {rest : List Byte} {s : State} {b c : Block} (h : b.Good)
    (hs : s.block = some b) (e : b.processLoop fuel rest = .drive (.ok c)) : ∃ k, DrainsIn s rest k c := by
  induction fuel generalizing rest s b with
  | zero => cases e
  | succ fuel ih =>
    obtain ⟨d, ed, -, hd⟩ := h.round_spec rest
    have round := sinkRounds_succ hs h ed
    rw [Block.processLoop_succ ed] at e
    by_cases hr : b.rejects rest = []
    · rw [if_pos hr] at e
      cases e
      exact ⟨1, le_rfl, by rw [round, hr]; rfl, fun j h1 hlt => by omega⟩
    · rw [if_neg hr] at e
      obtain ⟨k, later⟩ := ih hd.good (s := s.endedWith d) rfl e
      refine ⟨k + 1, Nat.le_add_left 1 k, by rw [round, later.drained, State.endedWith_endedWith], fun j h1 hlt => ?_⟩
      obtain ⟨j, rfl⟩ := Nat.exists_eq_add_of_le' h1
      rw [round]
      match j with
      | 0 => exact ⟨_, _, rfl, hr⟩
      | j + 1 => exact later.earlier (j + 1) (Nat.le_add_left 1 j) (by omega)

/-- After `k` rounds nothing is left, so no number of rounds that leaves nothing is smaller. -/
theorem DrainsIn.le_of_drained {s u : State} {rest : List Byte} {k m : Nat} {c : Block} (h : DrainsIn s rest k c)
    (hm : 1 ≤ m) (e : sinkRounds m rest s = some ([], u)) : k ≤ m := by
  by_contra hlt
  obtain ⟨left, v, e', hne⟩ := h.earlier m hm (by omega)
  rw [e] at e'
  cases e'
  exact hne rfl

/-- From a parked block each round accepts `Q` bytes (R179). -/
theorem Block.Good.sinkRounds_of_parked {m : Nat} {rest : List Byte} {s : State} {b : Block} (h : b.Good)
    (parked : b.Parked) (hs : s.block = some b) (hm : rest.length ≤ m * b.cfgQ) :
    ∃ u, sinkRounds m rest s = some ([], u) := by
  induction m generalizing rest s b with
  | zero =>
    obtain rfl : rest = [] := List.length_eq_zero_iff.1 (by omega)
    exact ⟨s, rfl⟩
  | succ m ih =>
    obtain ⟨c, ec, -, hc⟩ := h.round_spec rest
    rw [sinkRounds_succ hs h ec]
    refine ih hc.good hc.parked rfl ?_
    rw [b.rejects_length, parked.size, hc.cfgQ]
    rw [Nat.succ_mul] at hm
    omega

/-- `⌈n / Q⌉` rounds of `Q` bytes are enough for `n` bytes. -/
theorem le_ceilDiv_mul (n : Nat) {q : Nat} (hq : 1 ≤ q) : n ≤ (n + q - 1) / q * q := by
  rw [← Nat.ceilDiv_eq_add_pred_div, Nat.mul_comm]
  exact le_smul_ceilDiv (a := q) (b := n) hq

/-- The first round leaves the block parked, and `⌈n / Q⌉` rounds do the rest (R173). -/
theorem Block.Good.sinkRounds_ceilDiv_succ {s : State} {b : Block} (h : b.Good) (hs : s.block = some b)
    (bytes : List Byte) : ∃ u, sinkRounds ((bytes.length + b.cfgQ - 1) / b.cfgQ + 1) bytes s = some ([], u) := by
  obtain ⟨-, -, -, -, hQ⟩ := h.inv.config
  obtain ⟨c, ec, -, hc⟩ := h.round_spec bytes
  rw [sinkRounds_succ hs h ec]
  refine hc.good.sinkRounds_of_parked hc.parked rfl ?_
  have henough := le_ceilDiv_mul bytes.length hQ
  rw [b.rejects_length, hc.cfgQ]
  omega

/-! ### PROCESS (R173) -/

theorem exec_process_of_ok {s : State} {b c : Block} {bytes : List Byte} (hs : s.block = some b) (h : b.Good)
    (e : b.process bytes = .drive (.ok c)) : exec (.process bytes) s = .next (s.endedWith c) := by
  simp only [exec, execProcess, State.withLiveBlock_live hs h.live, e]
  rfl

/-- The capacity is no part of what two blocks at the same point of a stream share. -/
theorem Block.SameCore.withCapacity {strict : Prop} {pre : List Byte} {a b : Block} (h : a.SameCore strict pre b)
    (q : Nat) : a.SameCore strict pre { b with cfgQ := q } :=
  ⟨h.cfgW, h.cfgL, h.state, h.outIndex, h.outCount, h.headReg, h.win, h.out, h.fault, h.cap⟩

theorem Block.Lags.withCapacity {strict : Prop} {pre ys : List Byte} {a b : Block} (h : a.Lags strict pre ys b)
    (q : Nat) : a.Lags strict pre ys { b with cfgQ := q } :=
  ⟨h.core.withCapacity q, h.stream, h.last⟩

/-- What a call that a faulted block refuses can answer with (R177, R207, R231). -/
theorem State.withLiveBlock_next_cases {s t : State} {f : Block → StepOutcome} (e : s.withLiveBlock f = .next t) :
    ∃ b, s.block = some b ∧ ((b.fault.valid = true ∧ t = { s with reply := some .refusedFaulted }) ∨
      (b.fault.valid = false ∧ f b = .next t)) := by
  cases hs : s.block with
  | none =>
    rw [State.withLiveBlock, State.withBlock_none hs] at e
    cases e
  | some b =>
    refine ⟨b, rfl, ?_⟩
    cases hl : b.fault.valid with
    | true =>
      rw [State.withLiveBlock_faulted hs hl] at e
      cases e
      exact .inl ⟨rfl, by rw [hs]⟩
    | false =>
      rw [State.withLiveBlock_live hs hl] at e
      exact .inr ⟨rfl, e⟩

/-- POLL tells of an error only when a step of a live block raised it (R172, R207). -/
theorem exec_poll_error {s u : State} {kind : ErrorKind} {cause : Byte} (e : exec .poll s = .next u)
    (hu : u.reply = some (.error kind cause)) :
    ∃ b c r, s.block = some b ∧ b.fault.valid = false ∧ b.poll = .raised c r ∧
      u = { s with block := some c, reply := some r.outcome } := by
  obtain ⟨b, hs, ⟨-, rfl⟩ | ⟨hl, eb⟩⟩ := State.withLiveBlock_next_cases e
  · cases hu
  · cases ep : b.poll with
    | ok c =>
      rw [ep] at eb
      cases eb
      cases hu
    | raised c r =>
      rw [ep] at eb
      cases eb
      exact ⟨b, c, r, hs, hl, ep, rfl⟩
    | noAddress a =>
      rw [ep] at eb
      cases eb

/-- When SINK leaves a live block, it met one (R171, R207). -/
theorem exec_sink_live {s t : State} {m : Block} {bytes : List Byte} (e : exec (.sink bytes) s = .next t)
    (ht : t.block = some m) (hm : m.fault.valid = false) :
    ∃ b, s.block = some b ∧ b.fault.valid = false ∧ m = (b.sink bytes).1 ∧
      t = { s with block := some m, reply := some (.ok (.notAccepted (b.sink bytes).2)) } := by
  obtain ⟨b, hs, ⟨hf, rfl⟩ | ⟨hl, eb⟩⟩ := State.withLiveBlock_next_cases e
  · obtain rfl : b = m := Option.some.inj (hs.symm.trans ht)
    rw [hm] at hf
    cases hf
  · cases eb
    cases ht
    exact ⟨b, hs, hl, rfl, rfl⟩

/-- An error of the first POLL inside PROCESS ends it (D25). -/
theorem exec_process_of_raised {s : State} {b c : Block} {bytes : List Byte} {r : Cause} (hs : s.block = some b)
    (hl : b.fault.valid = false) (e : (b.sink bytes).1.poll = .raised c r) :
    exec (.process bytes) s = s.answer c r.outcome := by
  simp only [exec, execProcess, State.withLiveBlock_live hs hl, Block.process, Block.processLoop, e]
  rfl

end Sys2Proof.Machine

namespace Sys2Proof.Proofs

open Sys2Proof.Machine Sys2Proof.Certificates

/-- Settles O12: the byte sequence and the queue memory hold the same unread bytes. -/
theorem unitGetBitsAgreesWithTheBlock : Obligations.UnitGetBitsAgreesWithTheBlock :=
  fun _ _ n h hqueue => BitstreamState.getBits_congr h.bsOk hqueue (Block.sees h.size_le) n

/-- Settles O30: NEW's answer follows from the first check that fails, and without one the operands fit the registers. -/
theorem newChecksThenBuilds : Obligations.NewChecksThenBuilds := by
  intro s w l q
  refine ⟨fun hle => ?_, fun hlw hpos => ?_, fun hlw hl hw hq hrange => ?_, fun hlw hl hq hw4 hw15 => ?_⟩
  · exact exec_new_of_cause (newCause_of_le hle) s
  · exact exec_new_of_cause (newCause_of_not_positive hlw hpos) s
  · exact exec_new_of_cause (newCause_of_window_range hlw hl hw hq hrange) s
  · have h := (newCause_eq_none_iff w l q).2 ⟨hw4, hw15, hl, hlw, hq⟩
    obtain ⟨ew, el, eq⟩ := newBlock_config h
    exact ⟨_, _, _, ew, el, eq, exec_new h s⟩

/-- Settles O33: the accepted bytes are the first `k`, and they are counted in behind the unread ones. -/
theorem sinkAppendsWhatFits : Obligations.SinkAppendsWhatFits := by
  intro s b bytes k hs h hk
  obtain ⟨canonical, -⟩ := h.inv.inq
  have haccepts : b.accepts bytes = bytes.take k := by rw [b.accepts_eq_take, hk]
  have hle : k ≤ bytes.length := by omega
  have hlen : (bytes.take k).length = k := List.length_take_of_le hle
  have hqueue : b.enqueue (bytes.take k) =
      { b with inq := (b.enqueue (bytes.take k)).inq, bs := { b.bs with size := b.bs.size + k } } := by
    rw [Block.enqueue, hlen]
  refine ⟨(b.enqueue (bytes.take k)).inq, ?_, Block.read_enqueue_take canonical hle, ?_⟩
  · rw [← hqueue, exec_sink hs h, haccepts, hlen]
  · rw [← hqueue, Block.stream_enqueue canonical h.inv.readIndex_le]

/-- Settles O36: a step of a parked block changes nothing, so POLL ends where it began. -/
theorem pollOfParkedChangesNothing : Obligations.PollOfParkedChangesNothing := by
  intro s b hs h parked
  rw [exec_poll hs h (h.poll_of_parked parked), ← hs]

/-- Settles O37: PROCESS makes the rounds of SINK and POLL that drain its argument, and `⌈n / Q⌉ + 1` rounds drain it. -/
theorem processAcceptsAll : Obligations.ProcessAcceptsAll := by
  intro s b bytes hs h
  obtain ⟨c, e, processed⟩ := h.process_spec bytes
  obtain ⟨o, emitted⟩ := processed.emitted
  obtain ⟨k, drains⟩ := h.drainsIn_of_processLoop hs e
  obtain ⟨u, enough⟩ := h.sinkRounds_ceilDiv_succ hs bytes
  exact ⟨c, o, k, exec_process_of_ok hs h e, drains.pos, drains.le_of_drained (Nat.le_add_left 1 _) enough,
    drains.drained, drains.earlier, processed.parked, processed.good, emitted, processed.cfgW, processed.cfgL,
    processed.cfgQ, processed.fault⟩

/-- Settles O40: one block that has all the bytes from the start makes the steps of both, whatever their capacity. -/
theorem resultDoesNotDependOnQ : Obligations.ResultDoesNotDependOnQ := by
  intro s t b q bytes hs h hsize h1 hrange ht
  have h' := h.withCapacity h1 hsize hrange
  obtain ⟨c, toC, ec⟩ := exec_process hs h bytes
  obtain ⟨d, toD, ed⟩ := exec_process ht h' bytes
  obtain ⟨a, ha, la⟩ := h.exists_ahead (bytes ++ [])
  have la' : a.Lags True [] (bytes ++ []) { b with cfgQ := q } := la.withCapacity q
  obtain ⟨x, sx, lx⟩ := toC.sameSteps True [] [] a ha la
  obtain ⟨y, sy, ly⟩ := toD.sameSteps True [] [] a ha la'
  obtain ⟨e, ⟨kc, bsc⟩, kd, bsd⟩ := ha.parked_alike sx lx toC.good toC.parked sy ly toD.good toD.parked
  exact ⟨_, _, c, d, ec, ed, rfl, rfl, (kc.withCapacity q).sameButQueueBytes kd bsc bsd toD.cfgQ.symm⟩

/-- Settles O41: by R40 I2 a queue with no unread byte is empty. -/
theorem isFinishedCountsUnreadBytes : Obligations.IsFinishedCountsUnreadBytes := by
  intro s b hs h
  refine ⟨?_, ?_⟩
  · rw [exec_isFinished hs h.live, Block.finished]
    simp only [h.inv.unreadCount_eq_zero_iff]
  · rw [Block.finished, decide_eq_true_iff, h.inv.unread_eq_nil_iff]

/-- Settles O43: POLL leaves the queue empty, and every round accepts `Q` bytes. -/
theorem backpressureDrains : Obligations.BackpressureDrains := by
  intro s t b c left hs h e ht
  obtain ⟨_, ec, hc, -, stuck⟩ := h.poll_spec
  rw [exec_poll hs h ec] at e
  cases e
  cases ht
  have parked := hc.parked stuck
  obtain ⟨-, -, -, -, hQ⟩ := hc.inv.config
  refine ⟨⟨_, exec_sink rfl hc left, ?_⟩, hc.sinkRounds_of_parked parked rfl (le_ceilDiv_mul left.length hQ)⟩
  show some (CallOutcome.ok (.notAccepted (left.length - (c.accepts left).length))) = _
  rw [c.accepts_length, parked.size, Nat.sub_zero]

/-- Settles O49: only a live block's POLL tells of an error, and it is then the POLL of the first round of PROCESS. -/
theorem processEndsWithTheErrorOfItsPoll : Obligations.ProcessEndsWithTheErrorOfItsPoll := by
  intro s t u bytes kind cause et eu hu
  obtain ⟨m, c, r, ht, hm, raised, rfl⟩ := exec_poll_error eu hu
  obtain ⟨b, hs, hl, rfl, rfl⟩ := exec_sink_live et ht hm
  exact exec_process_of_raised hs hl raised

/-- Settles O32: RESET builds the block anew. -/
theorem resetRestoresConstruction : Obligations.ResetRestoresConstruction := fun _ _ hs => exec_reset hs

/-- Settles O42: the block with its output taken is live still. -/
theorem getOutputTakesTheOutput : Obligations.GetOutputTakesTheOutput :=
  fun s b hs hl =>
    ⟨exec_getOutput_of_live hs hl, exec_getOutput_of_live (s := { s with block := some { b with out := [] } }) rfl hl⟩

end Sys2Proof.Proofs

/-! PROOFS. The statements of 60_exceptions: what a faulted block refuses, what the internal checks raise, that errors are
precise, and that from a good state only NEW and unit-level `getBits` can fail. -/

namespace Sys2Proof.Machine

/-! ### Calls that a faulted block refuses, and calls with no block -/

/-- A unit does not run on a faulted block (R140, R207). -/
theorem exec_unit_of_faulted {s : State} {b : Block} {i : Instr} (hs : s.block = some b) (hf : b.fault.valid = true)
    (hi : i.isUnit = true) : exec i s = .next { s with reply := some .refusedFaulted } := by
  cases i with
  | lit v => exact State.withLiveBlock_faulted hs hf _
  | bref idx cnt => exact State.withLiveBlock_faulted hs hf _
  | _ => cases hi

/-- Only NEW makes the block that every other instruction needs (R231). -/
theorem exec_of_no_block {s : State} {i : Instr} (hs : s.block = none) (hi : ∀ w l q, i ≠ .new w l q) :
    exec i s = .refused .noBlock := by
  cases i with
  | new w l q => exact absurd rfl (hi w l q)
  | _ => exact State.withBlock_none hs _

/-! ### What raises -/

/-- The width check of `getBits` precedes everything, and it leaves the block as it was (R204). -/
theorem exec_getBits_of_width {s : State} {b : Block} {n : Nat} (hs : s.block = some b) (hn : n < 1 ∨ 15 < n) :
    exec (.getBits n) s = .next { s with reply := some Cause.intGetbitsWidth.outcome } := by
  simp only [exec, execGetBits, State.withBlock_some hs, Block.getBits, BitstreamState.getBits_width hn,
    State.answer_eq, ← hs]

/-- Every check of NEW raises a ConfigurationError (R170, R200). -/
theorem kind_of_newCause {w l q : Int} {c : Cause} (h : newCause w l q = some c) : c.kind = .configurationError := by
  unfold newCause at h
  split_ifs at h <;> cases h <;> rfl

/-! ### How a step ends -/

/-- The outcome is no fault, and a state it leads to meets `P`. -/
def EndsIn (P : State → Prop) : StepOutcome → Prop
  | .next t => P t
  | .fault _ => False
  | .refused _ => True

theorem EndsIn.ne_fault {P : State → Prop} {o : StepOutcome} (h : EndsIn P o) (f : Fault) : o ≠ .fault f := by
  rintro rfl
  exact h

theorem EndsIn.of_next {P : State → Prop} {o : StepOutcome} {t : State} (h : EndsIn P o) (e : o = .next t) : P t := by
  rw [e] at h
  exact h

theorem EndsIn.mono {P Q : State → Prop} {o : StepOutcome} (h : EndsIn P o) (hPQ : ∀ t, P t → Q t) : EndsIn Q o := by
  cases o with
  | next t => exact hPQ t h
  | fault f => exact h
  | refused r => trivial

/-- An error that the host is told after calling `i` is one of the two that R206 leaves. -/
def TellsOnlyPossibleErrors (i : Instr) (t : State) : Prop :=
  ∀ kind cause, t.reply = some (.error kind cause) →
    (kind = .configurationError ∧ ∃ w l q, i = .new w l q) ∨
      (kind = .internalError ∧ cause = 0x20 ∧ ∃ n, i = .getBits n)

/-- A call that ends ok tells of no error. -/
theorem endsIn_of_ok {i : Instr} {o : StepOutcome} {t : State} {r : CallResult} (e : o = .next t)
    (ht : t.reply = some (.ok r)) : EndsIn (TellsOnlyPossibleErrors i) o := by
  rw [e]
  intro kind cause he
  rw [ht] at he
  cases he

/-- NEW, from whatever state (R170, R206). -/
theorem exec_new_endsIn (w l q : Int) (s : State) :
    EndsIn (TellsOnlyPossibleErrors (.new w l q)) (exec (.new w l q) s) := by
  cases h : newCause w l q with
  | none => exact endsIn_of_ok (exec_new h s) rfl
  | some c =>
    rw [exec_new_of_cause h]
    rintro kind cause ⟨⟩
    exact .inl ⟨kind_of_newCause h, w, l, q, rfl⟩

/-- GETBITS on a good block: the width error or an answer (R110, R204). -/
theorem Block.Good.exec_getBits_endsIn {s : State} {b : Block} (h : b.Good) (hs : s.block = some b) (n : Nat) :
    EndsIn (TellsOnlyPossibleErrors (.getBits n)) (exec (.getBits n) s) := by
  by_cases hn : n < 1 ∨ 15 < n
  · rw [exec_getBits_of_width hs hn]
    rintro kind cause ⟨⟩
    exact .inr ⟨rfl, rfl, n, rfl⟩
  · rcases Block.getBits_spec h.inv.bsOk (n := n) (by omega) (by omega) with ⟨-, e⟩ | ⟨-, bs, e, -⟩
    · exact endsIn_of_ok (exec_getBits_of_nobits hs e) rfl
    · exact endsIn_of_ok (exec_getBits_of_value hs e) rfl

/-- A call on a good block: every one but NEW and GETBITS ends ok (R206). -/
theorem Block.Good.exec_call_endsIn {s : State} {b : Block} (h : b.Good) (hs : s.block = some b) {i : Instr}
    (hi : i.isUnit = false) : EndsIn (TellsOnlyPossibleErrors i) (exec i s) := by
  cases i with
  | lit v => cases hi
  | bref idx cnt => cases hi
  | new w l q => exact exec_new_endsIn w l q s
  | sink bytes => exact endsIn_of_ok (exec_sink hs h bytes) rfl
  | poll =>
    obtain ⟨c, e, -⟩ := h.poll_spec
    exact endsIn_of_ok (exec_poll hs h e) rfl
  | process bytes =>
    obtain ⟨c, -, e⟩ := exec_process hs h bytes
    exact endsIn_of_ok e rfl
  | isFinished => exact endsIn_of_ok (exec_isFinished hs h.live) rfl
  | getOutput => exact endsIn_of_ok (exec_getOutput hs h) rfl
  | reset => exact endsIn_of_ok (exec_reset hs) rfl
  | getBits n => exact h.exec_getBits_endsIn hs n
  | winStore v => exact endsIn_of_ok (exec_winStore hs v) rfl
  | winRead d => exact endsIn_of_ok (exec_winRead hs d) rfl

/-- A call from a good state neither faults nor tells of an error that R206 excludes. -/
theorem State.Good.exec_call_endsIn {s : State} (h : s.Good) {i : Instr} (hi : i.isUnit = false) :
    EndsIn (TellsOnlyPossibleErrors i) (exec i s) := by
  cases hs : s.block with
  | some b => exact (h b hs).exec_call_endsIn hs hi
  | none =>
    by_cases hnew : ∃ w l q, i = .new w l q
    · obtain ⟨w, l, q, rfl⟩ := hnew
      exact exec_new_endsIn w l q s
    · rw [exec_of_no_block hs fun w l q e => hnew ⟨w, l, q, e⟩]
      trivial

/-- Driving a unit of a good state raises nothing, so the host's last outcome stays: the fetched unit is well formed, and
the state machine's own steps raise nothing (R149, R206, log 5). -/
theorem State.Good.driveUnit_endsIn {s : State} (h : s.Good) : EndsIn (fun t => t.reply = s.reply) s.driveUnit := by
  unfold State.driveUnit
  cases e : s.block.bind Block.fetch with
  | some i =>
    obtain ⟨b, hs, hf⟩ := Option.bind_eq_some_iff.1 e
    obtain ⟨ht, rest, hd⟩ := Block.fetch_eq_some hf
    obtain ⟨hi, hw⟩ := decode_ok_wf hd
    obtain ⟨c, er, -⟩ := (h b hs).runChunks_unit ht hi hw
    show EndsIn _ (exec i s)
    rw [exec_unit_of_runChunks hs (h b hs) ht hi er]
    rfl
  | none =>
    show EndsIn _ (s.withLiveBlock fun b => s.concludeUnit (b.finishUnit 6))
    cases hs : s.block with
    | none =>
      rw [State.withLiveBlock, State.withBlock_none hs]
      trivial
    | some b =>
      obtain ⟨c, ef, -⟩ := (h b hs).finishUnit_spec (n := 6)
      rw [State.withLiveBlock_live hs (h b hs).live, ef]
      rfl

/-- How a step from a good state ends, by the host's next action (R206). -/
def State.StepPost (s t : State) : Prop :=
  (∀ i, s.script.head? = some (.call i) → TellsOnlyPossibleErrors i t) ∧
    (s.script.head? = some .drive → t.reply = s.reply)

/-- By the host's next action: none, a call (a called unit is refused, log 11), or a unit to drive. -/
theorem State.Good.step_endsIn {s : State} (h : s.Good) : EndsIn s.StepPost (step s) := by
  unfold step
  cases hs : s.script with
  | nil => exact ⟨fun i e => by simp [hs] at e, fun e => by simp [hs] at e⟩
  | cons a rest =>
    cases a with
    | call i =>
      show EndsIn _ (if i.isUnit then _ else _)
      split
      next => trivial
      next hi =>
        refine (State.Good.exec_call_endsIn (s := { s with script := rest }) h (by simpa using hi)).mono fun t ht => ?_
        simp [State.StepPost, hs, ht]
    | drive =>
      refine (State.Good.driveUnit_endsIn (s := { s with script := rest }) h).mono fun t ht => ?_
      simp [State.StepPost, hs, ht]

end Sys2Proof.Machine

namespace Sys2Proof.Proofs

open Sys2Proof.Machine

/-- Settles O50: the step's postcondition, by the host's next action. -/
theorem onlyNewAndUnitGetBitsCanFail : Obligations.OnlyNewAndUnitGetBitsCanFail := by
  intro s h
  have ends := h.step_endsIn
  exact ⟨ends.ne_fault, fun i t kind cause hi e => (ends.of_next e).1 i hi kind cause,
    fun t hd e => (ends.of_next e).2 hd⟩

/-- Settles O47: the first step of POLL is the one that raises, and R40 I4 to I6 exclude its three states. -/
theorem internalStateErrors : Obligations.InternalStateErrors := by
  refine ⟨fun s b cause hs hl h => ?_, fun b h => ⟨?_, ?_, h.inv.state⟩⟩
  · rcases h with ⟨hst, hW, rfl⟩ | ⟨hst, hL, rfl⟩ | ⟨hst, rfl⟩
    · exact exec_poll_of_raised hs hl (e := .intIndexMsbState) (by
        rw [Block.fsmStep, hst]
        exact if_pos hW)
    · exact exec_poll_of_raised hs hl (e := .intCountMsbState) (by
        rw [Block.fsmStep, hst]
        exact if_pos hL)
    · exact exec_poll_of_raised hs hl (e := .intBadState) (by rw [Block.fsmStep, hst])
  · rintro ⟨hst, hW⟩
    exact Nat.not_lt.2 hW (h.inv.indexMsb hst)
  · rintro ⟨hst, hL⟩
    exact Nat.not_lt.2 hL (h.inv.countMsb hst)

/-- Settles O48: an error of POLL is a raise of its drive loop. -/
theorem errorsArePrecise : Obligations.ErrorsArePrecise := by
  intro s t b kind cause hs _ e ht
  obtain ⟨b', c, r, hs', -, raised, rfl⟩ := exec_poll_error e ht
  obtain rfl : b' = b := Option.some.inj (hs'.symm.trans hs)
  obtain ⟨x, steps, ex, rfl⟩ := Block.driveLoop_raised raised
  cases ht
  exact ⟨x, steps, ⟨r, ex, rfl, rfl⟩, rfl⟩

/-- Settles O9: the width is checked before the availability (D23), and at unit level no `FAULT` is set. -/
theorem getBitsWidthIsChecked : Obligations.GetBitsWidthIsChecked := fun _ _ _ hs hn => exec_getBits_of_width hs hn

/-- Settles O45: five calls and the units ask for a live block; RESET builds the block anew, and NEW asks for none. -/
theorem faultedRefusesTransactionsButResetAndNew : Obligations.FaultedRefusesTransactionsButResetAndNew := by
  intro s b hs hf
  refine ⟨fun i hi => ?_, ⟨_, b.reinit, exec_reset hs, rfl, rfl, rfl⟩, fun w l q => ?_⟩
  · rcases hi with hi | ⟨bytes, rfl⟩ | rfl | ⟨bytes, rfl⟩ | rfl | rfl
    · exact exec_unit_of_faulted hs hf hi
    all_goals exact State.withLiveBlock_faulted hs hf _
  · cases h : newCause w l q with
    | none => exact ⟨_, exec_new h s, by simp⟩
    | some c => exact ⟨_, exec_new_of_cause h s, by simp [Cause.outcome]⟩

end Sys2Proof.Proofs

/-! PROOFS. The statements of 70_reset_and_hazards: what zero padding decodes as, that before a NEW nothing else has a meaning,
and that no instruction but NEW writes the configuration registers. -/

namespace Sys2Proof

/-! ### Zero bits -/

theorem natOfBits_replicate_false (n : Nat) : natOfBits (List.replicate n false) = 0 := by
  induction n with
  | zero => rfl
  | succ n ih => simp [List.replicate_succ, natOfBits, ih]

/-- A field of zero bits has the value 0 and leaves zero bits. -/
theorem takeField_replicate_false {n p v : Nat} {rest : List Bool} :
    takeField n (List.replicate p false) = some (v, rest) ↔ n ≤ p ∧ v = 0 ∧ rest = List.replicate (p - n) false := by
  rw [takeField_eq_some, List.length_replicate, List.take_replicate, List.drop_replicate, natOfBits_replicate_false]

/-- Zero bits decode as the backreference whose two fields are 0, once all its bits are there (R82, R244). -/
theorem decode_replicate_false {W L p : Nat} {i : Instr} {rest : List Bool} :
    decode W L (List.replicate p false) = .ok (i, rest) ↔
      1 + W + L ≤ p ∧ i = brefOf 1 1 ∧ rest = List.replicate (p - (1 + W + L)) false := by
  cases p with
  | zero => simp [decode]
  | succ p =>
    rw [List.replicate_succ]
    constructor
    · intro h
      rcases decode_ok_cases h with ⟨_, _, tag, -⟩ | ⟨tail, x, mid, c, e, hx, hc, rfl⟩
      · cases tag
      · cases e
        obtain ⟨hW, rfl, rfl⟩ := takeField_replicate_false.1 hx
        obtain ⟨hL, rfl, rfl⟩ := takeField_replicate_false.1 hc
        exact ⟨by omega, rfl, by congr 1; omega⟩
    · rintro ⟨hp, rfl, rfl⟩
      exact decode_false_of_takeField (takeField_replicate_false.2 ⟨by omega, rfl, rfl⟩)
        (takeField_replicate_false.2 ⟨by omega, rfl, by congr 1; omega⟩)

end Sys2Proof

namespace Sys2Proof.Machine

/-! ### Blocks with the same configuration -/

/-- The configuration registers agree (R21). -/
structure Block.SameConfig (a b : Block) : Prop where
  cfgW : b.cfgW = a.cfgW
  cfgL : b.cfgL = a.cfgL
  cfgQ : b.cfgQ = a.cfgQ

theorem Block.SameConfig.refl (a : Block) : a.SameConfig a := ⟨rfl, rfl, rfl⟩

theorem Block.SameConfig.trans {a b c : Block} (h : a.SameConfig b) (k : b.SameConfig c) : a.SameConfig c :=
  ⟨k.cfgW.trans h.cfgW, k.cfgL.trans h.cfgL, k.cfgQ.trans h.cfgQ⟩

theorem Block.sameConfig_raise (b : Block) (c : Cause) : b.SameConfig (b.raise c) := ⟨rfl, rfl, rfl⟩

theorem Block.sameConfig_setCursor (b : Block) (bs : BitstreamState) : b.SameConfig (b.setCursor bs) := ⟨rfl, rfl, rfl⟩

theorem Block.sameConfig_store (b : Block) (v : Byte) : b.SameConfig (b.store v) := ⟨rfl, rfl, rfl⟩

theorem Block.sameConfig_takeOutput (b : Block) : b.SameConfig { b with out := [] } := ⟨rfl, rfl, rfl⟩

/-- RESET restores everything but the configuration (R176). -/
theorem Block.sameConfig_reinit (b : Block) : b.SameConfig b.reinit := ⟨rfl, rfl, rfl⟩

theorem Block.sameConfig_sink (b : Block) (bytes : List Byte) : b.SameConfig (b.sink bytes).1 := ⟨rfl, rfl, rfl⟩

/-- Consuming a chunk: the cursor moves and the state acts on the value (R112, R141 to R146). -/
theorem Block.sameConfig_consume (b : Block) (bs : BitstreamState) (v : Nat) :
    b.SameConfig ((b.setCursor bs).afterChunk v) := by
  obtain ⟨hW, hL, hQ, -⟩ := (b.setCursor bs).afterChunk_frame v
  exact ⟨hW, hL, hQ⟩

theorem Block.sameConfig_of_stepYieldBackref {b c : Block} (e : b.stepYieldBackref = .ran c) : b.SameConfig c := by
  unfold Block.stepYieldBackref at e
  split_ifs at e
  cases e
  have frame := b.copyRun_frame b.outCount.toNat
  exact ⟨frame.cfgW, frame.cfgL, frame.cfgQ⟩

/-- A step that runs, from whatever block, keeps the configuration. -/
theorem Block.sameConfig_of_fsmStep {b c : Block} (e : b.fsmStep = .ran c) : b.SameConfig c := by
  rcases Block.fsmStep_ran_inv e with ⟨hy, -⟩ | ⟨-, -, rfl⟩ | ⟨-, -, v, bs, -, rfl⟩
  · rw [Block.fsmStep, hy] at e
    exact Block.sameConfig_of_stepYieldBackref e
  · exact .refl c
  · exact b.sameConfig_consume bs v

/-! ### Runs of steps that keep the configuration -/

/-- The block a run of steps leaves, raised or not, has the configuration of `b`. -/
def DriveResult.KeepsConfig (b : Block) : DriveResult → Prop
  | .ok c => b.SameConfig c
  | .raised c _ => b.SameConfig c
  | .noAddress _ => True

/-- What follows a part that kept the configuration. -/
theorem DriveResult.KeepsConfig.of_sameConfig {b c : Block} {d : DriveResult} (h : d.KeepsConfig c)
    (hc : b.SameConfig c) : d.KeepsConfig b := by
  cases d with
  | ok x => exact hc.trans h
  | raised x e => exact hc.trans h
  | noAddress a => trivial

theorem Block.driveLoop_keepsConfig (fuel : Nat) (b : Block) : (b.driveLoop fuel).KeepsConfig b := by
  induction fuel generalizing b with
  | zero => exact .refl b
  | succ fuel ih =>
    rw [Block.driveLoop]
    cases e : b.fsmStep with
    | ran c =>
      have same := Block.sameConfig_of_fsmStep e
      show DriveResult.KeepsConfig b (if progress b c then c.driveLoop fuel else .ok c)
      split
      · exact (ih c).of_sameConfig same
      · exact same
    | raised c => exact b.sameConfig_raise c
    | noAddress a => trivial

theorem Block.poll_keepsConfig (b : Block) : b.poll.KeepsConfig b := b.driveLoop_keepsConfig _

theorem Block.endUnit_keepsConfig (b : Block) : b.endUnit.KeepsConfig b := by
  unfold Block.endUnit
  split
  · cases e : b.stepYieldBackref with
    | ran c => exact Block.sameConfig_of_stepYieldBackref e
    | raised c => exact b.sameConfig_raise c
    | noAddress a => trivial
  · exact .refl b

theorem Block.runChunks_keepsConfig (cs : List Chunk) (b : Block) : (Block.runChunks cs b).KeepsConfig b := by
  induction cs generalizing b with
  | nil => exact b.endUnit_keepsConfig
  | cons c cs ih =>
    rw [Block.runChunks]
    cases b.getBits c.width with
    | value v bs => exact (ih _).of_sameConfig (b.sameConfig_consume bs c.value)
    | nobits => exact .refl b
    | widthError => exact b.sameConfig_raise .intGetbitsWidth
    | noAddress a => trivial

/-- PROCESS is rounds of SINK and POLL, which keep the configuration each. -/
theorem Block.processLoop_keepsConfig {fuel : Nat} {rest : List Byte} {b : Block} {d : DriveResult}
    (e : b.processLoop fuel rest = .drive d) : d.KeepsConfig b := by
  induction fuel generalizing rest b with
  | zero => cases e
  | succ fuel ih =>
    rw [Block.processLoop] at e
    have polled := (b.sink rest).1.poll_keepsConfig.of_sameConfig (b.sameConfig_sink rest)
    cases h : (b.sink rest).1.poll with
    | ok c =>
      rw [h] at e polled
      simp only at e
      split at e
      · cases e
        exact polled
      · exact (ih e).of_sameConfig polled
    | raised c r =>
      rw [h] at e polled
      cases e
      exact polled
    | noAddress a =>
      rw [h] at e
      cases e
      trivial

/-! ### Outcomes that keep the configuration -/

/-- Whatever state the outcome leads to has a block with the configuration of `b`. -/
def LeadsToSameConfig (b : Block) (o : StepOutcome) : Prop := ∀ t, o = .next t → ∃ c, t.block = some c ∧ b.SameConfig c

theorem leadsToSameConfig_next {b c : Block} {t : State} (ht : t.block = some c) (h : b.SameConfig c) :
    LeadsToSameConfig b (.next t) := by
  rintro _ ⟨⟩
  exact ⟨c, ht, h⟩

theorem leadsToSameConfig_fault (b : Block) (f : Fault) : LeadsToSameConfig b (.fault f) := by rintro _ ⟨⟩

theorem leadsToSameConfig_refused (b : Block) (r : Refusal) : LeadsToSameConfig b (.refused r) := by rintro _ ⟨⟩

theorem leadsToSameConfig_answer (s : State) {b c : Block} (h : b.SameConfig c) (r : CallOutcome) :
    LeadsToSameConfig b (s.answer c r) := leadsToSameConfig_next rfl h

theorem DriveResult.KeepsConfig.conclude {b : Block} {d : DriveResult} (h : d.KeepsConfig b) (s : State)
    (r : CallResult) : LeadsToSameConfig b (s.conclude d r) := by
  cases d with
  | ok c => exact leadsToSameConfig_answer s h _
  | raised c e => exact leadsToSameConfig_answer s h _
  | noAddress a => exact leadsToSameConfig_fault b _

theorem DriveResult.KeepsConfig.concludeUnit {b : Block} {d : DriveResult} (h : d.KeepsConfig b) (s : State) :
    LeadsToSameConfig b (s.concludeUnit d) := by
  cases d with
  | ok c => exact leadsToSameConfig_next rfl h
  | raised c e => exact leadsToSameConfig_answer s h _
  | noAddress a => exact leadsToSameConfig_fault b _

/-- A call on the block keeps the configuration when what it does to the block keeps it. -/
theorem leadsToSameConfig_withBlock {s : State} {b : Block} (hs : s.block = some b) {f : Block → StepOutcome}
    (hf : LeadsToSameConfig b (f b)) : LeadsToSameConfig b (s.withBlock f) := by
  rwa [State.withBlock_some hs]

/-- A call that the faulted state refuses changes no block then (R207). -/
theorem leadsToSameConfig_withLiveBlock {s : State} {b : Block} (hs : s.block = some b) {f : Block → StepOutcome}
    (hf : LeadsToSameConfig b (f b)) : LeadsToSameConfig b (s.withLiveBlock f) := by
  cases hl : b.fault.valid with
  | true =>
    rw [State.withLiveBlock_faulted hs hl]
    exact leadsToSameConfig_next hs (.refl b)
  | false => rwa [State.withLiveBlock_live hs hl]

/-! ### Each instruction but NEW keeps the configuration -/

/-- A unit, which may also be refused inside another unit (log 11). -/
theorem leadsToSameConfig_runUnit {s : State} {b : Block} (hs : s.block = some b) (chunks : Block → List Chunk) :
    LeadsToSameConfig b (s.runUnit chunks) := by
  refine leadsToSameConfig_withLiveBlock hs ?_
  split
  · exact (Block.runChunks_keepsConfig (chunks b) b).concludeUnit s
  · exact leadsToSameConfig_refused b _

theorem leadsToSameConfig_execProcess {s : State} {b : Block} (hs : s.block = some b) (bytes : List Byte) :
    LeadsToSameConfig b (execProcess bytes s) := by
  refine leadsToSameConfig_withLiveBlock hs ?_
  cases e : b.process bytes with
  | drive d => exact (Block.processLoop_keepsConfig e).conclude s _
  | neverEnds => exact leadsToSameConfig_fault b _

theorem leadsToSameConfig_execGetBits {s : State} {b : Block} (hs : s.block = some b) (count : Nat) :
    LeadsToSameConfig b (execGetBits count s) := by
  refine leadsToSameConfig_withBlock hs ?_
  cases b.getBits count with
  | value v bs => exact leadsToSameConfig_answer s (b.sameConfig_setCursor bs) _
  | nobits => exact leadsToSameConfig_answer s (.refl b) _
  | widthError => exact leadsToSameConfig_answer s (.refl b) _
  | noAddress a => exact leadsToSameConfig_fault b _

/-- Whatever the block, every instruction but NEW answers with a block of the same configuration, or stops (R249). -/
theorem leadsToSameConfig_exec {s : State} {b : Block} {i : Instr} (hs : s.block = some b) (hi : ∀ w l q, i ≠ .new w l q) :
    LeadsToSameConfig b (exec i s) := by
  cases i with
  | lit v => exact leadsToSameConfig_runUnit hs _
  | bref idx cnt => exact leadsToSameConfig_runUnit hs _
  | new w l q => exact absurd rfl (hi w l q)
  | sink bytes => exact leadsToSameConfig_withLiveBlock hs (leadsToSameConfig_answer s (b.sameConfig_sink bytes) _)
  | poll => exact leadsToSameConfig_withLiveBlock hs (b.poll_keepsConfig.conclude s _)
  | process bytes => exact leadsToSameConfig_execProcess hs bytes
  | isFinished => exact leadsToSameConfig_withLiveBlock hs (leadsToSameConfig_answer s (.refl b) _)
  | getOutput => exact leadsToSameConfig_withLiveBlock hs (leadsToSameConfig_answer s b.sameConfig_takeOutput _)
  | reset => exact leadsToSameConfig_withBlock hs (leadsToSameConfig_answer s b.sameConfig_reinit _)
  | getBits count => exact leadsToSameConfig_execGetBits hs count
  | winStore v => exact leadsToSameConfig_withBlock hs (leadsToSameConfig_answer s (b.sameConfig_store v) _)
  | winRead d => exact leadsToSameConfig_withBlock hs (leadsToSameConfig_answer s (.refl b) _)

end Sys2Proof.Machine

namespace Sys2Proof.Proofs

open Sys2Proof.Machine

/-- Settles O6: zero bits decode exactly when a whole backreference of them is there. -/
theorem zeroPaddingDecodesAsBref : Obligations.ZeroPaddingDecodesAsBref := by
  rintro W L Q p ⟨hW4, -, hL1, -, -⟩
  refine ⟨⟨fun ⟨i, rest, h⟩ => (decode_replicate_false.1 h).1, fun h => ?_⟩,
    fun i rest h => (decode_replicate_false.1 h).2.1, fun hp h => ?_⟩
  · exact ⟨_, _, decode_replicate_false.2 ⟨h, rfl, rfl⟩⟩
  · simp only [Prod.mk.injEq]
    omega

/-- Settles O53, by the kind of instruction. -/
theorem configurationIsImmutable : Obligations.ConfigurationIsImmutable := by
  intro s t b i hs hi e
  obtain ⟨c, hc, same⟩ := leadsToSameConfig_exec hs hi t e
  exact ⟨c, hc, same.cfgW, same.cfgL, same.cfgQ⟩

/-- Settles O44: every instruction but NEW asks for a block first. -/
theorem noBlockNoTransaction : Obligations.NoBlockNoTransaction := fun _ _ => exec_of_no_block

end Sys2Proof.Proofs

/-! PROOFS. The statements of the machine: the state it starts from, and what a step does with the host's next action. -/

namespace Sys2Proof

/-- What decodes as a table word decodes from the word's bytes at the reset parameters (log 1, log 3). -/
theorem decode_of_decodeTableWord {nbits w : Nat} {i : Instr} (h : decodeTableWord nbits w = some i) :
    ∃ rest, decode Config.resetW.toNat Config.resetL.toNat (bytesBits (tableBytes nbits w)) = .ok (i, rest) := by
  rw [decodeTableWord, decodeBytes] at h
  split at h
  next j rest hd =>
    cases h
    exact ⟨rest, hd⟩
  next => cases h

end Sys2Proof

namespace Sys2Proof.Machine

/-! ### The step, by the host's next action -/

theorem step_of_script_nil {s : State} (h : s.script = []) : step s = .next s := by
  rw [step, h]

theorem step_of_script_call {s : State} {i : Instr} {rest : List HostAction} (h : s.script = .call i :: rest) :
    step s = if i.isUnit then .refused .unitIsNoCall else exec i { s with script := rest } := by
  rw [step, h]

theorem step_of_script_drive {s : State} {rest : List HostAction} (h : s.script = .drive :: rest) :
    step s = State.driveUnit { s with script := rest } := by
  rw [step, h]

/-! ### The drive action, by the bits at the cursor -/

/-- In TagBit the unit that decodes at the cursor is the one fetched (R22, R86). -/
theorem Block.fetch_of_decode {b : Block} {i : Instr} {rest : List Bool} (ht : b.state = .tagBit)
    (hd : decode b.W b.L b.stream = .ok (i, rest)) : b.fetch = some i := by
  rw [Block.fetch, if_pos ht, hd]

/-- Nothing is fetched inside a unit, nor where the bits run out. -/
theorem Block.fetch_eq_none {b : Block} (h : b.state ≠ .tagBit ∨ ∃ e, decode b.W b.L b.stream = .error e) :
    b.fetch = none := by
  rcases h with ht | ⟨e, he⟩
  · rw [Block.fetch, if_neg ht]
  · rw [Block.fetch, he, ite_self]

theorem State.driveUnit_of_fetch {s : State} {b : Block} {i : Instr} (hs : s.block = some b) (h : b.fetch = some i) :
    s.driveUnit = exec i s := by
  rw [State.driveUnit, hs, Option.bind_some, h]

theorem State.driveUnit_of_no_fetch {s : State} {b : Block} (hs : s.block = some b) (h : b.fetch = none) :
    s.driveUnit = s.driveRest := by
  rw [State.driveUnit, hs, Option.bind_some, h]

/-! ### A unit placed at the cursor -/

/-- The placed bytes are all unread: they are written from address 0 up, where the cursor stands. -/
theorem Block.unread_placeBytes {b : Block} (hq : b.inq.wf) (bytes : List Byte) : (b.placeBytes bytes).unread = bytes := by
  have hlen : (b.placeBytes bytes).unread.length = bytes.length := by simp [Block.unread, Block.placeBytes]
  refine List.ext_getElem hlen fun i _ hi => ?_
  have hread : (b.inq.writeBytes 0 bytes).read (0 + i) = bytes[i] := by
    rw [Memory.read_writeBytes hq, if_pos (by omega), Nat.zero_add, Nat.sub_zero, List.getD_eq_getElem _ _ hi]
  simpa [Block.unread, Block.placeBytes] using hread

/-- No bit is left of `BS_CURBYTE`, so the bits to come are those of the placed bytes (R60, log 3). -/
theorem Block.stream_placeBytes {b : Block} (hq : b.inq.wf) (bytes : List Byte) :
    (b.placeBytes bytes).stream = bytesBits bytes := by
  have hmask : bitsLeft (b.placeBytes bytes).bs.bitMask = 0 := show bitsLeft 0x00 = 0 by decide
  rw [Block.stream, hmask, bitsOfNat, List.nil_append, Block.unread_placeBytes hq]

/-- The block a program is placed in has what the machine's own block has, if a new one has it too. -/
theorem State.blockOrNew_of {P : Block → Prop} {s : State} (h : ∀ b, s.block = some b → P b)
    (hnew : P (Block.init Config.resetW Config.resetL Config.resetQ)) : P s.blockOrNew := by
  rw [State.blockOrNew]
  cases hs : s.block with
  | none => exact hnew
  | some b => exact h b hs

/-- A block with the reset parameters fetches the unit of the table word placed in it (log 3). -/
theorem Block.fetch_placeBytes {b : Block} {nbits w : Nat} {i : Instr} (hW : b.cfgW = Config.resetW)
    (hL : b.cfgL = Config.resetL) (hq : b.inq.wf) (hi : decodeTableWord nbits w = some i) :
    (b.placeBytes (tableBytes nbits w)).fetch = some i := by
  obtain ⟨rest, hd⟩ := decode_of_decodeTableWord hi
  refine Block.fetch_of_decode (rest := rest) rfl ?_
  rw [Block.stream_placeBytes hq, ← hd, ← hW, ← hL]
  rfl

end Sys2Proof.Machine

namespace Sys2Proof.Proofs

open Sys2Proof.Machine

/-- Settles O57: the placed bytes are the bits to come, so the unit that the word decodes to is the one fetched. -/
theorem placedUnitIsRunNext : Obligations.PlacedUnitIsRunNext := by
  intro s nbits w i hs hi
  obtain ⟨hW, hL, hq⟩ := State.blockOrNew_of hs ⟨rfl, rfl, Memory.wf_nil⟩
  have hstep : step (s.withFetchWord nbits w) = State.driveUnit { s.withFetchWord nbits w with script := s.script } :=
    step_of_script_drive rfl
  rw [hstep, State.driveUnit_of_fetch rfl (Block.fetch_placeBytes hW hL hq hi)]

/-- Settles O51: a block just built is good, and the reset parameters are legal. -/
theorem resetStateIsGood : Obligations.ResetStateIsGood := by
  rintro b ⟨⟩
  exact Block.init_good (by decide)

/-- Settles O55: the drive action runs what is fetched, and the state machine where nothing is. -/
theorem stepRunsTheFetchedUnit : Obligations.StepRunsTheFetchedUnit := by
  intro s b rest hscript hs
  rw [step_of_script_drive hscript]
  exact ⟨fun i bits ht hd => State.driveUnit_of_fetch hs (Block.fetch_of_decode ht hd),
    fun h => State.driveUnit_of_no_fetch hs (Block.fetch_eq_none h)⟩

/-- Settles O56, by the host's next action: a transaction, a called unit, or none. -/
theorem stepPerformsTheNextCall : Obligations.StepPerformsTheNextCall := by
  refine fun s => ⟨fun i rest h hi => ?_, fun i rest h hi => ?_, step_of_script_nil⟩
  · rw [step_of_script_call h, hi, if_neg Bool.false_ne_true]
  · rw [step_of_script_call h, if_pos hi]

end Sys2Proof.Proofs
